-- ==== Sys2Proof/Word.lean ====
section
/-! DEFINITION. The bit-vector types of I2CX (00_scope.md R5, R7; 10_state.md R23 to R25): a byte, a bus
address, a step word, and the 9-bit counts that hold frame lengths and byte slots. -/

namespace Sys2Proof

/-- A byte; bit 7 is its most significant bit (R7). -/
abbrev Byte := BitVec 8

/-- A bus address, `ADDR_W` = 7 bits, 0 to 127 (R5, R61). -/
abbrev BusAddr := BitVec 7

/-- A step word of `SCRIPT_ROM` (R96). -/
abbrev StepWord := BitVec 32

/-- A frame length, a data byte index or a byte slot, 0 to 511 in 9 bits (R24, R25, R99). -/
abbrev Count := BitVec 9

/-- An index into `SCRIPT_ROM` (R34). -/
abbrev StepIdx := BitVec 5

/-- A tick counter (R23, R25, R243). -/
abbrev Ticks := BitVec 32

end Sys2Proof
end

