-- ==== Sys2Proof/Syntax.lean ====
section
/-! DEFINITION. The instructions of I2CX, one constructor per row of spec/opcode_table.json: the five step kinds
(30_encoding.md R97), the two frame operations (R91), the two control bytes (R94) and the host commands
(R99, 41_script_steps.md R161, R163). -/

namespace Sys2Proof

/-- The direction of a frame: `f_rw`, `req_rw`, the `rw` bit of the address byte; 0 = write, 1 = read. -/
inductive Dir where
  | write
  | read
deriving DecidableEq, Repr

/-- A script: `go_sel`, `sel`; 0 = display, 1 = loopback. -/
inductive Script where
  | display
  | loopback
deriving DecidableEq, Repr

inductive Instr where
  /-- END, step kind 0: end of script (R166) -/
  | endScript
  /-- WRC, step kind 1: command-framed write (R167) -/
  | wrc (addr : BusAddr) (len : Count) (ptr : Byte) (delay : BitVec 4)
  /-- WRD, step kind 2: data-framed pattern write (R168) -/
  | wrd (addr : BusAddr) (len : Count) (delay : BitVec 4)
  /-- WRR, step kind 3: raw write (R169) -/
  | wrr (addr : BusAddr) (len : Count) (ptr : Byte) (delay : BitVec 4)
  /-- RDR, step kind 4: raw read (R170) -/
  | rdr (addr : BusAddr) (len : Count) (delay : BitVec 4)
  /-- WRITE: the address byte of a write frame (R91, R124) -/
  | write (addr : BusAddr)
  /-- READ: the address byte of a read frame (R91, R131) -/
  | read (addr : BusAddr)
  /-- CTRL_CMD: the control byte 0x00 (R94) -/
  | ctrlCmd
  /-- CTRL_DATA: the control byte 0x40 (R94) -/
  | ctrlData
  /-- GO: start a script run (R161) -/
  | go (sel : Script)
  /-- REQ_WRITE: the host's WRITE (R163) -/
  | reqWrite (addr : BusAddr) (len : Count)
  /-- REQ_READ: the host's READ (R163) -/
  | reqRead (addr : BusAddr) (len : Count)
deriving DecidableEq, Repr

end Sys2Proof
end

