-- ==== Sys2Proof/Config.lean ====
section
/-! DEFINITION. What an implementation of I2CX fixes: the fixed parameters of 00_scope.md R5, the open parameters
of R6, the alphabet of the bus (R9) with the answers of the environment (R13), and the free values, which have no
body, so that no proof can see what they are. -/

namespace Sys2Proof

/-- An acknowledge bit; 0 is ACK, 1 is NACK (00_scope.md R9 and glossary; general knowledge, log entry 3). -/
inductive AckBit where
  | ack
  | nack
deriving DecidableEq, Repr, Inhabited

/-- The events of the bus trace (R9). -/
inductive Event where
  /-- a start condition driven by the master -/
  | S
  /-- eight bits driven by the master -/
  | TX (b : Byte)
  /-- an acknowledge bit driven by a target and sampled by the master -/
  | AI (a : AckBit)
  /-- eight bits driven by a target and sampled by the master -/
  | RX (b : Byte)
  /-- an acknowledge bit driven by the master during a read -/
  | AO (a : AckBit)
  /-- a stop condition driven by the master -/
  | P
  /-- the master stops driving both lines in the middle of a frame, without a stop condition -/
  | X
  /-- the master keeps the bus idle for at least `n` milliseconds -/
  | DLY (n : Nat)
deriving DecidableEq, Repr, Inhabited

/-- The answers of `env_w` to a master-driven byte (R13). -/
inductive WriteAnswer where
  | ack
  | nack
  | arbLost
  | stall
deriving DecidableEq, Repr, Inhabited

/-- The answers of `env_r` to a request for a slave-driven byte (R13). -/
inductive ReadAnswer where
  | byte (b : Byte)
  | stall
deriving DecidableEq, Repr, Inhabited

namespace Config

/-! ### Fixed parameters (R5) -/

/-- `DISPLAY_ADDR` -/
def displayAddr : BusAddr := 0x3C#7
/-- `LOOP_ADDR` -/
def loopAddr : BusAddr := 0x22#7
/-- `SCL_HZ` -/
def sclHz : Nat := 100000
/-- `CTRL_CMD`, the control byte of a command frame (R94) -/
def ctrlCmdByte : Byte := 0x00#8
/-- `CTRL_DATA`, the control byte of a data frame (R94) -/
def ctrlDataByte : Byte := 0x40#8
/-- `N_INIT` -/
def nInit : Nat := 25
/-- `SETTLE_MS` -/
def settleMs : Nat := 10
/-- `N_CONTENT` -/
def nContent : Nat := 128
/-- `PAT_EVEN` -/
def patEven : Byte := 0xAA#8
/-- `PAT_ODD` -/
def patOdd : Byte := 0x55#8
/-- `LOOP_LEN` -/
def loopLen : Nat := 8
/-- `LOOP_PAYLOAD` -/
def loopPayload : List Byte := [0x01#8, 0x23#8, 0x45#8, 0x67#8, 0x89#8, 0xAB#8, 0xCD#8, 0xEF#8]
/-- `WIN_COL` -/
def winCol : List Byte := [0x00#8, 0x7F#8]
/-- `WIN_PAGE` -/
def winPage : List Byte := [0x00#8, 0x07#8]
/-- `BUF_CAP`, the capacity of `txbuf` and of `rxbuf` -/
def bufCap : Nat := 256
/-- The number of bytes of `BYTE_ROM` (R41). -/
def byteRomLen : Nat := 37

/-! ### Open parameters (R6): constants with no body -/

/-- `INIT_ROM`, the payload byte of each of the 25 initialization writes (R6, R192). -/
opaque initRom : Fin 25 → Byte

/-- `TIMEOUT_MS`; 0 means unbounded (R6). -/
opaque timeoutMs : Nat

/-- `CLK_HZ` (R6). -/
opaque clkHz : Nat

/-- The default `INIT_ROM` of 42_display_script.md R193, general knowledge, for tests only. -/
def defaultInitRom : List Byte :=
  [0xAE#8, 0xD5#8, 0x80#8, 0xA8#8, 0x3F#8, 0xD3#8, 0x00#8, 0x40#8, 0x8D#8, 0x14#8, 0x20#8, 0x00#8, 0xA1#8]
    ++ [0xC8#8, 0xDA#8, 0x12#8, 0x81#8, 0xCF#8, 0xD9#8, 0xF1#8, 0xDB#8, 0x40#8, 0xA4#8, 0xA6#8, 0xAF#8]

/-! ### Free values: the unconstrained oracle (R13) -/

/-- The answer of the unconstrained environment to call number `n`, after the trace `tr`, to the driven byte `b`. -/
opaque envWrite (n : Nat) (tr : List Event) (b : Byte) : WriteAnswer

/-- The answer of the unconstrained environment to call number `n`, after the trace `tr`, for a read byte. -/
opaque envRead (n : Nat) (tr : List Event) : ReadAnswer

/-- A byte read while ENV-DISP is the environment, which covers no read frame but never stalls (R219). -/
opaque envByte (n : Nat) (tr : List Event) : Byte

end Config

/-- The parameters a model takes as fields of its configuration (R6), with `SCRIPT_BASE` (R34), which
95_test_vectors.md P6 lets a model vary together with the tables. -/
structure Params where
  /-- `TIMEOUT_MS`; 0 means unbounded -/
  timeoutMs : Nat
  /-- `CLK_HZ` -/
  clkHz : Nat
  /-- `SCRIPT_BASE[0]` -/
  displayBase : StepIdx
  /-- `SCRIPT_BASE[1]` -/
  loopBase : StepIdx
deriving DecidableEq, Repr

end Sys2Proof
end

