-- ==== Sys2Proof/WellFormed.lean ====
section
/-! DEFINITION. Which instructions are well-formed: the bounds on the fields of a step (30_encoding.md R98, R67).
A step outside them is what 30_encoding.md R104 (1) and 93_implementation_defined.md U3 tell a model to refuse.
The other instructions have no ill-formed operand: a request of any length is answered, by CapacityError where the
length is 0 or above 256 (R104 (2)). -/

namespace Sys2Proof

/-- `len` payload bytes fit a frame with a control byte: 1 to 255 (R98). -/
def commandLenOk (len : Count) : Bool := 1 ≤ len.toNat && len.toNat ≤ 255

/-- `len` bytes fit a raw frame: 1 to `BUF_CAP` = 256 (R98). -/
def rawLenOk (len : Count) : Bool := 1 ≤ len.toNat && len.toNat ≤ Config.bufCap

/-- `ptr + len - 1 <= 36` for a `len` of at least 1: the payload lies inside `BYTE_ROM` (R41, R98). -/
def payloadOk (ptr : Byte) (len : Count) : Bool := ptr.toNat + len.toNat ≤ Config.byteRomLen

/-- The bounds of R98. -/
def Instr.wf : Instr → Bool
  | .endScript => true
  | .wrc _ len ptr _ => commandLenOk len && payloadOk ptr len
  | .wrd _ len _ => commandLenOk len
  | .wrr _ len ptr _ => rawLenOk len && payloadOk ptr len
  | .rdr _ len _ => rawLenOk len
  | .write _ => true
  | .read _ => true
  | .ctrlCmd => true
  | .ctrlData => true
  | .go _ => true
  | .reqWrite _ _ => true
  | .reqRead _ _ => true

end Sys2Proof
end

