-- ==== Sys2Proof/Decode.lean ====
section
/-! DEFINITION. Decoding and encoding (30_encoding.md). I2CX has five kinds of instruction word, told apart by WHERE
the word stands and not by its bits (R90): a step word in `SCRIPT_ROM`, an address byte as the first byte of a
frame, a control byte as the first data byte, the 2-bit vector `{go, go_sel}` and the 17-bit vector
`{req_rw, req_addr, req_len}` on the host's ports (R99). A decoder of words therefore takes the word with its
format. Decoding is total and rejects by name. -/

namespace Sys2Proof

/-- The bit of a direction: 0 = write, 1 = read (R91, R99). -/
def Dir.bit : Dir → BitVec 1
  | .write => 0#1
  | .read => 1#1

/-- The direction a bit stands for. -/
def dirOfBit (b : BitVec 1) : Dir := if b = 1#1 then .read else .write

/-- The bit of a script: 0 = display, 1 = loopback (R161). -/
def Script.bit : Script → BitVec 1
  | .display => 0#1
  | .loopback => 1#1

/-- The script a bit stands for. -/
def scriptOfBit (b : BitVec 1) : Script := if b = 1#1 then .loopback else .display

/-- An instruction word with its format (R90). -/
inductive Encoded where
  /-- format STEP -/
  | step (w : StepWord)
  /-- format ADDR -/
  | addr (b : Byte)
  /-- format CTRL -/
  | ctrl (b : Byte)
  /-- format GO: `{go, go_sel}` -/
  | go (w : BitVec 2)
  /-- format REQ: `{req_rw, req_addr, req_len}` -/
  | req (w : BitVec 17)
deriving DecidableEq, Repr

/-- Why a word is rejected. -/
inductive DecodeError where
  /-- a step word of a reserved kind, 5 to 15 (R97, R104) -/
  | reservedKind (kind : BitVec 4)
  /-- a byte that is neither 0x00 nor 0x40 is no control byte (R94) -/
  | notControlByte (b : Byte)
  /-- `go` = 0: no command is given (R161) -/
  | noCommand
deriving DecidableEq, Repr

/-! ### The fields of a step word (R96) -/

def stepKind (w : StepWord) : BitVec 4 := w.extractLsb' 28 4
def stepAddr (w : StepWord) : BusAddr := w.extractLsb' 21 7
def stepLen (w : StepWord) : Count := w.extractLsb' 12 9
def stepPtr (w : StepWord) : Byte := w.extractLsb' 4 8
def stepDelay (w : StepWord) : BitVec 4 := w.extractLsb' 0 4

/-- Format STEP (R96, R97); fields a kind does not use are ignored (R98). -/
def decodeStep (w : StepWord) : Except DecodeError Instr :=
  match (stepKind w).toNat with
  | 0 => .ok .endScript
  | 1 => .ok (.wrc (stepAddr w) (stepLen w) (stepPtr w) (stepDelay w))
  | 2 => .ok (.wrd (stepAddr w) (stepLen w) (stepDelay w))
  | 3 => .ok (.wrr (stepAddr w) (stepLen w) (stepPtr w) (stepDelay w))
  | 4 => .ok (.rdr (stepAddr w) (stepLen w) (stepDelay w))
  | _ => .error (.reservedKind (stepKind w))

/-- Format ADDR (R91): the bus address in bits 7:1, the direction in bit 0. -/
def decodeAddr (b : Byte) : Instr :=
  match dirOfBit (b.extractLsb' 0 1) with
  | .write => .write (b.extractLsb' 1 7)
  | .read => .read (b.extractLsb' 1 7)

/-- Format CTRL (R94). -/
def decodeCtrl (b : Byte) : Except DecodeError Instr :=
  if b = Config.ctrlCmdByte then .ok .ctrlCmd
  else if b = Config.ctrlDataByte then .ok .ctrlData
  else .error (.notControlByte b)

/-- Format GO (R161): bit 1 is `go`, bit 0 is `go_sel`. -/
def decodeGo (w : BitVec 2) : Except DecodeError Instr :=
  if w.extractLsb' 1 1 = 1#1 then .ok (.go (scriptOfBit (w.extractLsb' 0 1))) else .error .noCommand

/-- Format REQ (R99): bit 16 is `req_rw`, bits 15:9 `req_addr`, bits 8:0 `req_len`. -/
def decodeReq (w : BitVec 17) : Instr :=
  match dirOfBit (w.extractLsb' 16 1) with
  | .write => .reqWrite (w.extractLsb' 9 7) (w.extractLsb' 0 9)
  | .read => .reqRead (w.extractLsb' 9 7) (w.extractLsb' 0 9)

/-- The decoder: total, by format. -/
def decode : Encoded → Except DecodeError Instr
  | .step w => decodeStep w
  | .addr b => .ok (decodeAddr b)
  | .ctrl b => decodeCtrl b
  | .go w => decodeGo w
  | .req w => .ok (decodeReq w)

/-! ### Encoding -/

/-- `addr_byte = {f_addr[6:0], f_rw} = 2 * f_addr + f_rw` (R91). -/
def addrByte (a : BusAddr) (rw : Dir) : Byte := BitVec.ofNat 8 (2 * a.toNat + rw.bit.toNat)

/-- `kind * 2^28 + addr * 2^21 + len * 2^12 + ptr * 2^4 + delay` (R96). -/
def stepWord (kind : BitVec 4) (addr : BusAddr) (len : Count) (ptr : Byte) (delay : BitVec 4) : StepWord :=
  BitVec.ofNat 32
    (kind.toNat * 0x10000000 + addr.toNat * 0x200000 + len.toNat * 0x1000 + ptr.toNat * 0x10 + delay.toNat)

/-- `{go, go_sel}` with `go` = 1 (R161, opcode table). -/
def goWord (sel : Script) : BitVec 2 := BitVec.ofNat 2 (2 + sel.bit.toNat)

/-- `{req_rw, req_addr[6:0], req_len[8:0]}` (R99). -/
def reqWord (rw : Dir) (addr : BusAddr) (len : Count) : BitVec 17 :=
  BitVec.ofNat 17 (rw.bit.toNat * 0x10000 + addr.toNat * 0x200 + len.toNat)

/-- The word of an instruction, with its format; fields a kind does not use are 0 (R98). -/
def encode : Instr → Encoded
  | .endScript => .step (stepWord 0#4 0#7 0#9 0#8 0#4)
  | .wrc addr len ptr delay => .step (stepWord 1#4 addr len ptr delay)
  | .wrd addr len delay => .step (stepWord 2#4 addr len 0#8 delay)
  | .wrr addr len ptr delay => .step (stepWord 3#4 addr len ptr delay)
  | .rdr addr len delay => .step (stepWord 4#4 addr len 0#8 delay)
  | .write addr => .addr (addrByte addr .write)
  | .read addr => .addr (addrByte addr .read)
  | .ctrlCmd => .ctrl Config.ctrlCmdByte
  | .ctrlData => .ctrl Config.ctrlDataByte
  | .go sel => .go (goWord sel)
  | .reqWrite addr len => .req (reqWord .write addr len)
  | .reqRead addr len => .req (reqWord .read addr len)

/-! ### The opcode table's words

The table gives its rows 32, 8, 8, 2 and 17 bits. A word of 8 bits does not say whether it is an address byte, a
control byte or a GO vector, because on the hardware its place says so; here the row that fixes the most bits wins
(log entry 5): the control bytes 0x00 and 0x40, then the GO vectors 2 and 3, then the address bytes. -/

/-- The format of a table word. -/
def tableFormat (nbits w : Nat) : Option Encoded :=
  if nbits = 32 then (if w < 0x100000000 then some (.step (BitVec.ofNat 32 w)) else none)
  else if nbits = 17 ∨ nbits = 24 then (if w < 0x20000 then some (.req (BitVec.ofNat 17 w)) else none)
  else if nbits = 2 then (if w < 4 then some (.go (BitVec.ofNat 2 w)) else none)
  else if nbits = 8 then
    (if w = 0x00 ∨ w = 0x40 then some (.ctrl (BitVec.ofNat 8 w))
     else if w = 2 ∨ w = 3 then some (.go (BitVec.ofNat 2 w))
     else if w < 0x100 then some (.addr (BitVec.ofNat 8 w)) else none)
  else none

/-- What the decoder reads from a word numbered as spec/opcode_table.json numbers it. -/
def decodeTableWord (nbits w : Nat) : Option Instr :=
  match tableFormat nbits w with
  | some e => (decode e).toOption
  | none => none

end Sys2Proof
end

