-- ==== Sys2Proof/Machine/State.lean ====
section
/-! DEFINITION. The state of I2CX (10_state.md), as plain data, and the state after reset (R35). Beside the spec's
registers and buffers it holds what the spec gives the step relation as parameters (the two tables, the open
parameters, the environment, the bus trace: R31), what the host drives on the input ports (R20), and two counters
of the optional line level (40_frame_transceiver.md R150). -/

namespace Sys2Proof.Machine

open Sys2Proof

/-! ### Named values of the registers -/

/-- `seq_state` (R23): `Q_IDLE` = 0, `Q_FETCH` = 1, `Q_XFER` = 2, `Q_DELAY` = 3, `Q_DIRECT` = 4; 5 to 7 never occur. -/
inductive SeqState where
  | idle
  | fetch
  | xfer
  | delay
  | direct
deriving DecidableEq, Repr

/-- `mft_state` (R25): `M_IDLE` = 0 to `M_STOP` = 8; 9 to 15 never occur. `aack`, `tack` and `rack` are used at line
level only (R122). -/
inductive MftState where
  | idle
  | start
  | addr
  | aack
  | tx
  | tack
  | rx
  | rack
  | stop
deriving DecidableEq, Repr

/-- `err_kind`, `m_err_kind` (R24, 60_exceptions.md R230); 5 to 7 never occur. -/
inductive ErrKind where
  | none
  | addressing
  | timeout
  | capacity
  | arbitration
deriving DecidableEq, Repr

/-- The quarter of a bit time that is being counted (line level, R150). -/
inductive Quarter where
  | first
  | second
  | third
  | fourth
deriving DecidableEq, Repr

/-- The level of the specification a run is made at (00_scope.md R11): the normative symbol level, where a step is one
symbol or byte slot, or the optional line level, where a step is one tick of `clk`. No step changes it. -/
inductive Level where
  | symbol
  | line
deriving DecidableEq, Repr

/-! ### The input ports (R20) -/

/-- The levels on the input ports at one rising edge. `sclEnv` and `sdaEnv` are what the other devices leave the two
bus lines at (true = released); the levels `scl_i` and `sda_i` are computed from them by the wired-AND of R21.
`rxRead` is the model's own mark that the host uses `rx_data` at this edge (R28; log entry 7). -/
structure Ports where
  rst : Bool
  go : Bool
  goSel : Script
  reqValid : Bool
  reqRw : Dir
  reqAddr : BusAddr
  reqLen : Count
  txWe : Bool
  txIdx : Byte
  txData : Byte
  rxIdx : Byte
  rxRead : Bool
  sclEnv : Bool
  sdaEnv : Bool
deriving DecidableEq, Repr

/-- No command, no write, both lines released. -/
def Ports.quiet : Ports where
  rst := false
  go := false
  goSel := .display
  reqValid := false
  reqRw := .write
  reqAddr := 0#7
  reqLen := 0#9
  txWe := false
  txIdx := 0#8
  txData := 0#8
  rxIdx := 0#8
  rxRead := false
  sclEnv := true
  sdaEnv := true

/-! ### The environment (00_scope.md R10, R13; 43_loopback_script.md R215 to R220) -/

/-- ENV-LOOP, the simulator of the peripheral-mode endpoint (R215). -/
structure LoopSim where
  pAddr : BusAddr
  /-- the receive queue `p_rx`, oldest byte first -/
  pRx : List Byte
  /-- the transmit queue `p_tx`, next byte first -/
  pTx : List Byte
deriving DecidableEq, Repr

/-- ENV-DISP, the simulator of a display that is present (R219): the data bytes of each frame it has received. -/
structure DispSim where
  log : List (List Byte)
deriving DecidableEq, Repr

/-- Who answers on the bus: the unconstrained oracle of R13, first from given answers and then from the free values
of Config; or one of the two simulators. -/
inductive Sim where
  | oracle (ws : List WriteAnswer) (rs : List ReadAnswer)
  | envLoop (l : LoopSim)
  | envDisp (d : DispSim)
deriving DecidableEq, Repr

/-- The answer a fault injection puts in the place of a simulator's (R220). -/
inductive Injected where
  | nack
  | arbLost
  | stall
deriving DecidableEq, Repr

/-- The environment: who answers, how many times it has been asked, and the call whose answer is replaced (R220). -/
structure Env where
  sim : Sim
  asks : Nat
  inject : Option (Nat × Injected)
deriving DecidableEq, Repr

/-! ### The buffers -/

/-- A buffer: index and byte, indices strictly rising. An index not listed holds no value (R28). -/
abbrev Memory := List Host.Cell

/-- The canonical form of a buffer: strictly rising indices, all below `BUF_CAP` (R26, R27). -/
abbrev Memory.wf (m : Memory) : Prop := m.Pairwise (fun x y => x.1 < y.1) ∧ ∀ c ∈ m, c.1 < Config.bufCap

/-! ### The state -/

structure State where
  /-- `seq_state` (R23) -/
  seqState : SeqState
  /-- `sel` (R23): the script of the current or last script run -/
  sel : Script
  /-- `pc` (R23, R34): the index in `SCRIPT_ROM` of the step being fetched or performed -/
  pc : StepIdx
  /-- `dly_cnt` (R23, R171) -/
  dlyCnt : Ticks
  /-- `done` (R24) -/
  done : Bool
  /-- `failed` (R24) -/
  failed : Bool
  /-- `err_kind` (R24) -/
  errKind : ErrKind
  /-- `err_pos` (R24, R236) -/
  errPos : Count
  /-- `fail_step` (R24, R237) -/
  failStep : StepIdx
  /-- `mft_state` (R25) -/
  mftState : MftState
  /-- `f_addr` (R25) -/
  fAddr : BusAddr
  /-- `f_rw` (R25) -/
  fRw : Dir
  /-- `f_len` (R25) -/
  fLen : Count
  /-- `byte_idx` (R25, R33) -/
  byteIdx : Count
  /-- `bit_cnt` (R25): line level only -/
  bitCnt : BitVec 4
  /-- `shreg` (R25): line level only -/
  shreg : Byte
  /-- `tmo_cnt` (R25, R153): line level only -/
  tmoCnt : Ticks
  /-- `m_err_kind` (R25) -/
  mErrKind : ErrKind
  /-- `m_err_pos` (R25) -/
  mErrPos : Count
  /-- `txbuf` (R26) -/
  txbuf : Memory
  /-- `rxbuf` (R27) -/
  rxbuf : Memory
  /-- the quarter of the current symbol (line level; the model's own, log entry 8) -/
  quarter : Quarter
  /-- ticks counted in the current quarter (line level; the model's own, log entry 8) -/
  qTick : Nat
  /-- `SCRIPT_ROM` (R40): a parameter of the step relation (R31); no step writes it (R76) -/
  scriptRom : Vector StepWord 32
  /-- `BYTE_ROM` (R41): likewise -/
  byteRom : Vector Byte 37
  /-- the open parameters (R6) -/
  params : Params
  /-- the level of the run (R11) -/
  level : Level
  /-- the bus trace (R9), oldest event first; appended to and never read by I2CX (R31) -/
  trace : List Event
  /-- the environment (R10, R13) -/
  env : Env
  /-- the input ports at the coming edge (R20) -/
  ports : Ports
  /-- the levels the host drives at the edges after it, soonest first; when it is empty the levels stay -/
  schedule : List Ports
deriving DecidableEq, Repr

/-! ### Why a step stops -/

/-- The faults: all are safe, since the hardware goes on with a byte of unknown value. -/
inductive Fault where
  /-- MFT reads `txbuf[idx]`, which nothing has written since reset (R28, R141; U1). Raised by the write data slot. -/
  | unwrittenTxByte (idx : Nat)
  /-- the host reads `rxbuf[idx]`, which nothing has written since reset (R28; U1). Raised by a host read. -/
  | unwrittenRxByte (idx : Nat)
deriving DecidableEq, Repr

/-- The refusals: all are safe; each is a configuration that the spec tells a model to refuse, or no meaning. -/
inductive Refusal where
  /-- exec has no meaning for the instruction: none is left -/
  | notModelled (mnemonic : String)
  /-- the step word at `pc` has a reserved kind, 5 to 15 (R104; U3). Raised by the fetch. -/
  | reservedKind (kind : BitVec 4)
  /-- a field of the step is outside the bounds of R98 (R104; U3). Raised by WRC, WRD, WRR, RDR. -/
  | malformedStep
  /-- the tables hold a reserved kind, a malformed step or a script with no END (R104; U3). Raised by GO. -/
  | malformedTable
  /-- a step at index 31 succeeded, so the script has no END (R34, R104; U3). Raised at the end of a step's frame. -/
  | scriptOverrun
  /-- `CLK_HZ` or `TIMEOUT_MS` is outside its constraint (R6, R103; U13). Raised by a line level step. -/
  | badParams
deriving DecidableEq, Repr

/-! ### Reset -/

/-- `SCRIPT_ROM` (R40), the words of 95_test_vectors.md V2. -/
def scriptRomReset : Vector StepWord 32 :=
  #v[0x1780100A#32, 0x1780101A#32, 0x1780102A#32, 0x1780103A#32, 0x1780104A#32, 0x1780105A#32, 0x1780106A#32,
    0x1780107A#32, 0x1780108A#32, 0x1780109A#32, 0x178010AA#32, 0x178010BA#32, 0x178010CA#32, 0x178010DA#32,
    0x178010EA#32, 0x178010FA#32, 0x1780110A#32, 0x1780111A#32, 0x1780112A#32, 0x1780113A#32, 0x1780114A#32,
    0x1780115A#32, 0x1780116A#32, 0x1780117A#32, 0x1780118A#32, 0x17802190#32, 0x178021B0#32, 0x27880000#32,
    0x00000000#32, 0x344081D0#32, 0x44408000#32, 0x00000000#32]

/-- `BYTE_ROM` (R41): `INIT_ROM`, the window bytes, the loopback payload. -/
def byteRomOf (i : Fin 25 → Byte) : Vector Byte 37 :=
  #v[i 0, i 1, i 2, i 3, i 4, i 5, i 6, i 7, i 8, i 9, i 10, i 11, i 12, i 13, i 14, i 15, i 16, i 17, i 18, i 19,
    i 20, i 21, i 22, i 23, i 24, 0x00#8, 0x7F#8, 0x00#8, 0x07#8, 0x01#8, 0x23#8, 0x45#8, 0x67#8, 0x89#8, 0xAB#8,
    0xCD#8, 0xEF#8]

/-- The open parameters of the machine and `SCRIPT_BASE` = [0, 29] (R6, R34). -/
def paramsReset : Params where
  timeoutMs := Config.timeoutMs
  clkHz := Config.clkHz
  displayBase := 0#5
  loopBase := 29#5

/-- The state after reset (R35, 70_reset_and_hazards.md R270): every register 0 or idle, the buffers without value,
the bus trace empty; the tables and parameters of the build; an environment that is not constrained; nothing on the
input ports (log entries 1, 2 and 6). -/
def State.reset : State where
  seqState := .idle
  sel := .display
  pc := 0#5
  dlyCnt := 0#32
  done := false
  failed := false
  errKind := .none
  errPos := 0#9
  failStep := 0#5
  mftState := .idle
  fAddr := 0#7
  fRw := .write
  fLen := 0#9
  byteIdx := 0#9
  bitCnt := 0#4
  shreg := 0#8
  tmoCnt := 0#32
  mErrKind := .none
  mErrPos := 0#9
  txbuf := []
  rxbuf := []
  quarter := .first
  qTick := 0
  scriptRom := scriptRomReset
  byteRom := byteRomOf Config.initRom
  params := paramsReset
  level := .symbol
  trace := []
  env := { sim := .oracle [] [], asks := 0, inject := none }
  ports := .quiet
  schedule := []

end Sys2Proof.Machine
end

