-- ==== Sys2Proof/Machine/Environment.lean ====
section
/-! DEFINITION. The environment ENV: the oracle's two entry points `env_w` and `env_r` (00_scope.md R13), each seeing
the whole bus trace so far; the simulators ENV-LOOP (43_loopback_script.md R215) and ENV-DISP (R219) with the moves
of the peripheral's software, and fault injection (R220). -/

namespace Sys2Proof.Machine

open Sys2Proof

/-! ### What a simulator reads from the trace -/

/-- The events of the frame in progress: those after the last `S`. -/
def frameSoFar (tr : List Event) : List Event := tr.foldl (fun acc e => if e = .S then [] else acc ++ [e]) []

/-- The byte being driven is an address byte: nothing has followed the start condition. -/
def addressSlot (tr : List Event) : Bool := decide (tr.getLast? = some .S)

/-- The address byte of the frame in progress. -/
def frameAddress (tr : List Event) : Option Byte :=
  match frameSoFar tr with
  | .TX b :: _ => some b
  | _ => none

/-! ### ENV-LOOP (R215) -/

/-- Its answer to a driven byte, and its next state. A byte of a frame that is not addressed to it is not pulled low
for, which is NACK (log entry 10). -/
def LoopSim.onWrite (l : LoopSim) (tr : List Event) (b : Byte) : WriteAnswer × LoopSim :=
  if addressSlot tr then
    if b = addrByte l.pAddr .write ∨ b = addrByte l.pAddr .read then (.ack, l) else (.nack, l)
  else if frameAddress tr = some (addrByte l.pAddr .write) ∧ l.pRx.length < Config.bufCap then
    (.ack, { l with pRx := l.pRx ++ [b] })
  else (.nack, l)

/-- Its answer to a request for a byte, and its next state; none in a frame that is not addressed to it. -/
def LoopSim.onRead (l : LoopSim) (tr : List Event) : Option (ReadAnswer × LoopSim) :=
  if frameAddress tr = some (addrByte l.pAddr .read) then
    match l.pTx with
    | [] => some (.stall, l)
    | b :: t => some (.byte b, { l with pTx := t })
  else none

/-- `p_read(n)`: the first `n` bytes received, or none while the peripheral's software waits for them. -/
def LoopSim.pRead (l : LoopSim) (n : Nat) : Option (List Byte × LoopSim) :=
  if n ≤ l.pRx.length then some (l.pRx.take n, { l with pRx := l.pRx.drop n }) else none

/-- `p_write(bs)`: queue bytes to send; none is the simulator's CapacityError. -/
def LoopSim.pWrite (l : LoopSim) (bs : List Byte) : Option LoopSim :=
  if l.pTx.length + bs.length ≤ Config.bufCap then some { l with pTx := l.pTx ++ bs } else none

/-- ENV-LOOP at the start of a test: address 0x22, both queues empty. -/
def LoopSim.fresh : LoopSim where
  pAddr := Config.loopAddr
  pRx := []
  pTx := []

/-! ### ENV-DISP (R219) -/

/-- The log with a byte appended to its last entry. -/
def appendLast : List (List Byte) → Byte → List (List Byte)
  | [], b => [[b]]
  | [f], b => [f ++ [b]]
  | f :: g :: fs, b => f :: appendLast (g :: fs) b

/-- Its answer to a driven byte, and its next state; it never stalls and never contends (R219). A byte of a frame that
is not addressed to it is not pulled low for, which is NACK (log entry 10). The log gets its entry for a frame, empty at
first, at the acknowledged address byte: DESIGN CHOICE, log entry 32. -/
def DispSim.onWrite (d : DispSim) (tr : List Event) (b : Byte) : WriteAnswer × DispSim :=
  if addressSlot tr then
    if b = addrByte Config.displayAddr .write then (.ack, { d with log := d.log ++ [[]] }) else (.nack, d)
  else if frameAddress tr = some (addrByte Config.displayAddr .write) then
    (.ack, { d with log := appendLast d.log b })
  else (.nack, d)

/-- ENV-DISP before the first frame. -/
def DispSim.fresh : DispSim where
  log := []

/-! ### The two entry points -/

/-- The answer to a driven byte: the oracle's given answers and then its free ones, or a simulator's. -/
def Sim.onWrite (m : Sim) (n : Nat) (tr : List Event) (b : Byte) : WriteAnswer × Sim :=
  match m with
  | .oracle (a :: ws) rs => (a, .oracle ws rs)
  | .oracle [] rs => (Config.envWrite n tr b, .oracle [] rs)
  | .envLoop l => ((l.onWrite tr b).1, .envLoop (l.onWrite tr b).2)
  | .envDisp d => ((d.onWrite tr b).1, .envDisp (d.onWrite tr b).2)

/-- The answer to a request for a byte. ENV-LOOP covers no read frame of another address, ENV-DISP none at all
(R219): there the answer is free, but for ENV-DISP's never stalling. -/
def Sim.onRead (m : Sim) (n : Nat) (tr : List Event) : ReadAnswer × Sim :=
  match m with
  | .oracle ws (a :: rs) => (a, .oracle ws rs)
  | .oracle ws [] => (Config.envRead n tr, .oracle ws [])
  | .envLoop l =>
    match l.onRead tr with
    | some (a, l') => (a, .envLoop l')
    | none => (Config.envRead n tr, .envLoop l)
  | .envDisp d => (.byte (Config.envByte n tr), .envDisp d)

/-- The answer that is put in the place of call number `asks`, if that is the chosen one (R220). -/
def Env.injected (e : Env) : Option Injected :=
  match e.inject with
  | some (n, i) => if n = e.asks then some i else none
  | none => none

/-- An injected answer to `env_w`. -/
def Injected.toWrite : Injected → WriteAnswer
  | .nack => .nack
  | .arbLost => .arbLost
  | .stall => .stall

/-- `env_w(b)` after the trace `tr` (R13). -/
def Env.askWrite (e : Env) (tr : List Event) (b : Byte) : WriteAnswer × Env :=
  match e.injected with
  | some i => (i.toWrite, { e with asks := e.asks + 1 })
  | none => ((e.sim.onWrite e.asks tr b).1, { e with sim := (e.sim.onWrite e.asks tr b).2, asks := e.asks + 1 })

/-- `env_r()` after the trace `tr` (R13). A read answer is a byte or `Stall`, so only a `Stall` can be injected. -/
def Env.askRead (e : Env) (tr : List Event) : ReadAnswer × Env :=
  match e.injected with
  | some .stall => (.stall, { e with asks := e.asks + 1 })
  | _ => ((e.sim.onRead e.asks tr).1, { e with sim := (e.sim.onRead e.asks tr).2, asks := e.asks + 1 })

end Sys2Proof.Machine
end

