-- ==== Sys2Proof/Machine/Flags.lean ====
section
/-! DEFINITION. The status bits and error registers (10_state.md R24, R29; 41_script_steps.md R161, R163, R166), and the
numeric codes of the named register values. I2CX has no arithmetic condition codes (R29). -/

namespace Sys2Proof.Machine

open Sys2Proof

/-- `busy` is 1 exactly when `seq_state != Q_IDLE` (R24): a view, stored nowhere else. -/
def State.busy (s : State) : Bool := decide (s.seqState ≠ .idle)

/-- What the acceptance of a run clears (R161, R163). -/
def clearStatus (s : State) : State :=
  { s with done := false, failed := false, errKind := .none, errPos := 0#9, failStep := 0#5 }

/-- The end of a run with success: `done <- 1`, `seq_state <- Q_IDLE` (R163, R166). -/
def runDone (s : State) : State := { s with done := true, seqState := .idle }

/-- The codes of `seq_state` (R23). -/
def SeqState.code : SeqState → BitVec 3
  | .idle => 0#3
  | .fetch => 1#3
  | .xfer => 2#3
  | .delay => 3#3
  | .direct => 4#3

/-- The codes of `mft_state` (R25). -/
def MftState.code : MftState → BitVec 4
  | .idle => 0#4
  | .start => 1#4
  | .addr => 2#4
  | .aack => 3#4
  | .tx => 4#4
  | .tack => 5#4
  | .rx => 6#4
  | .rack => 7#4
  | .stop => 8#4

/-- The codes of `err_kind` (R24, R230). -/
def ErrKind.code : ErrKind → BitVec 3
  | .none => 0#3
  | .addressing => 1#3
  | .timeout => 2#3
  | .capacity => 3#3
  | .arbitration => 4#3

end Sys2Proof.Machine
end

