-- ==== Sys2Proof/Machine/Operands.lean ====
section
/-! DEFINITION. The operands of the instructions: the pattern function and the frame assembly (30_encoding.md R100,
R101), the step word at `pc` (41_script_steps.md R164), the address byte of the current frame (R91), and the
constants derived from the parameters (00_scope.md R6). -/

namespace Sys2Proof.Machine

open Sys2Proof

/-- `pat(i)`: 0xAA if `i` is even, 0x55 if `i` is odd (R8, R101). -/
def pat (i : Nat) : Byte := if i % 2 = 0 then Config.patEven else Config.patOdd

/-- `BYTE_ROM[ptr .. ptr+len-1]` (R100). -/
def romBytes (rom : Vector Byte 37) (ptr : Byte) (len : Count) : List Byte :=
  (rom.toList.drop ptr.toNat).take len.toNat

/-- The data bytes of a WRC frame: the control byte 0x00 and the payload (R100, R167). -/
def commandFrame (rom : Vector Byte 37) (ptr : Byte) (len : Count) : List Byte :=
  Config.ctrlCmdByte :: romBytes rom ptr len

/-- The data bytes of a WRD frame: the control byte 0x40 and `pat(1)` to `pat(len)` (R100, R168). -/
def patternFrame (len : Count) : List Byte :=
  Config.ctrlDataByte :: (List.range len.toNat).map (fun j => pat (j + 1))

/-- The data bytes of a WRR frame: the payload alone (R100, R169). -/
def rawFrame (rom : Vector Byte 37) (ptr : Byte) (len : Count) : List Byte := romBytes rom ptr len

/-- `SCRIPT_ROM[pc]` (R164). -/
def State.stepWordAt (s : State) : StepWord := s.scriptRom[s.pc.toNat]

/-- The `delay` field of the step at `pc` (R172), in milliseconds (R102). -/
def State.stepDelayMs (s : State) : Nat := (stepDelay s.stepWordAt).toNat

/-- `SCRIPT_BASE[sel]` (R34). -/
def scriptBase (p : Params) : Script → StepIdx
  | .display => p.displayBase
  | .loopback => p.loopBase

/-- The script-local index of the step at `pc` (R40, R237). -/
def State.localStep (s : State) : StepIdx := s.pc - scriptBase s.params s.sel

/-- The address byte of the current frame, `{f_addr, f_rw}` (R91, R125). -/
def State.frameAddrByte (s : State) : Byte := addrByte s.fAddr s.fRw

/-- `1 <= n <= BUF_CAP`: a frame length MFT accepts (R121). -/
def frameLenOk (n : Count) : Bool := 1 ≤ n.toNat && n.toNat ≤ Config.bufCap

/-- `TICKS_PER_MS` (R6). -/
def ticksPerMs (p : Params) : Nat := p.clkHz / 1000

/-- `QBIT_TICKS` (R6). -/
def qbitTicks (p : Params) : Nat := p.clkHz / (4 * Config.sclHz)

/-- `SETTLE_TICKS` (R6). -/
def settleTicks (p : Params) : Nat := Config.settleMs * ticksPerMs p

/-- `TIMEOUT_TICKS` (R6). -/
def timeoutTicks (p : Params) : Nat := p.timeoutMs * ticksPerMs p

/-- The constraints on the open parameters at line level: `CLK_HZ` a multiple of `4 * SCL_HZ` and of 1000 (R6), not 0,
and `CLK_HZ < 2^32 * 1000 / 15` (R103); `TIMEOUT_TICKS` fits the 32 bits of `tmo_cnt` (R25; log entry 8). A
`TIMEOUT_MS` that is not 0 and shorter than a frame is accepted, so that healthy frames time out: of the two treatments
that U10 and R291 leave, DESIGN CHOICE, log entry 27. -/
def lineParamsOk (p : Params) : Bool :=
  p.clkHz % (4 * Config.sclHz) = 0 && p.clkHz % 1000 = 0 && 0 < p.clkHz && p.clkHz * 15 < 4294967296000
    && timeoutTicks p < 4294967296

/-! ### Malformed tables (R104 (1)) -/

/-- The step of a word, if its kind is not reserved. -/
def wordOk (w : StepWord) : Bool :=
  match decodeStep w with
  | .ok i => i.wf
  | .error _ => false

/-- The word is an END. -/
def isEnd (w : StepWord) : Bool := (stepKind w).toNat = 0

/-- The script that begins at `base` has an END at or before index 31. -/
def scriptEnds (rom : Vector StepWord 32) (base : StepIdx) : Bool := (rom.toList.drop base.toNat).any isEnd

/-- No reserved kind, no field out of bounds, both scripts ended (R104 (1)). -/
def State.tableOk (s : State) : Bool :=
  s.scriptRom.toList.all wordOk && scriptEnds s.scriptRom s.params.displayBase
    && scriptEnds s.scriptRom s.params.loopBase

end Sys2Proof.Machine
end

