-- ==== Sys2Proof/Machine/Ops.lean ====
section
/-! DEFINITION. The named operations on buffers and registers: reading and writing a buffer byte (10_state.md R26 to
R28), emitting events (00_scope.md R9), accepting a frame operation (40_frame_transceiver.md R121), handing its
result over (R140, 41_script_steps.md R163, R172), and the abort that stands in the place of taking an exception
(60_exceptions.md R235). No operation resumes a failed run (R238): what follows an abort is a new GO or REQ, whose
acceptance clears the error registers (`clearStatus`), or reset. -/

namespace Sys2Proof.Machine

open Sys2Proof

/-! ### Buffers -/

/-- The byte of a buffer at an index, if anything has been written there (R28). -/
def Memory.read : Memory → Nat → Option Byte
  | [], _ => none
  | (k, v) :: m, a => if k = a then some v else Memory.read m a

/-- `buf[a] <- b`, keeping the indices strictly rising. -/
def Memory.write : Memory → Nat → Byte → Memory
  | [], a, b => [(a, b)]
  | (k, v) :: m, a, b =>
    if a < k then (a, b) :: (k, v) :: m
    else if a = k then (a, b) :: m
    else (k, v) :: Memory.write m a b

/-- `buf[a + j] <- d[j]` for every byte of `d`. -/
def Memory.writeFrom : Memory → Nat → List Byte → Memory
  | m, _, [] => m
  | m, a, b :: d => Memory.writeFrom (Memory.write m a b) (a + 1) d

/-- `txbuf[0 .. m-1] <- d` (R165). -/
def loadFrame (d : List Byte) (s : State) : State := { s with txbuf := Memory.writeFrom s.txbuf 0 d }

/-- The output port `rx_data`: `rxbuf[rx_idx]`, combinational (R20, R27); no value where nothing was written (R28). -/
def State.rxData (s : State) : Option Byte := Memory.read s.rxbuf s.ports.rxIdx.toNat

/-! ### Events -/

/-- `emit`: append events to the bus trace (R8, R9). -/
def emit (es : List Event) (s : State) : State := { s with trace := s.trace ++ es }

/-! ### Abort (R235): the one operation that takes an error -/

/-- `fail_step`: the script-local index of the step, 0 for a REQ run (R237). -/
def failStepOf (s : State) : StepIdx :=
  match s.seqState with
  | .direct => 0#5
  | _ => s.localStep

/-- `raise K(pos)` seen by SEQ: the frame operation ended with `Err(K, pos)`; the error is latched, MFT and SEQ are
idle, `pc`, `sel` and the buffers keep their values (R235, R236). -/
def abortRun (k : ErrKind) (pos : Count) (s : State) : State :=
  { s with
    failed := true, errKind := k, errPos := pos, failStep := failStepOf s, mftState := .idle, seqState := .idle }

/-- Arbitration loss and timeout: the lines are released with no stop condition (R137, R138). -/
def abandon (k : ErrKind) (pos : Count) (s : State) : State := abortRun k pos (emit [.X] s)

/-! ### Accepting a frame operation -/

/-- MFT accepts `(a, rw, n)` or returns CapacityError at once (R121, R234). -/
def startMft (a : BusAddr) (rw : Dir) (n : Count) (s : State) : State :=
  if frameLenOk n then
    { s with
      fAddr := a, fRw := rw, fLen := n, byteIdx := 0#9, mErrKind := .none, mErrPos := 0#9, tmoCnt := 0#32,
      mftState := .start, quarter := .first, qTick := 0 }
  else abortRun .capacity 0#9 s

/-! ### The result of a frame operation -/

/-- The result MFT hands to SEQ (R120). -/
inductive FrameResult where
  | ok
  | err (k : ErrKind) (pos : Count)
deriving DecidableEq, Repr

/-- A step of a script succeeded: `pc <- pc + 1`, then the post-delay if there is one (R172). -/
def stepDone (s : State) : Host.Outcome State Fault Refusal :=
  if s.pc = 31#5 then .refused .scriptOverrun
  else if s.stepDelayMs = 0 then .next { s with pc := s.pc + 1#5, seqState := .fetch }
  else .next
    { s with
      pc := s.pc + 1#5
      trace := s.trace ++ [.DLY s.stepDelayMs]
      dlyCnt := BitVec.ofNat 32 (s.stepDelayMs * ticksPerMs s.params)
      seqState := .delay }

/-- SEQ acts on the result in the step in which MFT returns it (R140, R163, R172). -/
def handOver (r : FrameResult) (s : State) : Host.Outcome State Fault Refusal :=
  match r with
  | .err k pos => .next (abortRun k pos s)
  | .ok =>
    match s.seqState with
    | .xfer => stepDone s
    | _ => .next (runDone s)

/-- The result recorded in MFT when the stop condition has been driven (R130). -/
def pendingResult (s : State) : FrameResult :=
  match s.mErrKind with
  | .none => .ok
  | k => .err k s.mErrPos

/-- In `M_STOP`: `emit P`, MFT idle, the result handed over (R130, R140). `m_err_kind` and `m_err_pos` are not written
here and keep a NACK until the next acceptance (R121) or reset: DESIGN CHOICE, log entry 29. -/
def stopFrame (s : State) : Host.Outcome State Fault Refusal :=
  handOver (pendingResult s) { emit [.P] s with mftState := .idle }

/-- `Q_DELAY` left: the next step is fetched (R171). -/
def leaveDelay (s : State) : State := { s with dlyCnt := 0#32, seqState := .fetch }

/-! ### Reset and the ports -/

/-- A frame is open on the bus: its `S` has been driven and neither `P` nor `X` (R68). In `M_START` it is not open yet
(DEDUCED, log entry 9); in `M_STOP` it is open until `P` is recorded, at line level in its last tick (DESIGN CHOICE, log
entry 33). -/
def State.frameOpen (s : State) : Bool := decide (s.mftState ≠ .idle ∧ s.mftState ≠ .start)

/-- A rising edge with `rst` = 1 (R270): every register takes its reset value, the buffers hold no value, and the bus
sees `X` if a frame was open. The tables, the parameters and what stands outside I2CX stay. -/
def resetEdge (s : State) : State :=
  { State.reset with
    scriptRom := s.scriptRom, byteRom := s.byteRom, params := s.params, level := s.level
    trace := if s.frameOpen then s.trace ++ [.X] else s.trace
    env := s.env, ports := s.ports, schedule := s.schedule }

/-- The levels the host drives at the next edge (log entry 6). -/
def advancePorts (s : State) : State :=
  match s.schedule with
  | [] => s
  | p :: ps => { s with ports := p, schedule := ps }

/-- `txbuf[tx_idx] <- tx_data` at an edge with `tx_we` = 1 and `busy` = 0; ignored while `busy` = 1 (R26, R70). -/
def hostWrite (s : State) : State :=
  if s.ports.txWe && !s.busy then { s with txbuf := Memory.write s.txbuf s.ports.txIdx.toNat s.ports.txData } else s

/-- An outcome with its next state changed. -/
def mapNext (f : State → State) : Host.Outcome State Fault Refusal → Host.Outcome State Fault Refusal
  | .next s => .next (f s)
  | .fault r => .fault r
  | .refused r => .refused r

end Sys2Proof.Machine
end

