-- ==== Sys2Proof/Machine/Frame.lean ====
section
/-! DEFINITION. The master frame transceiver at symbol level (40_frame_transceiver.md R121 to R140), the meanings of
the two frame operations WRITE and READ and of the two control bytes, and the frame operations as whole actions
(`busWrite`, `busRead`: R124, R131).

At the normative symbol level a frame operation is many steps (00_scope.md R11). The word of a WRITE or READ is the
address byte of its frame (R91), and running it is the address slot (R125); the slots after it and the stop
condition are the steps that follow, and the whole of R124 and R131 is what those steps add up to. -/

namespace Sys2Proof.Machine

open Sys2Proof

/-! ### Asking the environment -/

/-- `env_w(b)`: the answer, and the state with the environment moved on. -/
def askWrite (b : Byte) (s : State) : WriteAnswer × State :=
  ((s.env.askWrite s.trace b).1, { s with env := (s.env.askWrite s.trace b).2 })

/-- `env_r()`: the answer, and the state with the environment moved on. -/
def askRead (s : State) : ReadAnswer × State :=
  ((s.env.askRead s.trace).1, { s with env := (s.env.askRead s.trace).2 })

/-! ### Byte slots -/

/-- `Stall` in the slot `pos`: wait if `TIMEOUT_MS` = 0, else TimeoutError (R136, R138). -/
def stallSlot (pos : Count) (s : State) : State :=
  if s.params.timeoutMs = 0 then s else abandon .timeout pos s

/-- NACK in the slot `pos`: the error is recorded in MFT and the stop condition follows (R127, R129). -/
def refuseSlot (pos : Count) (s : State) : State :=
  { s with mErrKind := .addressing, mErrPos := pos, mftState := .stop }

/-- After an acknowledged address byte (R125). -/
def afterAddress (rw : Dir) (s : State) : State :=
  { s with
    mftState :=
      match rw with
      | .write => .tx
      | .read => .rx }

/-- That was the last data byte: `byte_idx + 1 = f_len`, with the value before the step (R126, R133). -/
def State.lastByte (s : State) : Bool := decide (s.byteIdx.toNat + 1 = s.fLen.toNat)

/-- After an acknowledged data byte (R126). -/
def afterData (s : State) : State :=
  { s with byteIdx := s.byteIdx + 1#9, mftState := if s.lastByte then .stop else .tx }

/-- Address slot (R125, R127, R132). -/
def addrSlot (a : BusAddr) (rw : Dir) (s : State) : State :=
  match askWrite (addrByte a rw) s with
  | (.ack, t) => afterAddress rw (emit [.TX (addrByte a rw), .AI .ack] t)
  | (.nack, t) => refuseSlot 0#9 (emit [.TX (addrByte a rw), .AI .nack] t)
  | (.arbLost, t) => abandon .arbitration 0#9 t
  | (.stall, t) => stallSlot 0#9 t

/-- Write data slot of the byte `b` (R126, R129). -/
def txSlot (b : Byte) (s : State) : State :=
  match askWrite b s with
  | (.ack, t) => afterData (emit [.TX b, .AI .ack] t)
  | (.nack, t) => refuseSlot (s.byteIdx + 1#9) (emit [.TX b, .AI .nack] t)
  | (.arbLost, t) => abandon .arbitration (s.byteIdx + 1#9) t
  | (.stall, t) => stallSlot (s.byteIdx + 1#9) t

/-- Storing a received byte with the master's acknowledge bit: `AO(1)` after the last byte, else `AO(0)` (R133 to R135). -/
def receiveByte (b : Byte) (s : State) : State :=
  { emit [.RX b, .AO (if s.lastByte then .nack else .ack)] s with
    rxbuf := Memory.write s.rxbuf s.byteIdx.toNat b
    byteIdx := s.byteIdx + 1#9
    mftState := if s.lastByte then .stop else .rx }

/-- Read data slot (R133). -/
def rxSlot (s : State) : State :=
  match askRead s with
  | (.byte b, t) => receiveByte b t
  | (.stall, t) => stallSlot (s.byteIdx + 1#9) t

/-- Start (R123). -/
def startFrame (s : State) : State := { emit [.S] s with mftState := .addr }

/-! ### The meanings -/

/-- WRITE: the address slot of a write frame (R124, R125). -/
def execWrite (a : BusAddr) (s : State) : Host.Outcome State Fault Refusal := .next (addrSlot a .write s)

/-- READ: the address slot of a read frame (R131, R125, R132). -/
def execRead (a : BusAddr) (s : State) : Host.Outcome State Fault Refusal := .next (addrSlot a .read s)

/-- CTRL_CMD: the control byte 0x00, to MFT an ordinary data byte (R94, R106, R126). -/
def execCtrlCmd (s : State) : Host.Outcome State Fault Refusal := .next (txSlot Config.ctrlCmdByte s)

/-- CTRL_DATA: the control byte 0x40, to MFT an ordinary data byte (R94, R106, R126). -/
def execCtrlData (s : State) : Host.Outcome State Fault Refusal := .next (txSlot Config.ctrlDataByte s)

/-! ### The frame operations as whole actions (R124, R131)

`patience` bounds how often one question is put again after a `Stall` with `TIMEOUT_MS` = 0, where R124 says "wait and
ask again"; a result `none` says that the frame was still waiting then. -/

/-- `env_w(b)`, asked again after a `Stall` while there is no timeout. -/
def askWritePatiently : Nat → Byte → State → WriteAnswer × State
  | 0, b, s => askWrite b s
  | k + 1, b, s =>
    if (askWrite b s).1 = .stall ∧ s.params.timeoutMs = 0 then askWritePatiently k b (askWrite b s).2
    else askWrite b s

/-- `env_r()`, asked again after a `Stall` while there is no timeout. -/
def askReadPatiently : Nat → State → ReadAnswer × State
  | 0, s => askRead s
  | k + 1, s =>
    if (askRead s).1 = .stall ∧ s.params.timeoutMs = 0 then askReadPatiently k (askRead s).2 else askRead s

/-- The end of a slot that stalled (R124, R131). -/
def stalled (pos : Count) (s : State) : Option FrameResult × State :=
  if s.params.timeoutMs = 0 then (none, s) else (some (.err .timeout pos), emit [.X] s)

/-- `slot_w` for each byte of a list, from the slot `pos` on; what follows the last is `rest` (R124). -/
def slotsWrite (patience : Nat) (rest : State → Option FrameResult × State) :
    List Byte → Count → State → Option FrameResult × State
  | [], _, s => rest s
  | b :: bs, pos, s =>
    match askWritePatiently patience b s with
    | (.ack, t) => slotsWrite patience rest bs (pos + 1#9) (emit [.TX b, .AI .ack] t)
    | (.nack, t) => (some (.err .addressing pos), emit [.TX b, .AI .nack, .P] t)
    | (.arbLost, t) => (some (.err .arbitration pos), emit [.X] t)
    | (.stall, t) => stalled pos t

/-- Receive `n` bytes, the first into `rxbuf[j]` (R131). -/
def slotsRead (patience : Nat) : Nat → Nat → State → Option FrameResult × State
  | 0, _, s => (some .ok, emit [.P] s)
  | n + 1, j, s =>
    match askReadPatiently patience s with
    | (.byte b, t) =>
      slotsRead patience n (j + 1)
        { emit [.RX b, .AO (if n = 0 then .nack else .ack)] t with rxbuf := Memory.write t.rxbuf j b }
    | (.stall, t) => stalled (BitVec.ofNat 9 (j + 1)) t

/-- `BusWrite(a, bs)` (R124). -/
def busWrite (patience : Nat) (a : BusAddr) (bs : List Byte) (s : State) : Option FrameResult × State :=
  if bs.length = 0 ∨ bs.length > Config.bufCap then (some (.err .capacity 0#9), s)
  else slotsWrite patience (fun t => (some .ok, emit [.P] t)) (addrByte a .write :: bs) 0#9 (emit [.S] s)

/-- `BusRead(a, n)` (R131). -/
def busRead (patience : Nat) (a : BusAddr) (n : Nat) (s : State) : Option FrameResult × State :=
  if n = 0 ∨ n > Config.bufCap then (some (.err .capacity 0#9), s)
  else slotsWrite patience (slotsRead patience n 0) [addrByte a .read] 0#9 (emit [.S] s)

end Sys2Proof.Machine
end

