-- ==== Sys2Proof/Machine/HostCommand.lean ====
section
/-! DEFINITION. The meanings of the host commands GO and REQ (41_script_steps.md R161 to R163). While `busy` = 1 a
command is ignored: it is not queued and has no later effect (R162). -/

namespace Sys2Proof.Machine

open Sys2Proof

/-- GO accepted (R161). -/
def acceptGo (sel : Script) (s : State) : State :=
  { clearStatus s with sel := sel, pc := scriptBase s.params sel, seqState := .fetch }

/-- REQ accepted: MFT is started, or returns CapacityError in the same step (R163, R121, R140). -/
def acceptReq (rw : Dir) (addr : BusAddr) (len : Count) (s : State) : State :=
  startMft addr rw len { clearStatus s with seqState := .direct }

/-- GO (R161); a table the spec tells a model to refuse is refused (R104). -/
def execGo (sel : Script) (s : State) : Host.Outcome State Fault Refusal :=
  if s.busy then .next s else if s.tableOk then .next (acceptGo sel s) else .refused .malformedTable

/-- REQ with `req_rw` = 0 (R163). -/
def execReqWrite (addr : BusAddr) (len : Count) (s : State) : Host.Outcome State Fault Refusal :=
  if s.busy then .next s else .next (acceptReq .write addr len s)

/-- REQ with `req_rw` = 1 (R163). -/
def execReqRead (addr : BusAddr) (len : Count) (s : State) : Host.Outcome State Fault Refusal :=
  if s.busy then .next s else .next (acceptReq .read addr len s)

end Sys2Proof.Machine
end

