-- ==== Sys2Proof/Machine/Script.lean ====
section
/-! DEFINITION. The meanings of the step kinds END, WRC, WRD, WRR and RDR (41_script_steps.md R166 to R170) as the
`Q_FETCH` step performs them: the frame is built in `txbuf` and MFT is started (R165). The frame that follows is
MFT's steps, and the post-delay, read from the step at `pc` when the frame has ended, is R172. -/

namespace Sys2Proof.Machine

open Sys2Proof

/-- A write step: store the data bytes, start MFT, `seq_state <- Q_XFER` (R165). -/
def sendFrame (addr : BusAddr) (n : Count) (d : List Byte) (s : State) : State :=
  startMft addr .write n { loadFrame d s with seqState := .xfer }

/-- END (R166). -/
def execEnd (s : State) : Host.Outcome State Fault Refusal := .next (runDone s)

/-- WRC (R167): `f_len = len + 1`. Out of the bounds of R98 it is refused (R104). -/
def execWrc (addr : BusAddr) (len : Count) (ptr : Byte) (s : State) : Host.Outcome State Fault Refusal :=
  if commandLenOk len && payloadOk ptr len then .next (sendFrame addr (len + 1#9) (commandFrame s.byteRom ptr len) s)
  else .refused .malformedStep

/-- WRD (R168): `f_len = len + 1`. -/
def execWrd (addr : BusAddr) (len : Count) (s : State) : Host.Outcome State Fault Refusal :=
  if commandLenOk len then .next (sendFrame addr (len + 1#9) (patternFrame len) s) else .refused .malformedStep

/-- WRR (R169): `f_len = len`. -/
def execWrr (addr : BusAddr) (len : Count) (ptr : Byte) (s : State) : Host.Outcome State Fault Refusal :=
  if rawLenOk len && payloadOk ptr len then .next (sendFrame addr len (rawFrame s.byteRom ptr len) s)
  else .refused .malformedStep

/-- RDR (R170): `f_len = len`; `txbuf` is left alone. -/
def execRdr (addr : BusAddr) (len : Count) (s : State) : Host.Outcome State Fault Refusal :=
  if rawLenOk len then .next (startMft addr .read len { s with seqState := .xfer }) else .refused .malformedStep

/-! ### The pseudo-instructions (30_encoding.md R111) -/

/-- `CMD k`: initialization write number `k`. -/
def pseudoCmd (k : Nat) : Instr := .wrc Config.displayAddr 1#9 (BitVec.ofNat 8 k) (BitVec.ofNat 4 Config.settleMs)

/-- `INIT`. -/
def pseudoInit : List Instr := (List.range Config.nInit).map pseudoCmd

/-- `WINDOW`: the column range, then the page range. -/
def pseudoWindow : List Instr := [.wrc Config.displayAddr 2#9 25#8 0#4, .wrc Config.displayAddr 2#9 27#8 0#4]

/-- `FILL`. -/
def pseudoFill : List Instr := [.wrd Config.displayAddr (BitVec.ofNat 9 Config.nContent) 0#4]

/-- `DISPLAY`. -/
def pseudoDisplay : List Instr := pseudoInit ++ pseudoWindow ++ pseudoFill ++ [.endScript]

/-- `LOOPBACK`. -/
def pseudoLoopback : List Instr :=
  [.wrr Config.loopAddr (BitVec.ofNat 9 Config.loopLen) 29#8 0#4,
    .rdr Config.loopAddr (BitVec.ofNat 9 Config.loopLen) 0#4, .endScript]

end Sys2Proof.Machine
end

