-- ==== Sys2Proof/Machine/Dispatch.lean ====
section
/-! DEFINITION. The meaning of each instruction, one arm per constructor of Instr. The `delay` of a step has no effect
when the step is begun: it is read again from the step at `pc` when the frame has ended (41_script_steps.md R172). -/

namespace Sys2Proof.Machine

open Sys2Proof

def exec (i : Instr) (s : State) : Host.Outcome State Fault Refusal :=
  match i with
  | .endScript => Sys2Proof.Machine.execEnd s
  | .wrc addr len ptr _ => Sys2Proof.Machine.execWrc addr len ptr s
  | .wrd addr len _ => Sys2Proof.Machine.execWrd addr len s
  | .wrr addr len ptr _ => Sys2Proof.Machine.execWrr addr len ptr s
  | .rdr addr len _ => Sys2Proof.Machine.execRdr addr len s
  | .write addr => Sys2Proof.Machine.execWrite addr s
  | .read addr => Sys2Proof.Machine.execRead addr s
  | .ctrlCmd => Sys2Proof.Machine.execCtrlCmd s
  | .ctrlData => Sys2Proof.Machine.execCtrlData s
  | .go sel => Sys2Proof.Machine.execGo sel s
  | .reqWrite addr len => Sys2Proof.Machine.execReqWrite addr len s
  | .reqRead addr len => Sys2Proof.Machine.execReqRead addr len s

end Sys2Proof.Machine
end

