-- ==== Sys2Proof/Machine/Line.lean ====
section
/-! DEFINITION. The optional line level (40_frame_transceiver.md R150 to R155): the levels of the two bus lines per
quarter bit time, and MFT as a machine that moves one tick of `clk` at a time, with clock stretching (R153),
arbitration (R154), the timeout timer (R153, 60_exceptions.md R243) and the order of simultaneous errors (R239). The
events of a byte slot are recorded when its acknowledge bit has ended, so a slot that does not finish records none
(R137, R138). -/

namespace Sys2Proof.Machine

open Sys2Proof

/-! ### The lines -/

/-- The quarters of a bit of value `v` (R150): `(scl_o, sda_o)`. -/
def bitLevels (v : Bool) : Quarter → Bool × Bool
  | .first => (false, v)
  | .second => (true, v)
  | .third => (true, v)
  | .fourth => (false, v)

/-- The quarters of `S` (R150). -/
def startLevels : Quarter → Bool × Bool
  | .first => (true, true)
  | .second => (true, false)
  | .third => (true, false)
  | .fourth => (false, false)

/-- The quarters of `P` (R150). -/
def stopLevels : Quarter → Bool × Bool
  | .first => (false, false)
  | .second => (true, false)
  | .third => (true, true)
  | .fourth => (true, true)

/-- The bit of `shreg` being sent: bit 7 first (R66, R150). -/
def State.sendingBit (s : State) : Bool := s.shreg.getLsbD 7

/-- The output ports `(scl_o, sda_o)`: 1 = released (R20, R21, R150). Idle, both lines are released. -/
def State.lineLevels (s : State) : Bool × Bool :=
  match s.mftState with
  | .idle => (true, true)
  | .start => startLevels s.quarter
  | .addr => bitLevels s.sendingBit s.quarter
  | .tx => bitLevels s.sendingBit s.quarter
  | .aack => bitLevels true s.quarter
  | .tack => bitLevels true s.quarter
  | .rx => bitLevels true s.quarter
  | .rack => bitLevels s.lastByte s.quarter
  | .stop => stopLevels s.quarter

/-- `scl_i`: the wired-AND of what I2CX and the other devices do (R21). -/
def State.sclIn (s : State) : Bool := s.lineLevels.1 && s.ports.sclEnv

/-- `sda_i` (R21). -/
def State.sdaIn (s : State) : Bool := s.lineLevels.2 && s.ports.sdaEnv

/-! ### One tick -/

/-- A byte slot is open: the only place where the timeout strikes (R13, R153; log entry 8). -/
def State.slotOpen (s : State) : Bool :=
  match s.mftState with
  | .idle => false
  | .start => false
  | .stop => false
  | .addr => true
  | .aack => true
  | .tx => true
  | .tack => true
  | .rx => true
  | .rack => true

/-- The byte slot that is open: 0 for the address byte, `j + 1` for data byte `j` (R236). -/
def State.slotPos (s : State) : Count :=
  match s.mftState with
  | .addr => 0#9
  | .aack => 0#9
  | _ => s.byteIdx + 1#9

/-- `tmo_cnt` has reached a `TIMEOUT_TICKS` that is not 0 (R153). -/
def State.timedOut (s : State) : Bool :=
  decide (timeoutTicks s.params ≠ 0 ∧ timeoutTicks s.params ≤ s.tmoCnt.toNat)

/-- MFT has released the clock line and it has not risen (R153). -/
def State.stretched (s : State) : Bool :=
  decide (s.quarter = .second ∧ s.qTick = 0 ∧ s.mftState ≠ .start ∧ s.mftState ≠ .idle) && !s.sclIn

/-- The end of the second quarter: the master reads `sda_i` (R150, R152, R154). -/
def sampleBit (s : State) : State :=
  match s.mftState with
  | .addr =>
    if s.sendingBit && !s.sdaIn then abandon .arbitration s.slotPos s else { s with quarter := .third }
  | .tx =>
    if s.sendingBit && !s.sdaIn then abandon .arbitration s.slotPos s else { s with quarter := .third }
  | .aack =>
    if s.sdaIn then { s with mErrKind := .addressing, mErrPos := s.slotPos, quarter := .third }
    else { s with quarter := .third }
  | .tack =>
    if s.sdaIn then { s with mErrKind := .addressing, mErrPos := s.slotPos, quarter := .third }
    else { s with quarter := .third }
  | .rx => { s with shreg := (s.shreg <<< 1) ||| (if s.sdaIn then 1#8 else 0#8), quarter := .third }
  | .rack => { s with quarter := .third }
  | .start => { s with quarter := .third }
  | .stop => { s with quarter := .third }
  | .idle => s

/-- A data bit has been sent: the next bit, or the acknowledge bit `ackState` after the eighth. A 0 is shifted in behind
it, and `bit_cnt` is 0 during the acknowledge bit: DESIGN CHOICE, log entry 30. -/
def shiftOut (ackState : MftState) (s : State) : State :=
  { s with
    shreg := s.shreg <<< 1, bitCnt := s.bitCnt - 1#4
    mftState := if s.bitCnt = 1#4 then ackState else s.mftState }

/-- The next data byte of a write is taken from `txbuf` (R126, R28). -/
def loadByte (s : State) : Host.Outcome State Fault Refusal :=
  match Memory.read s.txbuf s.byteIdx.toNat with
  | none => .fault (.unwrittenTxByte s.byteIdx.toNat)
  | some b => .next { s with shreg := b, bitCnt := 8#4, mftState := .tx }

/-- A read data slot begins. The spec gives `shreg` no value there; 0 is the model's (DESIGN CHOICE, log entry 30), and
all of it is shifted out by the eight bits received. -/
def openReadSlot (s : State) : State := { s with shreg := 0#8, bitCnt := 8#4, mftState := .rx }

/-- The acknowledge bit of the address byte has ended (R125, R127). -/
def endAddressAck (s : State) : Host.Outcome State Fault Refusal :=
  match s.mErrKind with
  | .none =>
    match s.fRw with
    | .write => loadByte (emit [.TX s.frameAddrByte, .AI .ack] s)
    | .read => .next (openReadSlot (emit [.TX s.frameAddrByte, .AI .ack] s))
  | _ => .next { emit [.TX s.frameAddrByte, .AI .nack] s with mftState := .stop }

/-- The acknowledge bit of a written data byte has ended (R126, R129). -/
def endDataAck (s : State) : Host.Outcome State Fault Refusal :=
  match Memory.read s.txbuf s.byteIdx.toNat with
  | none => .fault (.unwrittenTxByte s.byteIdx.toNat)
  | some b =>
    match s.mErrKind with
    | .none =>
      if s.lastByte then .next (afterData (emit [.TX b, .AI .ack] s))
      else loadByte (afterData (emit [.TX b, .AI .ack] s))
    | _ => .next { emit [.TX b, .AI .nack] s with mftState := .stop }

/-- The acknowledge bit of a received byte has ended (R133). -/
def endReadAck (s : State) : State :=
  if s.lastByte then receiveByte s.shreg s else openReadSlot (receiveByte s.shreg s)

/-- The fourth quarter of a symbol has ended. -/
def symbolEnd (s : State) : Host.Outcome State Fault Refusal :=
  match s.mftState with
  | .idle => .next s
  | .start => .next { startFrame s with shreg := s.frameAddrByte, bitCnt := 8#4 }
  | .addr => .next (shiftOut .aack s)
  | .aack => endAddressAck s
  | .tx => .next (shiftOut .tack s)
  | .tack => endDataAck s
  | .rx => .next { s with bitCnt := s.bitCnt - 1#4, mftState := if s.bitCnt = 1#4 then .rack else .rx }
  | .rack => .next (endReadAck s)
  | .stop => stopFrame s

/-- A quarter has ended. -/
def quarterEnd (s : State) : Host.Outcome State Fault Refusal :=
  match s.quarter with
  | .first => .next { s with quarter := .second }
  | .second => .next (sampleBit s)
  | .third => .next { s with quarter := .fourth }
  | .fourth => symbolEnd { s with quarter := .first }

/-- One tick of MFT: the timeout comes before arbitration loss and NACK (R239), a stretched clock holds the quarter. The
timeout strikes in whatever part of the slot is in progress, so also in the quarters after a NACK has been sampled, and
the frame then ends with TimeoutError: DEDUCED from R153 and R138, log entry 28. -/
def countTick (s : State) : Host.Outcome State Fault Refusal :=
  if s.slotOpen && s.timedOut then .next (abandon .timeout s.slotPos s)
  else if s.stretched then .next s
  else if s.qTick + 1 < qbitTicks s.params then .next { s with qTick := s.qTick + 1 }
  else quarterEnd { s with qTick := 0 }

/-- `tmo_cnt` counts every tick of a frame operation (R153). -/
def mftTick (s : State) : Host.Outcome State Fault Refusal :=
  match s.mftState with
  | .idle => .next s
  | _ => countTick { s with tmoCnt := s.tmoCnt + 1#32 }

/-- One tick of the post-delay: `dly_cnt` decreases by 1, and at 0 the next step is fetched (R171). -/
def delayTick (s : State) : State :=
  if s.dlyCnt.toNat ≤ 1 then leaveDelay s else { s with dlyCnt := s.dlyCnt - 1#32 }

/-! ### Durations (R155, R202, R290: figures only, no rule depends on them) -/

/-- Bit times of a frame of `n` data bytes, without stretching (R155). -/
def frameBitTimes (n : Nat) : Nat := 9 * n + 11

/-- Microseconds of a frame of `n` data bytes at `SCL_HZ` (R155). -/
def frameMicros (n : Nat) : Nat := frameBitTimes n * (1000000 / Config.sclHz)

/-- Microseconds of a complete display run, a lower bound (R202). -/
def displayRunMicros : Nat :=
  Config.nInit * (frameMicros 2 + Config.settleMs * 1000) + 2 * frameMicros 3 + frameMicros (Config.nContent + 1)

/-- Microseconds of a complete loopback run, a lower bound (R290). -/
def loopbackRunMicros : Nat := 2 * frameMicros Config.loopLen

end Sys2Proof.Machine
end

