-- ==== Sys2Proof/Machine/Cycle.lean ====
section
/-! DEFINITION. What one step of the machine does: the ports are sampled (10_state.md R20), reset first (R270), then
the sequencer acts by its state (41_script_steps.md R160), reading the instruction word that stands where its state
says and running it. At symbol level a step is one symbol or byte slot of MFT (40_frame_transceiver.md R122) or one
state of SEQ; at line level it is one tick of `clk`. And where an instruction word is placed so that the next step
runs it. -/

namespace Sys2Proof.Machine

open Sys2Proof

/-! ### Where an instruction word stands -/

/-- The host's command at this edge: GO before REQ (R162). -/
def hostWord (p : Ports) : Option Encoded :=
  if p.go then some (.go (goWord p.goSel))
  else if p.reqValid then some (.req (reqWord p.reqRw p.reqAddr p.reqLen))
  else none

/-- `Q_IDLE`: a command is accepted, or nothing happens (R160 to R163, R271). -/
def idleStep (s : State) : Host.Outcome State Fault Refusal :=
  match hostWord s.ports with
  | none => .next s
  | some w =>
    match decode w with
    | .ok i => exec i s
    | .error _ => .next s

/-- `Q_FETCH`: the step word at `pc` is read, decoded and performed (R164). -/
def fetchStep (s : State) : Host.Outcome State Fault Refusal :=
  match decodeStep s.stepWordAt with
  | .ok i => exec i s
  | .error _ => .refused (.reservedKind (stepKind s.stepWordAt))

/-- `M_TX`: the byte `txbuf[byte_idx]` is sent (R126); as the first data byte, 0x00 and 0x40 are the control bytes of
R94, which MFT sends as it sends any byte (R106; log entry 4). -/
def dataStep (s : State) : Host.Outcome State Fault Refusal :=
  match Memory.read s.txbuf s.byteIdx.toNat with
  | none => .fault (.unwrittenTxByte s.byteIdx.toNat)
  | some b =>
    if s.byteIdx = 0#9 then
      match decodeCtrl b with
      | .ok i => exec i s
      | .error _ => .next (txSlot b s)
    else .next (txSlot b s)

/-- One symbol-level step of MFT (R122). -/
def mftStep (s : State) : Host.Outcome State Fault Refusal :=
  match s.mftState with
  | .idle => .next s
  | .start => .next (startFrame s)
  | .addr => exec (decodeAddr s.frameAddrByte) s
  | .aack => exec (decodeAddr s.frameAddrByte) s
  | .tx => dataStep s
  | .tack => dataStep s
  | .rx => .next (rxSlot s)
  | .rack => .next (rxSlot s)
  | .stop => stopFrame s

/-! ### One step -/

/-- The symbol level (R122, R160, R171). -/
def symbolStep (s : State) : Host.Outcome State Fault Refusal :=
  match s.seqState with
  | .idle => idleStep s
  | .fetch => fetchStep s
  | .xfer => mftStep s
  | .direct => mftStep s
  | .delay => .next (leaveDelay s)

/-- The line level (R150 to R154, R160, R171). `Q_FETCH`, with the building of the frame in `txbuf`, takes one tick:
DESIGN CHOICE, log entry 31. -/
def lineStep (s : State) : Host.Outcome State Fault Refusal :=
  match s.seqState with
  | .idle => idleStep s
  | .fetch => fetchStep s
  | .xfer => mftTick s
  | .direct => mftTick s
  | .delay => .next (delayTick s)

/-- SEQ and MFT, at the level of the run (R11). -/
def blockStep (s : State) : Host.Outcome State Fault Refusal :=
  match s.level with
  | .symbol => symbolStep s
  | .line => if lineParamsOk s.params then lineStep s else .refused .badParams

/-- The host uses `rx_data` where `rxbuf` holds no value (R28). -/
def State.badHostRead (s : State) : Bool := s.ports.rxRead && s.rxData.isNone

/-- A step without reset: host read, host write, then the block. -/
def runStep (s : State) : Host.Outcome State Fault Refusal :=
  if s.badHostRead then .fault (.unwrittenRxByte s.ports.rxIdx.toNat) else blockStep (hostWrite s)

/-- One step: reset has priority (R270), and the host's next levels follow. -/
def cycle (s : State) : Host.Outcome State Fault Refusal :=
  mapNext advancePorts (if s.ports.rst then .next (resetEdge s) else runStep s)

/-! ### Placing an instruction word -/

/-- No reset, no command, no host access at the coming edge; the symbol level. -/
def quietEdge (s : State) : State :=
  { s with
    ports := { s.ports with rst := false, go := false, reqValid := false, txWe := false, rxRead := false }
    level := .symbol }

/-- A step word at `SCRIPT_ROM[pc]`, about to be fetched. -/
def placeStep (w : StepWord) (s : State) : State :=
  { quietEdge s with
    scriptRom := s.scriptRom.set s.pc.toNat w (by have := s.pc.isLt; omega)
    seqState := .fetch, mftState := .idle }

/-- An address byte, about to be sent after the start condition of a frame of one data byte. -/
def placeAddr (b : Byte) (s : State) : State :=
  { quietEdge s with
    seqState := .direct, mftState := .addr, fAddr := b.extractLsb' 1 7, fRw := dirOfBit (b.extractLsb' 0 1)
    fLen := 1#9, byteIdx := 0#9, mErrKind := .none, mErrPos := 0#9, trace := s.trace ++ [.S] }

/-- A control byte, about to be sent after the acknowledged address byte of a display frame of two data bytes. -/
def placeCtrl (b : Byte) (s : State) : State :=
  { quietEdge s with
    seqState := .direct, mftState := .tx, fAddr := Config.displayAddr, fRw := .write
    fLen := 2#9, byteIdx := 0#9, mErrKind := .none, mErrPos := 0#9, txbuf := Memory.write s.txbuf 0 b
    trace := s.trace ++ [.S, .TX (addrByte Config.displayAddr .write), .AI .ack] }

/-- A GO vector on the ports of an idle block. -/
def placeGo (w : BitVec 2) (s : State) : State :=
  { quietEdge s with
    seqState := .idle, mftState := .idle
    ports := { (quietEdge s).ports with go := decide (w.extractLsb' 1 1 = 1#1), goSel := scriptOfBit (w.extractLsb' 0 1) } }

/-- A REQ vector on the ports of an idle block. -/
def placeReq (w : BitVec 17) (s : State) : State :=
  { quietEdge s with
    seqState := .idle, mftState := .idle
    ports :=
      { (quietEdge s).ports with
        reqValid := true, reqRw := dirOfBit (w.extractLsb' 16 1), reqAddr := w.extractLsb' 9 7
        reqLen := w.extractLsb' 0 9 } }

/-- The word where the next step reads it, by its format (log entry 5). -/
def placeWord (w : Encoded) (s : State) : State :=
  match w with
  | .step w => placeStep w s
  | .addr b => placeAddr b s
  | .ctrl b => placeCtrl b s
  | .go w => placeGo w s
  | .req w => placeReq w s

/-- A table word placed so; a word of no format changes nothing. -/
def placeTableWord (nbits w : Nat) (s : State) : State :=
  match tableFormat nbits w with
  | some e => placeWord e s
  | none => s

end Sys2Proof.Machine
end

