-- ==== Sys2Proof/Safety.lean ====
section
/-! DEFINITION. What claims are stated in terms of: what is observed of a run (00_scope.md R11, R12), the named
premises about the environment (R14, 43_loopback_script.md R216), the grammar of the bus trace (30_encoding.md R92,
R93; 20_memory.md R68, R71, R72), the invariant of the machine, and the traces of whole frames and scripts. -/

namespace Sys2Proof.Machine

open Sys2Proof

/-! ### Observation (R11, R12) -/

/-- The behaviour of I2CX at symbol level: the bus trace, the status registers and `rxbuf` (R11). -/
structure Observation where
  trace : List Event
  rxbuf : Memory
  busy : Bool
  done : Bool
  failed : Bool
  errKind : ErrKind
  errPos : Count
  failStep : StepIdx
deriving DecidableEq, Repr

def State.observe (s : State) : Observation where
  trace := s.trace
  rxbuf := s.rxbuf
  busy := s.busy
  done := s.done
  failed := s.failed
  errKind := s.errKind
  errPos := s.errPos
  failStep := s.failStep

/-! ### Runs -/

/-- `n` steps, stopping at the first fault or refusal. -/
def run : Nat → State → Host.Outcome State Fault Refusal
  | 0, s => .next s
  | n + 1, s =>
    match step s with
    | .next t => run n t
    | .fault r => .fault r
    | .refused r => .refused r

/-- The block acts at the coming edge: no reset, and no use of an `rx_data` that has no value. -/
def State.calm (s : State) : Prop := s.ports.rst = false ∧ s.badHostRead = false

/-- At line level the open parameters are inside their constraints (R6, R103). -/
def State.paramsOk (s : State) : Prop := s.level = .line → lineParamsOk s.params = true

/-- The host neither resets the block nor uses `rx_data`, at this edge and at every later one. It may do anything
else. -/
def State.undisturbed (s : State) : Prop :=
  s.ports.rst = false ∧ s.ports.rxRead = false ∧ ∀ p ∈ s.schedule, p.rst = false ∧ p.rxRead = false

/-- Nothing is on the input ports, at this edge and at every later one. -/
def State.leftAlone (s : State) : Prop :=
  ∀ p ∈ s.ports :: s.schedule,
    p.rst = false ∧ p.go = false ∧ p.reqValid = false ∧ p.txWe = false ∧ p.rxRead = false

/-- `P` holds of the first `n` states of the run from `s`. -/
def Along (n : Nat) (P : State → Prop) (s : State) : Prop := ∀ k t, k < n → run k s = .next t → P t

/-! ### The premises about the environment (R14)

Each says something about the answers ENV gives to the questions of a run: it is a predicate on a state, about the one
question that is put there, and a claim assumes it along a run. -/

/-- The byte MFT drives in the slot that is next, if it drives one. -/
def State.driven (s : State) : Option Byte :=
  match s.mftState with
  | .addr => some s.frameAddrByte
  | .tx => Memory.read s.txbuf s.byteIdx.toNat
  | _ => none

/-- The answer of `env_w` in the slot that is next. -/
def State.writeAnswer (s : State) : Option WriteAnswer := s.driven.map fun b => (s.env.askWrite s.trace b).1

/-- The answer of `env_r` in the slot that is next. -/
def State.readAnswer (s : State) : Option ReadAnswer :=
  match s.mftState with
  | .rx => some (s.env.askRead s.trace).1
  | _ => none

/-- `SingleMaster`: ENV never answers `ArbLost`. -/
def State.SingleMaster (s : State) : Prop := s.writeAnswer ≠ some .arbLost

/-- `NoStall`: ENV never answers `Stall`. -/
def State.NoStall (s : State) : Prop := s.writeAnswer ≠ some .stall ∧ s.readAnswer ≠ some .stall

/-- `Present(a)`: `Ack` to the address byte of every frame addressed to `a` and to every data byte of a write frame
addressed to `a`. -/
def State.Present (a : BusAddr) (s : State) : Prop :=
  s.fAddr = a → ∀ x, s.writeAnswer = some x → x = .ack

/-- `Absent(a)`: `Nack` to the address byte of every frame addressed to `a`. -/
def State.Absent (a : BusAddr) (s : State) : Prop :=
  s.fAddr = a → s.mftState = .addr → s.writeAnswer = some .nack

/-- `Echo(a, P)`: `Present(a)`, and in a read frame addressed to `a` the `j`-th answer is `Byte(P[j])` (R216). -/
def State.Echo (a : BusAddr) (p : List Byte) (s : State) : Prop :=
  s.Present a ∧ (s.fAddr = a → ∀ b x, p[s.byteIdx.toNat]? = some b → s.readAnswer = some x → x = .byte b)

/-- ENV answers `Stall` to every question (U7). -/
def State.Stalls (s : State) : Prop :=
  (∀ x, s.writeAnswer = some x → x = .stall) ∧ ∀ x, s.readAnswer = some x → x = .stall

/-! ### Expected results, written out -/

/-- The word of the address byte of a frame (R91). -/
def addressInstr (a : BusAddr) : Dir → Instr
  | .write => .write a
  | .read => .read a

/-- The state after a run has ended with the error `(k, pos)` and the last events `es` (R235 to R237). -/
def runFailed (k : ErrKind) (pos : Count) (es : List Event) (s : State) : State :=
  { s with
    trace := s.trace ++ es
    failed := true, errKind := k, errPos := pos
    failStep := if s.seqState = .direct then 0#5 else s.pc - scriptBase s.params s.sel
    mftState := .idle, seqState := .idle }

/-- The state after a slot in which the byte `b` was driven, the slot having position `pos`, by ENV's answer: `acked`
is what an ACK changes beside the trace (R125 to R129, R136 to R138). -/
def slotResult (b : Byte) (pos : Count) (x : WriteAnswer) (acked : State → State) (s : State) : State :=
  match x with
  | .ack => acked { s with trace := s.trace ++ [.TX b, .AI .ack] }
  | .nack =>
    { s with trace := s.trace ++ [.TX b, .AI .nack], mErrKind := .addressing, mErrPos := pos, mftState := .stop }
  | .arbLost => runFailed .arbitration pos [.X] s
  | .stall => if s.params.timeoutMs = 0 then s else runFailed .timeout pos [.X] s

/-- The state after an acknowledged data byte: `byte_idx <- byte_idx + 1`, and `M_STOP` after the last (R126). -/
def dataAcked (s : State) : State :=
  { s with byteIdx := s.byteIdx + 1#9, mftState := if s.byteIdx.toNat + 1 = s.fLen.toNat then .stop else .tx }

/-- MFT has accepted a frame operation (R121). -/
def frameAccepted (a : BusAddr) (rw : Dir) (n : Count) (s : State) : State :=
  { s with
    fAddr := a, fRw := rw, fLen := n, byteIdx := 0#9, mErrKind := .none, mErrPos := 0#9, tmoCnt := 0#32
    mftState := .start, quarter := .first, qTick := 0 }

/-- The frame operation of a step as one action (R167 to R170). -/
def stepOperation (patience : Nat) (i : Instr) (s : State) : Option (Option FrameResult × State) :=
  match i with
  | .wrc a len ptr _ => some (busWrite patience a (commandFrame s.byteRom ptr len) s)
  | .wrd a len _ => some (busWrite patience a (patternFrame len) s)
  | .wrr a len ptr _ => some (busWrite patience a (rawFrame s.byteRom ptr len) s)
  | .rdr a len _ => some (busRead patience a len.toNat s)
  | _ => none

/-- Every byte of both buffers reads as before. -/
def State.sameBuffers (s t : State) : Prop :=
  (∀ j, Memory.read t.txbuf j = Memory.read s.txbuf j) ∧ ∀ j, Memory.read t.rxbuf j = Memory.read s.rxbuf j

/-- What no instruction changes: the tables, the parameters, the level, the host's side (R31, R76). -/
def State.sameSurroundings (s t : State) : Prop :=
  t.scriptRom = s.scriptRom ∧ t.byteRom = s.byteRom ∧ t.params = s.params ∧ t.level = s.level ∧
    t.ports = s.ports ∧ t.schedule = s.schedule

/-! ### Ticks of the line level -/

/-- The coming edge is a tick of a frame operation at line level, with nothing in its way. -/
def State.ticking (s : State) : Prop :=
  s.calm ∧ s.level = .line ∧ lineParamsOk s.params = true ∧ (s.seqState = .xfer ∨ s.seqState = .direct) ∧
    s.mftState ≠ .idle

/-- The timer does not strike in the coming tick (R153; log entry 8). -/
def State.inTime (s : State) : Prop :=
  s.slotOpen = false ∨ timeoutTicks s.params = 0 ∨ (s.tmoCnt + 1#32).toNat < timeoutTicks s.params

/-- The coming tick is not spent waiting for the clock line: it is not the first of a quarter that has released the
line, or the line is high (R153; log entry 8). -/
def State.clockUp (s : State) : Prop :=
  s.quarter = .second → s.qTick = 0 → s.mftState = .start ∨ s.sclIn = true

/-- The last tick of a quarter: the tick is counted and the quarter `q` begins (R150). -/
def nextQuarter (q : Quarter) (s : State) : State := { s with tmoCnt := s.tmoCnt + 1#32, qTick := 0, quarter := q }

/-! ### The traces of whole frames -/

/-- Every byte driven and acknowledged. -/
def ackedBytes : List Byte → List Event
  | [] => []
  | b :: bs => .TX b :: .AI .ack :: ackedBytes bs

/-- Format WFRAME: a complete write frame (R92). -/
def writeFrame (a : BusAddr) (bs : List Byte) : List Event := .S :: (ackedBytes (addrByte a .write :: bs) ++ [.P])

/-- Every byte received; the master acknowledges all but the last (R135). -/
def receivedBytes : List Byte → List Event
  | [] => []
  | [b] => [.RX b, .AO .nack]
  | b :: c :: bs => .RX b :: .AO .ack :: receivedBytes (c :: bs)

/-- Format RFRAME: a complete read frame (R93). -/
def readFrame (a : BusAddr) (bs : List Byte) : List Event :=
  .S :: .TX (addrByte a .read) :: .AI .ack :: (receivedBytes bs ++ [.P])

/-- The trace of a complete display run (R198). -/
def displayTrace (initRom : Fin 25 → Byte) : List Event :=
  (List.finRange 25).flatMap (fun k => writeFrame Config.displayAddr [Config.ctrlCmdByte, initRom k] ++ [.DLY Config.settleMs])
    ++ writeFrame Config.displayAddr (Config.ctrlCmdByte :: Config.winCol)
    ++ writeFrame Config.displayAddr (Config.ctrlCmdByte :: Config.winPage)
    ++ writeFrame Config.displayAddr (patternFrame (BitVec.ofNat 9 Config.nContent))

/-- The data bytes of the 28 frames of a complete display run, control bytes included (R198, R219). -/
def displayFrames (initRom : Fin 25 → Byte) : List (List Byte) :=
  (List.finRange 25).map (fun k => [Config.ctrlCmdByte, initRom k])
    ++ [Config.ctrlCmdByte :: Config.winCol, Config.ctrlCmdByte :: Config.winPage]
    ++ [patternFrame (BitVec.ofNat 9 Config.nContent)]

/-- The trace of a complete loopback run (R211). -/
def loopbackTrace : List Event :=
  writeFrame Config.loopAddr Config.loopPayload ++ readFrame Config.loopAddr Config.loopPayload

/-! ### The grammar of the bus trace (R68, R71, R72, R123, R139) -/

/-- Where a bus trace stands: between frames, after `S`, after the address byte, in the data bytes of a write (before
or after the first), in those of a read, or with only the stop condition left. -/
inductive BusPhase where
  | closed
  | started
  | addressed (rw : Dir)
  | writing (any : Bool)
  | sent
  | reading
  | received
  | ending
deriving DecidableEq, Repr

/-- The direction an address byte announces. -/
def addressedDir (b : Byte) : Dir := dirOfBit (b.extractLsb' 0 1)

/-- The events that may follow, and where they lead. A frame begins only between frames, so no start is repeated; a
stop condition comes after at least one data byte or after a NACK. -/
def BusPhase.next : BusPhase → Event → Option BusPhase
  | .closed, .S => some .started
  | .closed, .DLY _ => some .closed
  | .started, .TX b => some (.addressed (addressedDir b))
  | .started, .X => some .closed
  | .addressed .write, .AI .ack => some (.writing false)
  | .addressed .read, .AI .ack => some .reading
  | .addressed _, .AI .nack => some .ending
  | .writing _, .TX _ => some .sent
  | .writing _, .X => some .closed
  | .writing true, .P => some .closed
  | .sent, .AI .ack => some (.writing true)
  | .sent, .AI .nack => some .ending
  | .reading, .RX _ => some .received
  | .reading, .X => some .closed
  | .received, .AO .ack => some .reading
  | .received, .AO .nack => some .ending
  | .ending, .P => some .closed
  | .ending, .X => some .closed
  | _, _ => none

/-- Reading a trace from a phase on. -/
def BusPhase.run : Option BusPhase → List Event → Option BusPhase
  | p, [] => p
  | none, _ :: _ => none
  | some p, e :: es => BusPhase.run (p.next e) es

/-- Where the whole bus trace stands, if it is one I2CX may produce. -/
def tracePhase (tr : List Event) : Option BusPhase := BusPhase.run (some .closed) tr

/-- The phase the trace has when MFT is about to make the next symbol. After the last acknowledged byte of a write the
trace does not show that only the stop condition is left. -/
def State.phaseOk (s : State) (p : BusPhase) : Prop :=
  match s.mftState with
  | .idle => p = .closed
  | .start => p = .closed
  | .addr => p = .started
  | .aack => p = .started
  | .tx => p = .writing (decide (s.byteIdx ≠ 0#9))
  | .tack => p = .writing (decide (s.byteIdx ≠ 0#9))
  | .rx => p = .reading
  | .rack => p = .reading
  | .stop => p = .ending ∨ p = .writing true

/-! ### The invariant -/

/-- The status registers (R24). -/
structure State.StatusInv (s : State) : Prop where
  notBoth : ¬(s.done = true ∧ s.failed = true)
  busyClear : s.busy = true → s.done = false ∧ s.failed = false
  noError : s.failed = false → s.errKind = .none ∧ s.errPos = 0#9 ∧ s.failStep = 0#5
  anError : s.failed = true → s.errKind ≠ .none
  posRange : s.errPos.toNat ≤ 256

/-- Sequencer and transceiver (R33, R160, R25, R122): a frame operation runs exactly while SEQ waits for one, its
length is legal, the data byte in hand is within it, and an error is pending only between the NACK and the stop. -/
structure State.FrameInv (s : State) : Prop where
  running : s.mftState ≠ .idle ↔ s.seqState = .xfer ∨ s.seqState = .direct
  lenRange : s.mftState ≠ .idle → 1 ≤ s.fLen.toNat ∧ s.fLen.toNat ≤ 256
  idxZero : s.mftState = .start ∨ s.mftState = .addr ∨ s.mftState = .aack → s.byteIdx = 0#9
  idxInside : s.mftState = .tx ∨ s.mftState = .tack ∨ s.mftState = .rx ∨ s.mftState = .rack →
    s.byteIdx.toNat < s.fLen.toNat
  idxRange : s.mftState ≠ .idle → s.byteIdx.toNat ≤ s.fLen.toNat
  pending : s.mftState ≠ .idle → s.mErrKind = .none ∨ s.mErrKind = .addressing
  pendingPos : s.mErrPos.toNat ≤ 256
  noPending : s.mftState = .start ∨ s.mftState = .addr ∨ s.mftState = .tx ∨ s.mftState = .rx ∨ s.mftState = .rack →
    s.mErrKind = .none
  writing : s.mftState = .tx ∨ s.mftState = .tack → s.fRw = .write
  reading : s.mftState = .rx ∨ s.mftState = .rack → s.fRw = .read
  symbolOnly : s.level = .symbol → s.mftState ≠ .aack ∧ s.mftState ≠ .tack ∧ s.mftState ≠ .rack

/-- The step counter is not below the base of the running script (R103). -/
def State.PcInv (s : State) : Prop :=
  s.seqState = .fetch ∨ s.seqState = .xfer ∨ s.seqState = .delay → (scriptBase s.params s.sel).toNat ≤ s.pc.toNat

/-- The invariant that every step keeps. -/
structure State.Inv (s : State) : Prop where
  txbuf : Memory.wf s.txbuf
  rxbuf : Memory.wf s.rxbuf
  status : s.StatusInv
  frame : s.FrameInv
  pc : s.PcInv
  trace : ∃ p, tracePhase s.trace = some p ∧ s.phaseOk p

end Sys2Proof.Machine
end

