-- ==== Sys2Proof/Certificates/Slice0/Obligations.lean ====
section
/-! DEFINITION. The statements for the provers. Each docstring names the rules of spec/ it formalises; where a clause is
a choice of the model, it says so and names the log entry. -/

open Sys2Proof Sys2Proof.Machine

/-! ### Encoding -/

/-- Decoding the encoding of an instruction gives it back, whatever its operands (R91, R94, R96, R97, R99, R161). -/
def Obligations.DecodeInvertsEncode : Prop := ∀ i : Instr, decode (encode i) = .ok i

/-- Encoding what a word decodes to gives the word back, in every format, for a step word whose unused fields are 0
(R91, R94, R96, R98, R99, R161). -/
def Obligations.EncodeInvertsDecode : Prop :=
  (∀ w i, decodeStep w = .ok i →
    ((stepKind w).toNat = 0 → w = 0#32) →
    ((stepKind w).toNat = 2 ∨ (stepKind w).toNat = 4 → stepPtr w = 0#8) → encode i = .step w) ∧
  (∀ b, encode (decodeAddr b) = .addr b) ∧
  (∀ b i, decodeCtrl b = .ok i → encode i = .ctrl b) ∧
  (∀ w i, decodeGo w = .ok i → encode i = .go w) ∧
  (∀ w, encode (decodeReq w) = .req w)

/-- R96: where the fields of a step word stand, and that they make it up. -/
def Obligations.StepWordLayout : Prop :=
  (∀ w : StepWord,
    stepKind w = w.extractLsb' 28 4 ∧ stepAddr w = w.extractLsb' 21 7 ∧ stepLen w = w.extractLsb' 12 9 ∧
      stepPtr w = w.extractLsb' 4 8 ∧ stepDelay w = w.extractLsb' 0 4 ∧ (stepDelay w).toNat ≤ 15 ∧
      w.toNat =
        (stepKind w).toNat * 0x10000000 + (stepAddr w).toNat * 0x200000 + (stepLen w).toNat * 0x1000
          + (stepPtr w).toNat * 0x10 + (stepDelay w).toNat) ∧
  ∀ k a l p d,
    (stepWord k a l p d).toNat =
      k.toNat * 0x10000000 + a.toNat * 0x200000 + l.toNat * 0x1000 + p.toNat * 0x10 + d.toNat

/-- R91: the address byte, with the four that the scripts' addresses give (the layout is general knowledge, G1). -/
def Obligations.AddressByteLayout : Prop :=
  (∀ a rw,
    (addrByte a rw).toNat = 2 * a.toNat + rw.bit.toNat ∧ (addrByte a rw).extractLsb' 1 7 = a ∧
      (addrByte a rw).extractLsb' 0 1 = rw.bit) ∧
  Dir.bit .write = 0#1 ∧ Dir.bit .read = 1#1 ∧
  addrByte 0x3C#7 .write = 0x78#8 ∧ addrByte 0x3C#7 .read = 0x79#8 ∧
  addrByte 0x22#7 .write = 0x44#8 ∧ addrByte 0x22#7 .read = 0x45#8

/-- R101: the pattern function, the data bytes of a pattern frame, and the 128 content bytes of the data frame. -/
def Obligations.PatternOfTheDataFrame : Prop :=
  (∀ i, i % 2 = 0 → pat i = 0b10101010#8) ∧ (∀ i, i % 2 = 1 → pat i = 0b01010101#8) ∧
  (∀ len : Count, (patternFrame len)[0]? = some 0x40#8) ∧
  (∀ (len : Count) (j : Nat), 1 ≤ j → j ≤ len.toNat → (patternFrame len)[j]? = some (pat j)) ∧
  ((patternFrame 128#9).drop 1).count 0x55#8 = 64 ∧ ((patternFrame 128#9).drop 1).count 0xAA#8 = 64

/-- R98: the fields each kind uses and the bounds on them; the frame length `f_len` of each kind, which is 1 to 256, and
that END has no frame; the fields a kind does not use are ignored; every step of the reset table is inside the bounds,
with its unused fields 0. -/
def Obligations.StepFieldBounds : Prop :=
  (∀ a len ptr d, (Instr.wrc a len ptr d).wf = true ↔
    1 ≤ len.toNat ∧ len.toNat ≤ 255 ∧ ptr.toNat + len.toNat - 1 ≤ 36) ∧
  (∀ a len d, (Instr.wrd a len d).wf = true ↔ 1 ≤ len.toNat ∧ len.toNat ≤ 255) ∧
  (∀ a len ptr d, (Instr.wrr a len ptr d).wf = true ↔
    1 ≤ len.toNat ∧ len.toNat ≤ 256 ∧ ptr.toNat + len.toNat - 1 ≤ 36) ∧
  (∀ a len d, (Instr.rdr a len d).wf = true ↔ 1 ≤ len.toNat ∧ len.toNat ≤ 256) ∧
  (∀ rom a len ptr d, (Instr.wrc a len ptr d).wf = true → (commandFrame rom ptr len).length = len.toNat + 1) ∧
  (∀ len : Count, (patternFrame len).length = len.toNat + 1) ∧
  (∀ rom a len ptr d, (Instr.wrr a len ptr d).wf = true → (rawFrame rom ptr len).length = len.toNat) ∧
  (∀ a len ptr d s, (Instr.wrc a len ptr d).wf = true →
    ∃ t, exec (.wrc a len ptr d) s = .next t ∧ t.fLen.toNat = len.toNat + 1 ∧ t.fLen.toNat ≤ 256) ∧
  (∀ a len d s, (Instr.wrd a len d).wf = true →
    ∃ t, exec (.wrd a len d) s = .next t ∧ t.fLen.toNat = len.toNat + 1 ∧ t.fLen.toNat ≤ 256) ∧
  (∀ a len ptr d s, (Instr.wrr a len ptr d).wf = true →
    ∃ t, exec (.wrr a len ptr d) s = .next t ∧ t.fLen = len ∧ 1 ≤ t.fLen.toNat ∧ t.fLen.toNat ≤ 256) ∧
  (∀ a len d s, (Instr.rdr a len d).wf = true →
    ∃ t, exec (.rdr a len d) s = .next t ∧ t.fLen = len ∧ 1 ≤ t.fLen.toNat ∧ t.fLen.toNat ≤ 256) ∧
  (∀ s, ∃ t, exec .endScript s = .next t ∧ t.mftState = s.mftState ∧ t.fLen = s.fLen ∧ t.trace = s.trace) ∧
  (∀ w, (stepKind w).toNat = 0 → decodeStep w = .ok .endScript) ∧
  (∀ w, (stepKind w).toNat = 1 → decodeStep w = .ok (.wrc (stepAddr w) (stepLen w) (stepPtr w) (stepDelay w))) ∧
  (∀ w, (stepKind w).toNat = 2 → decodeStep w = .ok (.wrd (stepAddr w) (stepLen w) (stepDelay w))) ∧
  (∀ w, (stepKind w).toNat = 3 → decodeStep w = .ok (.wrr (stepAddr w) (stepLen w) (stepPtr w) (stepDelay w))) ∧
  (∀ w, (stepKind w).toNat = 4 → decodeStep w = .ok (.rdr (stepAddr w) (stepLen w) (stepDelay w))) ∧
  (∀ w v : StepWord, (stepKind w).toNat = 0 → stepKind v = stepKind w → decodeStep v = decodeStep w) ∧
  (∀ w v : StepWord, (stepKind w).toNat = 2 ∨ (stepKind w).toNat = 4 → stepKind v = stepKind w →
    stepAddr v = stepAddr w → stepLen v = stepLen w → stepDelay v = stepDelay w → decodeStep v = decodeStep w) ∧
  ∀ w ∈ State.reset.scriptRom.toList, ∃ i, decodeStep w = .ok i ∧ i.wf = true ∧ encode i = .step w

/-- The instruction words of the spec's worked examples and tables (95_test_vectors.md V1 and V2) decode to the
instructions they stand for. -/
def Obligations.SpecWordsDecode : Prop :=
  decodeStep 0x00000000#32 = .ok .endScript ∧
  decodeStep 0x1780118A#32 = .ok (.wrc 0x3C#7 1#9 24#8 10#4) ∧
  decodeStep 0x17802190#32 = .ok (.wrc 0x3C#7 2#9 25#8 0#4) ∧
  decodeStep 0x27880000#32 = .ok (.wrd 0x3C#7 128#9 0#4) ∧
  decodeStep 0x344081D0#32 = .ok (.wrr 0x22#7 8#9 29#8 0#4) ∧
  decodeStep 0x44408000#32 = .ok (.rdr 0x22#7 8#9 0#4) ∧
  decodeAddr 0x78#8 = .write 0x3C#7 ∧ decodeAddr 0x45#8 = .read 0x22#7 ∧
  decodeCtrl 0x00#8 = .ok .ctrlCmd ∧ decodeCtrl 0x40#8 = .ok .ctrlData ∧
  decodeGo 0b11#2 = .ok (.go .loopback) ∧ decodeGo 0b10#2 = .ok (.go .display) ∧
  decodeReq 0b00111100000000010#17 = .reqWrite 0x3C#7 2#9 ∧
  decodeReq 0b10100010000001000#17 = .reqRead 0x22#7 8#9

/-! ### The tables -/

/-- R40 and R41: the contents of the two tables row by row, with the data bytes of each frame; where the scripts begin;
and that no step writes a table. -/
def Obligations.TableContents : Prop :=
  (∀ k : Fin 25,
    decodeStep State.reset.scriptRom[k.val] = .ok (.wrc 0x3C#7 1#9 (BitVec.ofNat 8 k.val) 10#4) ∧
      commandFrame State.reset.byteRom (BitVec.ofNat 8 k.val) 1#9 = [0x00#8, Config.initRom k] ∧
      State.reset.byteRom[k.val] = Config.initRom k) ∧
  State.reset.byteRom.toList.drop 25 =
    [0x00#8, 0x7F#8, 0x00#8, 0x07#8, 0x01#8, 0x23#8, 0x45#8, 0x67#8, 0x89#8, 0xAB#8, 0xCD#8, 0xEF#8] ∧
  decodeStep State.reset.scriptRom[25] = .ok (.wrc 0x3C#7 2#9 25#8 0#4) ∧
  commandFrame State.reset.byteRom 25#8 2#9 = [0x00#8, 0x00#8, 0x7F#8] ∧
  decodeStep State.reset.scriptRom[26] = .ok (.wrc 0x3C#7 2#9 27#8 0#4) ∧
  commandFrame State.reset.byteRom 27#8 2#9 = [0x00#8, 0x00#8, 0x07#8] ∧
  decodeStep State.reset.scriptRom[27] = .ok (.wrd 0x3C#7 128#9 0#4) ∧
  patternFrame 128#9 = 0x40#8 :: (List.replicate 64 [0x55#8, 0xAA#8]).flatten ∧
  decodeStep State.reset.scriptRom[28] = .ok .endScript ∧
  decodeStep State.reset.scriptRom[29] = .ok (.wrr 0x22#7 8#9 29#8 0#4) ∧
  rawFrame State.reset.byteRom 29#8 8#9 = [0x01#8, 0x23#8, 0x45#8, 0x67#8, 0x89#8, 0xAB#8, 0xCD#8, 0xEF#8] ∧
  decodeStep State.reset.scriptRom[30] = .ok (.rdr 0x22#7 8#9 0#4) ∧
  decodeStep State.reset.scriptRom[31] = .ok .endScript ∧
  scriptBase State.reset.params .display = 0#5 ∧ scriptBase State.reset.params .loopback = 29#5 ∧
  (∀ s : State, s.localStep = s.pc - scriptBase s.params s.sel) ∧
  (∀ (k : Fin 32) a len ptr d,
    decodeStep State.reset.scriptRom[k.val] = .ok (.wrc a len ptr d) ∨
      decodeStep State.reset.scriptRom[k.val] = .ok (.wrr a len ptr d) → ptr.toNat + len.toNat - 1 ≤ 36) ∧
  ∀ s t, step s = .next t → t.scriptRom = s.scriptRom ∧ t.byteRom = s.byteRom

/-- What no step changes: the tables and the open parameters (R31, R76), reset included, and the level of the run. That
the first stand in State is the model's choice, log entry 12; the level is a field of the model's own, log entry 11. -/
def Obligations.ParametersNeverWritten : Prop :=
  ∀ s t, step s = .next t →
    t.scriptRom = s.scriptRom ∧ t.byteRom = s.byteRom ∧ t.params = s.params ∧ t.level = s.level

/-- A table the spec tells a model to refuse is refused: a step outside the bounds of R98, a reserved kind, a GO on a
table that holds either or has no END, and a step at index 31 that succeeds (R104; U3). Where each is refused is the
model's reading, log entry 16 (DEDUCED). -/
def Obligations.MalformedScriptsRefused : Prop :=
  (∀ i s, i.wf = false → exec i s = .refused .malformedStep) ∧
  (∀ s, s.calm → s.paramsOk → s.seqState = .fetch → 5 ≤ (stepKind s.stepWordAt).toNat →
    step s = .refused (.reservedKind (stepKind s.stepWordAt))) ∧
  (∀ s sel, s.busy = false → s.tableOk = false → exec (.go sel) s = .refused .malformedTable) ∧
  ∀ s, s.calm → s.level = .symbol → s.seqState = .xfer → s.mftState = .stop → s.mErrKind = .none → s.pc = 31#5 →
    step s = .refused .scriptOverrun

/-! ### A step runs the decoded instruction -/

/-- In `Q_FETCH` a step is `exec` of the instruction that the word at `pc` decodes to (R164); around it the host's next
levels follow (log entry 6). R165 makes this one step at symbol level; that it is one tick at line level is the model's
choice, log entry 31. -/
def Obligations.StepRunsFetchedStep : Prop :=
  ∀ s i, s.calm → s.paramsOk → s.seqState = .fetch → decodeStep s.stepWordAt = .ok i →
    step s = mapNext advancePorts (exec i s)

/-- In `Q_IDLE` a step first does the host's write to `txbuf` and then is `exec` of the host's command, GO before REQ;
with no command it changes nothing more (R26, R160 to R163; that the write of an edge comes before its command is
DEDUCED, log entry 6). -/
def Obligations.StepRunsHostCommand : Prop :=
  ∀ s, s.calm → s.paramsOk → s.seqState = .idle →
    (s.ports.go = true → step s = mapNext advancePorts (exec (.go s.ports.goSel) (hostWrite s))) ∧
    (s.ports.go = false → s.ports.reqValid = true → s.ports.reqRw = .write →
      step s = mapNext advancePorts (exec (.reqWrite s.ports.reqAddr s.ports.reqLen) (hostWrite s))) ∧
    (s.ports.go = false → s.ports.reqValid = true → s.ports.reqRw = .read →
      step s = mapNext advancePorts (exec (.reqRead s.ports.reqAddr s.ports.reqLen) (hostWrite s))) ∧
    (s.ports.go = false → s.ports.reqValid = false → step s = .next (advancePorts (hostWrite s)))

/-- In `M_ADDR` a symbol-level step is `exec` of the instruction that the frame's address byte decodes to (R91, R125); in
`M_TX`, before the first data byte, it is `exec` of the control instruction if that byte is a control byte (R94, R106,
R126; that it is read so in every frame is log entry 4). That `exec` of WRITE or READ is the address slot, one step of the
frame operation, is log entry 23 (DEDUCED). -/
def Obligations.StepRunsFrameBytes : Prop :=
  ∀ s, s.calm → s.level = .symbol → s.seqState = .xfer ∨ s.seqState = .direct →
    (s.mftState = .addr → decodeAddr s.frameAddrByte = addressInstr s.fAddr s.fRw ∧
      step s = mapNext advancePorts (exec (addressInstr s.fAddr s.fRw) s)) ∧
    ∀ b i, s.mftState = .tx → s.byteIdx = 0#9 → Memory.read s.txbuf 0 = some b → decodeCtrl b = .ok i →
      step s = mapNext advancePorts (exec i s)

/-! ### The step kinds -/

/-- END: `done <- 1`, `seq_state <- Q_IDLE`, so `busy` falls; `pc` and everything else stay (R166). -/
def Obligations.EndEndsTheRun : Prop :=
  ∀ s, exec .endScript s = .next { s with done := true, seqState := .idle } ∧
    State.busy { s with done := true, seqState := .idle } = false

/-- WRC inside its bounds: `txbuf[0]` is 0x00, `txbuf[1 .. len]` the payload, the rest of `txbuf` as before, and MFT has
accepted a write of `len + 1` bytes (R100, R121, R165, R167). -/
def Obligations.WrcBuildsItsFrame : Prop :=
  ∀ a len ptr d s, (Instr.wrc a len ptr d).wf = true →
    ∃ t, exec (.wrc a len ptr d) s = .next t ∧
      t = frameAccepted a .write (len + 1#9) { s with txbuf := t.txbuf, seqState := .xfer } ∧
      (len + 1#9).toNat = len.toNat + 1 ∧
      Memory.read t.txbuf 0 = some 0x00#8 ∧
      (∀ j, 1 ≤ j → j ≤ len.toNat → Memory.read t.txbuf j = s.byteRom[ptr.toNat + j - 1]?) ∧
      ∀ j, len.toNat < j → Memory.read t.txbuf j = Memory.read s.txbuf j

/-- WRD inside its bounds: `txbuf[0]` is 0x40, `txbuf[1 .. len]` the pattern (R100, R101, R121, R165, R168). -/
def Obligations.WrdBuildsItsFrame : Prop :=
  ∀ a len d s, (Instr.wrd a len d).wf = true →
    ∃ t, exec (.wrd a len d) s = .next t ∧
      t = frameAccepted a .write (len + 1#9) { s with txbuf := t.txbuf, seqState := .xfer } ∧
      (len + 1#9).toNat = len.toNat + 1 ∧
      Memory.read t.txbuf 0 = some 0x40#8 ∧
      (∀ j, 1 ≤ j → j ≤ len.toNat →
        Memory.read t.txbuf j = some (if j % 2 = 0 then 0xAA#8 else 0x55#8)) ∧
      ∀ j, len.toNat < j → Memory.read t.txbuf j = Memory.read s.txbuf j

/-- WRR inside its bounds: `txbuf[0 .. len-1]` is the payload alone (R100, R121, R165, R169). -/
def Obligations.WrrBuildsItsFrame : Prop :=
  ∀ a len ptr d s, (Instr.wrr a len ptr d).wf = true →
    ∃ t, exec (.wrr a len ptr d) s = .next t ∧
      t = frameAccepted a .write len { s with txbuf := t.txbuf, seqState := .xfer } ∧
      (∀ j, j < len.toNat → Memory.read t.txbuf j = s.byteRom[ptr.toNat + j]?) ∧
      ∀ j, len.toNat ≤ j → Memory.read t.txbuf j = Memory.read s.txbuf j

/-- RDR inside its bounds: MFT has accepted a read of `len` bytes; `txbuf` is left alone (R121, R165, R170). -/
def Obligations.RdrStartsARead : Prop :=
  ∀ a len d s, (Instr.rdr a len d).wf = true →
    exec (.rdr a len d) s = .next (frameAccepted a .read len { s with seqState := .xfer })

/-! ### The host commands -/

/-- R161: GO starts a script at its first step and clears the status, whatever the run before it ended with; while
`busy = 1` it is ignored; and the worked example, GO with `go_sel` = 1 right after reset. The premise `tableOk` is
R104's: a table the spec tells a model to refuse is refused at GO (log entry 16, DEDUCED). -/
def Obligations.GoStartsAScript : Prop :=
  (∀ s sel, s.busy = false → s.tableOk = true →
    exec (.go sel) s = .next
      { s with
        sel := sel, pc := scriptBase s.params sel, done := false, failed := false, errKind := .none
        errPos := 0#9, failStep := 0#5, seqState := .fetch }) ∧
  (∀ s sel, s.busy = true → exec (.go sel) s = .next s) ∧
  scriptBase State.reset.params .display = 0#5 ∧ scriptBase State.reset.params .loopback = 29#5 ∧
  ∃ t, step { State.reset with ports := { Ports.quiet with go := true, goSel := .loopback } } = .next t ∧
    t.sel = .loopback ∧ t.pc = 29#5 ∧ t.busy = true

/-- REQ of a legal length: the status is cleared and MFT has accepted the frame operation; `pc` and `sel` stay; while
`busy = 1` it is ignored (R121, R162, R163). -/
def Obligations.ReqStartsAFrame : Prop :=
  (∀ s a len, s.busy = false → 1 ≤ len.toNat → len.toNat ≤ 256 →
    exec (.reqWrite a len) s = .next
      (frameAccepted a .write len
        { s with
          done := false, failed := false, errKind := .none, errPos := 0#9, failStep := 0#5
          seqState := .direct }) ∧
    exec (.reqRead a len) s = .next
      (frameAccepted a .read len
        { s with
          done := false, failed := false, errKind := .none, errPos := 0#9, failStep := 0#5
          seqState := .direct })) ∧
  ∀ s a len, s.busy = true → exec (.reqWrite a len) s = .next s ∧ exec (.reqRead a len) s = .next s

/-- R234: a REQ of length 0 or above 256 ends at once with CapacityError, with no bus activity; no step inside the bounds
of R98 asks for such a frame. -/
def Obligations.IllegalLengthIsCapacityError : Prop :=
  (∀ s a len, s.busy = false → len.toNat = 0 ∨ 256 < len.toNat →
    exec (.reqWrite a len) s = .next
      { s with
        done := false, failed := true, errKind := .capacity, errPos := 0#9, failStep := 0#5
        mftState := .idle, seqState := .idle } ∧
    exec (.reqRead a len) s = .next
      { s with
        done := false, failed := true, errKind := .capacity, errPos := 0#9, failStep := 0#5
        mftState := .idle, seqState := .idle }) ∧
  ∀ s t i, s.calm → s.paramsOk → s.seqState = .fetch → decodeStep s.stepWordAt = .ok i → step s = .next t →
    t.errKind = s.errKind ∧ t.failed = s.failed

/-- While `busy = 1` the ports `go`, `go_sel`, `req_valid`, `req_rw`, `req_addr`, `req_len`, `tx_we`, `tx_idx`,
`tx_data` have no effect: a step from two states that differ only in them answers the same, but for the ports
themselves (R26, R70, R162, R282). -/
def Obligations.CommandsWhileBusyHaveNoEffect : Prop :=
  ∀ (s : State) (q : Ports), s.busy = true → q.rst = s.ports.rst → q.rxIdx = s.ports.rxIdx →
    q.rxRead = s.ports.rxRead → q.sclEnv = s.ports.sclEnv → q.sdaEnv = s.ports.sdaEnv →
    mapNext (fun t => { t with ports := .quiet }) (step { s with ports := q }) =
      mapNext (fun t => { t with ports := .quiet }) (step s)

/-! ### The byte slots -/

/-- WRITE and READ: the address slot, by the answer of the environment (R125, R127, R132, R136 to R138). That `exec` of
WRITE or READ is the address slot alone is log entry 23 (DEDUCED); that a stall without timeout is a step, which answers
a next state with the environment moved on, is log entry 21 (DESIGN CHOICE), where R136 says the step does not happen. -/
def Obligations.AddressSlotByAnswer : Prop :=
  ∀ (a : BusAddr) (rw : Dir) (s : State) (x : WriteAnswer) (e : Env),
    s.env.askWrite s.trace (addrByte a rw) = (x, e) →
    exec (addressInstr a rw) s = .next
      (slotResult (addrByte a rw) 0#9 x (fun t => { t with mftState := if rw = .write then .tx else .rx })
        { s with env := e })

/-- CTRL_CMD and CTRL_DATA: a data slot of the byte 0x00 or 0x40, by the answer of the environment (R94, R106, R126,
R129, R136 to R138). That a stall without timeout is a step, with the environment moved on, is log entry 21 (DESIGN
CHOICE). -/
def Obligations.ControlByteSlotByAnswer : Prop :=
  ∀ (s : State) (x : WriteAnswer) (e : Env),
    (s.env.askWrite s.trace 0x00#8 = (x, e) →
      exec .ctrlCmd s = .next (slotResult 0x00#8 (s.byteIdx + 1#9) x dataAcked { s with env := e })) ∧
    (s.env.askWrite s.trace 0x40#8 = (x, e) →
      exec .ctrlData s = .next (slotResult 0x40#8 (s.byteIdx + 1#9) x dataAcked { s with env := e }))

/-- In `M_TX` a symbol-level step is the data slot of `txbuf[byte_idx]`, whatever that byte is (R104 (3), R106, R126,
R129, R136 to R138). That a stall without timeout is a step, with the environment moved on, is log entry 21 (DESIGN
CHOICE). -/
def Obligations.DataSlotByAnswer : Prop :=
  ∀ (s : State) (b : Byte) (x : WriteAnswer) (e : Env),
    s.calm → s.level = .symbol → s.seqState = .xfer ∨ s.seqState = .direct → s.mftState = .tx →
    Memory.read s.txbuf s.byteIdx.toNat = some b → s.env.askWrite s.trace b = (x, e) →
    step s = .next (advancePorts (slotResult b (s.byteIdx + 1#9) x dataAcked { s with env := e }))

/-- In `M_RX` a symbol-level step receives a byte into `rxbuf[byte_idx]`, and into no other byte of it, and answers
`AO(1)` after the last byte and `AO(0)` after any other; or it waits or times out (R133 to R136, R138). That a stall
without timeout is a step, with the environment moved on, is log entry 21 (DESIGN CHOICE). -/
def Obligations.ReadSlotByAnswer : Prop :=
  ∀ (s : State) (x : ReadAnswer) (e : Env),
    s.calm → s.level = .symbol → s.seqState = .xfer ∨ s.seqState = .direct → s.mftState = .rx →
    s.env.askRead s.trace = (x, e) →
    ∃ t, step s = .next (advancePorts t) ∧
      match x with
      | .byte b =>
        t =
            { s with
              env := e
              trace := s.trace ++ [.RX b, .AO (if s.byteIdx.toNat + 1 = s.fLen.toNat then .nack else .ack)]
              rxbuf := t.rxbuf, byteIdx := s.byteIdx + 1#9
              mftState := if s.byteIdx.toNat + 1 = s.fLen.toNat then .stop else .rx } ∧
          Memory.read t.rxbuf s.byteIdx.toNat = some b ∧
          ∀ j, j ≠ s.byteIdx.toNat → Memory.read t.rxbuf j = Memory.read s.rxbuf j
      | .stall =>
        t =
          if s.params.timeoutMs = 0 then { s with env := e }
          else runFailed .timeout (s.byteIdx + 1#9) [.X] { s with env := e }

/-- R28: after reset no byte of a buffer holds a value, and reading one, by MFT from `txbuf` or by the host from
`rxbuf`, is a fault. That the host uses `rx_data` at an edge is a mark of the model's own, `ports.rxRead` (log entry 7,
DESIGN CHOICE). -/
def Obligations.UnwrittenBytesFault : Prop :=
  (∀ j, Memory.read State.reset.txbuf j = none ∧ Memory.read State.reset.rxbuf j = none) ∧
  (∀ s, s.calm → s.level = .symbol → s.seqState = .xfer ∨ s.seqState = .direct → s.mftState = .tx →
    Memory.read s.txbuf s.byteIdx.toNat = none → step s = .fault (.unwrittenTxByte s.byteIdx.toNat)) ∧
  ∀ s, s.ports.rst = false → s.ports.rxRead = true → Memory.read s.rxbuf s.ports.rxIdx.toNat = none →
    step s = .fault (.unwrittenRxByte s.ports.rxIdx.toNat)

/-! ### The beginning and the end of a frame -/

/-- In `M_START`: `emit S`, `mft_state <- M_ADDR` (R123). -/
def Obligations.StartConditionStep : Prop :=
  ∀ s, s.calm → s.level = .symbol → s.seqState = .xfer ∨ s.seqState = .direct → s.mftState = .start →
    step s = .next (advancePorts { s with trace := s.trace ++ [.S], mftState := .addr })

/-- In `M_STOP` of a REQ run: `emit P`, and the run ends with success or with the error MFT has found (R130, R140,
R163, R235). That `m_err_kind` and `m_err_pos` stay as they are is the model's choice, log entry 29. -/
def Obligations.HostFrameEnds : Prop :=
  ∀ s, s.calm → s.level = .symbol → s.seqState = .direct → s.mftState = .stop →
    (s.mErrKind = .none →
      step s = .next
        (advancePorts { s with trace := s.trace ++ [.P], mftState := .idle, done := true, seqState := .idle })) ∧
    (s.mErrKind ≠ .none → step s = .next (advancePorts (runFailed s.mErrKind s.mErrPos [.P] s)))

/-- R172: the end of a step's frame. On success `pc <- pc + 1` and the post-delay, if there is one, is begun; on an error
the run is over, with no delay and `pc` unchanged. That `m_err_kind` and `m_err_pos` stay as they are is the model's
choice, log entry 29. -/
def Obligations.ScriptFrameEnds : Prop :=
  ∀ s, s.calm → s.level = .symbol → s.seqState = .xfer → s.mftState = .stop →
    (s.mErrKind = .none → s.pc ≠ 31#5 → stepDelay s.stepWordAt = 0#4 →
      step s = .next
        (advancePorts
          { s with trace := s.trace ++ [.P], mftState := .idle, pc := s.pc + 1#5, seqState := .fetch })) ∧
    (s.mErrKind = .none → s.pc ≠ 31#5 → stepDelay s.stepWordAt ≠ 0#4 →
      step s = .next
        (advancePorts
          { s with
            trace := s.trace ++ [.P, .DLY (stepDelay s.stepWordAt).toNat], mftState := .idle, pc := s.pc + 1#5
            dlyCnt := BitVec.ofNat 32 ((stepDelay s.stepWordAt).toNat * (s.params.clkHz / 1000))
            seqState := .delay })) ∧
    (s.mErrKind ≠ .none → step s = .next (advancePorts (runFailed s.mErrKind s.mErrPos [.P] s)))

/-- The post-delay: left in one step at symbol level (where `dly_cnt` is set back to 0, the model's choice, log entry
17); at line level `dly_cnt` counts down by 1 a tick with both lines released, and at 0 the next step is fetched
(R171, R243). That `Q_DELAY` is left in the very tick that takes `dly_cnt` to 0 is DEDUCED, log entry 8. -/
def Obligations.PostDelayIsWaitedOut : Prop :=
  (∀ s, s.calm → s.level = .symbol → s.seqState = .delay →
    step s = .next (advancePorts { s with dlyCnt := 0#32, seqState := .fetch })) ∧
  ∀ (n : Nat) (s : State), s.undisturbed → s.level = .line → lineParamsOk s.params = true → s.seqState = .delay →
    s.mftState = .idle → s.dlyCnt.toNat = n + 1 →
    (∀ k, k ≤ n → ∃ t, run k s = .next t ∧ t.seqState = .delay ∧ t.dlyCnt.toNat = n + 1 - k ∧ t.trace = s.trace ∧
      t.pc = s.pc ∧ t.lineLevels = (true, true)) ∧
    ∃ t, run (n + 1) s = .next t ∧ t.seqState = .fetch ∧ t.dlyCnt = 0#32 ∧ t.trace = s.trace ∧ t.pc = s.pc

/-! ### Reset -/

/-- R270: an edge with `rst` = 1 gives every register its reset value, whatever else is on the ports; the buffers hold no
value, both lines are released, and the bus sees `X` if a frame was open. The model's readings: in `M_START` no frame is
open yet (log entry 9, DEDUCED), in `M_STOP` one is open to its last tick (log entry 33), and the trace that the bus has
seen is kept where R35 gives the empty one (log entry 25, DEDUCED). -/
def Obligations.ResetEdge : Prop :=
  ∀ s, s.ports.rst = true →
    ∃ t, step s = .next (advancePorts t) ∧ t.lineLevels = (true, true) ∧
      t =
        { State.reset with
          scriptRom := s.scriptRom, byteRom := s.byteRom, params := s.params, level := s.level
          env := s.env, ports := s.ports, schedule := s.schedule
          trace := if s.mftState = .idle ∨ s.mftState = .start then s.trace else s.trace ++ [.X] }

/-- R35: the state after reset, register by register, with their codes where the spec gives numbers. -/
def Obligations.ResetValues : Prop :=
  State.reset.seqState = .idle ∧ SeqState.code State.reset.seqState = 0#3 ∧ State.reset.sel = .display ∧
  State.reset.pc = 0#5 ∧ State.reset.dlyCnt = 0#32 ∧ State.reset.busy = false ∧ State.reset.done = false ∧
  State.reset.failed = false ∧ State.reset.errKind = .none ∧ ErrKind.code State.reset.errKind = 0#3 ∧
  State.reset.errPos = 0#9 ∧ State.reset.failStep = 0#5 ∧ State.reset.mftState = .idle ∧
  MftState.code State.reset.mftState = 0#4 ∧ State.reset.fAddr = 0#7 ∧ State.reset.fRw = .write ∧
  State.reset.byteIdx = 0#9 ∧ State.reset.bitCnt = 0#4 ∧ State.reset.shreg = 0#8 ∧ State.reset.tmoCnt = 0#32 ∧
  State.reset.mErrKind = .none ∧ State.reset.mErrPos = 0#9 ∧ State.reset.fLen = 0#9 ∧
  (∀ j, Memory.read State.reset.txbuf j = none) ∧ (∀ j, Memory.read State.reset.rxbuf j = none) ∧
  State.reset.lineLevels = (true, true) ∧ (∀ s : State, s.rxData = Memory.read s.rxbuf s.ports.rxIdx.toNat) ∧
  State.reset.rxData = none ∧ State.reset.trace = []

/-- Until a command is given nothing runs: an idle block that the host leaves alone stays as it is, for ever (R160,
R162, R271). The state after reset is one; that its ports are at rest is the model's choice, log entry 1. -/
def Obligations.NothingRunsWithoutCommand : Prop :=
  (∀ (n : Nat) (s : State), s.seqState = .idle → s.paramsOk → s.leftAlone →
    ∃ t, run n s = .next t ∧ t = { s with ports := t.ports, schedule := t.schedule }) ∧
  State.reset.seqState = .idle ∧ State.reset.paramsOk ∧ State.reset.leftAlone

/-! ### Rules of the whole machine -/

/-- The invariant of the machine is kept by every step: the buffers keep their canonical form; `done`, `failed` and the
error registers agree (R24); MFT runs exactly in `Q_XFER` and `Q_DIRECT` (R160), with a legal frame length and the byte
index within it (R25, R33); `pc` is not below the base of the running script (R103); and the bus trace is one the
grammar of frames allows, with no repeated start and no symbol outside a frame (R68, R71, R72, R123, R139). A reset is a
step too: what it does to the trace is log entries 9, 25 and 33. -/
def Obligations.InvariantKept : Prop := ∀ s t, s.Inv → step s = .next t → t.Inv

/-- The state after reset meets the invariant. -/
def Obligations.InvariantAtReset : Prop := State.reset.Inv

/-- Only reset and a running frame put events on the bus trace, at most two a step, and nothing is taken away (R9, R31,
R160). That a reset edge takes nothing away either, where R35 gives the empty trace, is log entry 25 (DEDUCED). -/
def Obligations.TraceOnlyGrows : Prop :=
  ∀ s t, step s = .next t →
    ∃ es : List Event, t.trace = s.trace ++ es ∧ es.length ≤ 2 ∧
      (es ≠ [] → s.ports.rst = true ∨ s.seqState = .xfer ∨ s.seqState = .direct)

/-- `pc` is written in three ways only (R34, R173): by reset, by GO, and by a step whose frame has succeeded. -/
def Obligations.PcWrittenThreeWays : Prop :=
  ∀ s t, step s = .next t →
    t.pc = s.pc ∨
    (s.ports.rst = true ∧ t.pc = 0#5) ∨
    (s.ports.rst = false ∧ s.seqState = .idle ∧ s.ports.go = true ∧ t.pc = scriptBase s.params s.ports.goSel) ∨
    (s.ports.rst = false ∧ s.seqState = .xfer ∧ s.mftState = .stop ∧ s.mErrKind = .none ∧ s.pc ≠ 31#5 ∧
      t.pc = s.pc + 1#5)

/-- Who writes the buffers, beside reset: `txbuf` the host while `busy = 0` and SEQ when it builds a frame, from index 0
on; `rxbuf` MFT with the byte it receives, at `byte_idx` (R26, R27, R70, R134, R139). That SEQ builds the whole frame in
one tick at line level too is the model's choice, log entry 31. -/
def Obligations.BufferWriters : Prop :=
  ∀ s t, step s = .next t → s.ports.rst = false →
    ((∀ j, Memory.read t.txbuf j = Memory.read s.txbuf j) ∨
      (s.busy = false ∧ s.ports.txWe = true ∧
        ∀ j, Memory.read t.txbuf j =
          if j = s.ports.txIdx.toNat then some s.ports.txData else Memory.read s.txbuf j) ∨
      (s.seqState = .fetch ∧ t.fRw = .write ∧ ∃ d : List Byte, d.length = t.fLen.toNat ∧
        ∀ j, Memory.read t.txbuf j = if j < d.length then d[j]? else Memory.read s.txbuf j)) ∧
    ((∀ j, Memory.read t.rxbuf j = Memory.read s.rxbuf j) ∨
      ((s.mftState = .rx ∨ s.mftState = .rack) ∧ ∃ b a, t.trace = s.trace ++ [.RX b, .AO a] ∧
        ∀ j, Memory.read t.rxbuf j = if j = s.byteIdx.toNat then some b else Memory.read s.rxbuf j))

/-- While a frame operation runs, its address, direction and length, `txbuf` and `sel` do not change; the start condition
is recorded on the way from `M_START` to `M_ADDR` and in no other step, neither state is entered again, and nothing is
recorded while MFT stays in one of them or in `M_AACK` (R70, R120, R123, R125, R139). So both are sent once. The invariant
rules out the states in which MFT runs and SEQ does not wait for it. -/
def Obligations.RunningFrameIsFixed : Prop :=
  ∀ s t, s.Inv → s.ports.rst = false → s.mftState ≠ .idle → step s = .next t →
    t.fAddr = s.fAddr ∧ t.fRw = s.fRw ∧ t.fLen = s.fLen ∧ t.txbuf = s.txbuf ∧ t.sel = s.sel ∧
    (t.mftState = .start → s.mftState = .start ∧ t.trace = s.trace) ∧
    (t.mftState = .addr →
      (s.mftState = .start ∧ t.trace = s.trace ++ [.S]) ∨ (s.mftState = .addr ∧ t.trace = s.trace)) ∧
    (t.mftState = .aack → (s.mftState = .addr ∨ s.mftState = .aack) ∧ t.trace = s.trace) ∧
    (s.mftState ≠ .start → ∃ es : List Event, t.trace = s.trace ++ es ∧ .S ∉ es)

/-- `done` and `failed` are set when a run ends and cleared when the next is accepted or by reset, and by nothing else
(R24, R161, R163, R270); `busy` rises only with a command, and when it falls without a reset exactly one of `done` and
`failed` is 1 (R12). -/
def Obligations.StatusChangesWithRuns : Prop :=
  ∀ s t, s.Inv → step s = .next t →
    (s.done = false → t.done = true → s.busy = true ∧ t.busy = false) ∧
    (s.done = true → t.done = false →
      s.ports.rst = true ∨ (s.busy = false ∧ (s.ports.go = true ∨ s.ports.reqValid = true))) ∧
    (s.failed = false → t.failed = true → t.busy = false ∧ (s.busy = true ∨ s.ports.reqValid = true)) ∧
    (s.failed = true → t.failed = false →
      s.ports.rst = true ∨ (s.busy = false ∧ (s.ports.go = true ∨ s.ports.reqValid = true))) ∧
    (s.busy = false → t.busy = true → s.ports.go = true ∨ s.ports.reqValid = true) ∧
    (s.busy = true → t.busy = false → s.ports.rst = false →
      (t.done = true ∧ t.failed = false) ∨ (t.done = false ∧ t.failed = true))

/-- An error ends the run at once, wherever it arises (R234 to R238): MFT and SEQ are idle, the error registers say what
happened and in which step, no delay is begun, and the frame is closed with `P` or `X` unless none was begun. Every
other register keeps its value but the line-level counters, and `txbuf` too but for the host's write of the edge; the
registers of MFT keep the failed frame's operands, position and pending NACK (the latter the model's choice, log entry
29), and `bit_cnt` and `shreg` (log entry 30). -/
def Obligations.EveryErrorEndsTheRun : Prop :=
  ∀ s t, s.Inv → step s = .next t → s.failed = false → t.failed = true →
    t =
      { s with
        seqState := .idle, mftState := .idle, done := false, failed := true, errKind := t.errKind
        errPos := t.errPos, failStep := t.failStep, trace := t.trace, txbuf := (hostWrite s).txbuf
        tmoCnt := t.tmoCnt, quarter := t.quarter, qTick := t.qTick
        env := t.env, ports := t.ports, schedule := t.schedule } ∧
    (s.level = .symbol → t.tmoCnt = s.tmoCnt ∧ t.quarter = s.quarter ∧ t.qTick = s.qTick) ∧ t.errKind ≠ .none ∧
    ((s.seqState = .idle ∧ t.errKind = .capacity ∧ t.errPos = 0#9 ∧ t.failStep = 0#5 ∧ t.trace = s.trace) ∨
      ((s.seqState = .direct ∧ t.failStep = 0#5 ∨
          s.seqState = .xfer ∧ t.failStep = s.pc - scriptBase s.params s.sel) ∧
        (t.trace = s.trace ++ [.P] ∨ t.trace = s.trace ++ [.X])))

/-- Each kind of error has its cause and its position (R230 to R234, R236): AddressingError a NACK, seen at the stop
condition; TimeoutError a slot that stalls with `TIMEOUT_MS` not 0, at line level one that is open when `tmo_cnt` reaches
`TIMEOUT_TICKS` (R153); CapacityError a REQ of an illegal length; ArbitrationError an `ArbLost`, at line level a sent 1
read back as 0 at the end of the second quarter (R154). Where a tick looks for the timeout is log entry 8, that it may
come after a NACK of the same slot log entry 28 (both DEDUCED). -/
def Obligations.ErrorsHaveTheirCause : Prop :=
  ∀ s t, s.Inv → step s = .next t → s.failed = false → t.failed = true →
    (t.errKind = .addressing → s.mftState = .stop ∧ s.mErrKind = .addressing ∧ t.errPos = s.mErrPos) ∧
    (t.errKind = .timeout → s.params.timeoutMs ≠ 0 ∧ t.errPos = s.slotPos ∧
      (s.level = .symbol → s.writeAnswer = some .stall ∨ s.readAnswer = some .stall) ∧
      (s.level = .line → s.slotOpen = true ∧ timeoutTicks s.params ≠ 0 ∧
        timeoutTicks s.params ≤ (s.tmoCnt + 1#32).toNat)) ∧
    (t.errKind = .capacity → s.seqState = .idle ∧ s.ports.reqValid = true ∧ t.errPos = 0#9 ∧
      (s.ports.reqLen.toNat = 0 ∨ 256 < s.ports.reqLen.toNat)) ∧
    (t.errKind = .arbitration → t.errPos = s.slotPos ∧
      (s.level = .symbol → s.writeAnswer = some .arbLost) ∧
      (s.level = .line → (s.mftState = .addr ∨ s.mftState = .tx) ∧ s.quarter = .second ∧
        s.shreg.getLsbD 7 = true ∧ s.sdaIn = false))

/-- R136: with `TIMEOUT_MS` = 0 a slot in which ENV answers `Stall` does not happen: no event and no change but in what
stands outside I2CX, and the same question is put again, for as long as ENV stalls. That the wait is made of steps which
answer a next state, where R136 lets a model have none, is the model's choice, log entry 21. -/
def Obligations.StallWithoutTimeoutWaits : Prop :=
  ∀ (n : Nat) (s : State), s.undisturbed → s.level = .symbol → s.seqState = .xfer ∨ s.seqState = .direct →
    s.params.timeoutMs = 0 → s.driven ≠ none ∨ s.mftState = .rx → Along n State.Stalls s →
    ∃ t, run n s = .next t ∧ t = { s with env := t.env, ports := t.ports, schedule := t.schedule } ∧
      t.busy = true

/-! ### Frame operations as whole actions -/

/-- R124: a REQ WRITE, run at symbol level, does what `BusWrite(a, bs)` does, `bs` being `txbuf[0 .. req_len-1]` with the
host's write of the same edge in it (log entry 6, DEDUCED): the same trace, the same questions to ENV, and the result in
the status registers (R163). `patience` bounds how often a stalled question is put again (log entry 19); that the
operation is made of steps is log entry 23, that a wait is too log entry 21. -/
def Obligations.HostWriteIsBusWrite : Prop :=
  ∀ (patience : Nat) (s : State) (bs : List Byte) (r : FrameResult) (u : State),
    s.undisturbed → s.level = .symbol → s.seqState = .idle → s.ports.go = false → s.ports.reqValid = true →
    s.ports.reqRw = .write → bs.length = s.ports.reqLen.toNat →
    (bs.length ≤ 256 → ∀ j, j < bs.length → Memory.read (hostWrite s).txbuf j = bs[j]?) →
    busWrite patience s.ports.reqAddr bs s = (some r, u) →
    ∃ n t, run (n + 1) s = .next t ∧ t.busy = false ∧
      (∀ k v, 1 ≤ k → k ≤ n → run k s = .next v → v.busy = true) ∧
      t.trace = u.trace ∧ t.env = u.env ∧ t.rxbuf = s.rxbuf ∧ t.txbuf = (hostWrite s).txbuf ∧
      t.pc = s.pc ∧ t.sel = s.sel ∧ t.failStep = 0#5 ∧
      match r with
      | .ok => t.done = true ∧ t.failed = false ∧ t.errKind = .none ∧ t.errPos = 0#9
      | .err k pos => t.done = false ∧ t.failed = true ∧ t.errKind = k ∧ t.errPos = pos

/-- R131: a REQ READ, run at symbol level, does what `BusRead(a, n)` does: the same trace, the same bytes in `rxbuf`, the
same questions to ENV, and the result in the status registers. `patience` bounds how often a stalled question is put
again (log entry 19); that the operation is made of steps is log entry 23, that a wait is too log entry 21, the host's
write of the same edge entry 6. -/
def Obligations.HostReadIsBusRead : Prop :=
  ∀ (patience : Nat) (s : State) (r : FrameResult) (u : State),
    s.undisturbed → s.level = .symbol → s.seqState = .idle → s.ports.go = false → s.ports.reqValid = true →
    s.ports.reqRw = .read → busRead patience s.ports.reqAddr s.ports.reqLen.toNat s = (some r, u) →
    ∃ n t, run (n + 1) s = .next t ∧ t.busy = false ∧
      (∀ k v, 1 ≤ k → k ≤ n → run k s = .next v → v.busy = true) ∧
      t.trace = u.trace ∧ t.env = u.env ∧ t.rxbuf = u.rxbuf ∧ t.txbuf = (hostWrite s).txbuf ∧
      t.pc = s.pc ∧ t.sel = s.sel ∧ t.failStep = 0#5 ∧
      match r with
      | .ok => t.done = true ∧ t.failed = false ∧ t.errKind = .none ∧ t.errPos = 0#9
      | .err k pos => t.done = false ∧ t.failed = true ∧ t.errKind = k ∧ t.errPos = pos

/-- A step of a script, run at symbol level from its fetch, does what its frame operation does as one action; on success
the next step is about to be fetched, the post-delay being over; on an error the run has ended (R165, R167 to R172,
R235). `patience` bounds how often a stalled question is put again (log entry 19); that the operation is made of steps
is log entry 23, that a wait is too log entry 21. -/
def Obligations.ScriptStepIsItsOperation : Prop :=
  ∀ (patience : Nat) (s : State) (i : Instr) (r : FrameResult) (u : State),
    s.undisturbed → s.level = .symbol → s.seqState = .fetch → decodeStep s.stepWordAt = .ok i → i.wf = true →
    s.pc ≠ 31#5 → stepOperation patience i s = some (some r, u) →
    ∃ n t, run (n + 1) s = .next t ∧ t.trace = u.trace ++ (if r = .ok ∧ s.stepDelayMs ≠ 0 then [.DLY s.stepDelayMs] else []) ∧
      t.env = u.env ∧ t.rxbuf = u.rxbuf ∧ t.sel = s.sel ∧ t.mftState = .idle ∧ t.done = s.done ∧
      match r with
      | .ok => t.seqState = .fetch ∧ t.pc = s.pc + 1#5 ∧ t.failed = s.failed
      | .err k pos =>
        t.seqState = .idle ∧ t.pc = s.pc ∧ t.failed = true ∧ t.errKind = k ∧ t.errPos = pos ∧
          t.failStep = s.pc - scriptBase s.params s.sel

/-! ### Runs under the premises about the environment -/

/-- R92: under `Present(a)` (R14) a REQ WRITE of `n` bytes sends exactly the complete write frame, `2n + 4` events, and ends
with success (R163). The premise is assumed along the run (log entry 20, DEDUCED), and the bytes are those after the
host's write of the same edge (log entry 6, DEDUCED). -/
def Obligations.HostWriteWhenPresent : Prop :=
  (∀ (s : State) (bs : List Byte),
    s.undisturbed → s.level = .symbol → s.seqState = .idle → s.ports.go = false → s.ports.reqValid = true →
    s.ports.reqRw = .write → bs.length = s.ports.reqLen.toNat → 1 ≤ bs.length → bs.length ≤ 256 →
    (∀ j, j < bs.length → Memory.read (hostWrite s).txbuf j = bs[j]?) →
    Along (bs.length + 4) (State.Present s.ports.reqAddr) s →
    ∃ t, run (bs.length + 4) s = .next t ∧ t.trace = s.trace ++ writeFrame s.ports.reqAddr bs ∧
      t.busy = false ∧ t.done = true ∧ t.failed = false ∧ t.errKind = .none ∧ t.pc = s.pc ∧ t.sel = s.sel) ∧
  ∀ a bs, (writeFrame a bs).length = 3 + 2 * bs.length + 1 ∧
    (writeFrame a bs).head? = some .S ∧ (writeFrame a bs).getLast? = some .P

/-- R93: under `Echo(a, P)` a REQ READ of `len(P)` bytes makes exactly the complete read frame, leaves `P` in
`rxbuf[0 .. len(P)-1]` and every other byte of `rxbuf` as it was, and ends with success (R134, R213). The premises are
assumed along the run (log entry 20, DEDUCED). -/
def Obligations.HostReadWhenEcho : Prop :=
  ∀ (s : State) (p : List Byte),
    s.undisturbed → s.level = .symbol → s.seqState = .idle → s.ports.go = false → s.ports.reqValid = true →
    s.ports.reqRw = .read → p.length = s.ports.reqLen.toNat → 1 ≤ p.length → p.length ≤ 256 →
    Along (p.length + 4) (fun t => t.Echo s.ports.reqAddr p ∧ t.NoStall) s →
    ∃ t, run (p.length + 4) s = .next t ∧ t.trace = s.trace ++ readFrame s.ports.reqAddr p ∧
      t.busy = false ∧ t.done = true ∧ t.failed = false ∧ t.errKind = .none ∧ t.pc = s.pc ∧ t.sel = s.sel ∧
      ∀ j, Memory.read t.rxbuf j = if j < p.length then p[j]? else Memory.read s.rxbuf j

/-- R198: under `Present(0x3C)` a display run from `busy = 0` gives the trace of the whole script and no other event,
whatever the 25 bytes of `INIT_ROM` are, and ends with success; what that trace counts; and that it is 28 frames, 27
command-framed and 1 data-framed, but for the delays. The 324 steps are the model's: one for GO, 323 for the 28 frames,
25 delays and END; the premise is assumed along the run (log entry 20, DEDUCED). -/
def Obligations.DisplayRun : Prop :=
  (∀ (s : State) (initRom : Fin 25 → Byte),
    s.undisturbed → s.level = .symbol → s.seqState = .idle → s.ports.go = true → s.ports.goSel = .display →
    s.scriptRom = scriptRomReset → s.byteRom = byteRomOf initRom → s.params.displayBase = 0#5 →
    s.params.loopBase = 29#5 → Along 324 (State.Present Config.displayAddr) s →
    ∃ t, run 324 s = .next t ∧ t.trace = s.trace ++ displayTrace initRom ∧ t.busy = false ∧ t.done = true ∧
      t.failed = false ∧ t.errKind = .none ∧ t.pc = 28#5 ∧ t.sel = .display) ∧
  ∀ initRom : Fin 25 → Byte,
    (displayTrace initRom).length = 507 ∧ (displayTrace initRom).count .S = 28 ∧
    (displayTrace initRom).count .P = 28 ∧ (displayTrace initRom).count (.AI .ack) = 213 ∧
    (displayTrace initRom).count (.DLY 10) = 25 ∧ 28 + 28 + 213 + 213 + 25 = 507 ∧
    (displayTrace initRom).countP (fun e => match e with | .TX _ => true | _ => false) = 213 ∧
    (displayTrace initRom).filter (· ≠ .DLY 10) =
      (displayFrames initRom).flatMap (writeFrame Config.displayAddr) ∧
    (displayFrames initRom).countP (·.head? = some 0x00#8) = 27 ∧
    (displayFrames initRom).countP (·.head? = some 0x40#8) = 1

/-- R211: under `Echo(0x22, LOOP_PAYLOAD)` and `NoStall` a loopback run from `busy = 0` gives the trace of the whole
script and no other event, 2 frames, 18 byte slots, 40 events, ends with success, and leaves the payload in both
buffers. The 26 steps are the model's; the premises are assumed along the run (log entry 20, DEDUCED). -/
def Obligations.LoopbackRun : Prop :=
  (∀ (s : State) (initRom : Fin 25 → Byte),
    s.undisturbed → s.level = .symbol → s.seqState = .idle → s.ports.go = true → s.ports.goSel = .loopback →
    s.scriptRom = scriptRomReset → s.byteRom = byteRomOf initRom → s.params.displayBase = 0#5 →
    s.params.loopBase = 29#5 →
    Along 26 (fun t => t.Echo Config.loopAddr Config.loopPayload ∧ t.NoStall) s →
    ∃ t, run 26 s = .next t ∧ t.trace = s.trace ++ loopbackTrace ∧ t.busy = false ∧ t.done = true ∧
      t.failed = false ∧ t.errKind = .none ∧ t.pc = 31#5 ∧ t.sel = .loopback ∧
      ∀ j, j < 8 → Memory.read t.rxbuf j = Config.loopPayload[j]? ∧
        Memory.read t.txbuf j = Config.loopPayload[j]?) ∧
  loopbackTrace.length = 40 ∧ loopbackTrace.count .S = 2 ∧
  loopbackTrace.countP (fun e => match e with | .TX _ => true | .RX _ => true | _ => false) = 18

/-- ENV-DISP as the environment (R219): a display run ends with success, the trace is that of the whole script, and the
display's log has grown by the 28 data-byte lists of the script. -/
def Obligations.DisplayRunOnEnvDisp : Prop :=
  ∀ (s : State) (initRom : Fin 25 → Byte) (d : DispSim),
    s.undisturbed → s.level = .symbol → s.seqState = .idle → s.ports.go = true → s.ports.goSel = .display →
    s.scriptRom = scriptRomReset → s.byteRom = byteRomOf initRom → s.params.displayBase = 0#5 →
    s.params.loopBase = 29#5 → s.env.sim = .envDisp d → s.env.inject = none →
    ∃ t, run 324 s = .next t ∧ t.trace = s.trace ++ displayTrace initRom ∧ t.done = true ∧ t.failed = false ∧
      t.env.sim = .envDisp
        { log := d.log ++ displayFrames initRom }

/-- The loopback exchange on ENV-LOOP (R218): with the payload queued before GO, the run ends with success, the peripheral
has received the payload and sent all it had queued, `p_read(8)` returns the payload, and `rxbuf` holds it. -/
def Obligations.LoopbackOnEnvLoop : Prop :=
  ∀ (s : State) (initRom : Fin 25 → Byte) (l : LoopSim),
    s.undisturbed → s.level = .symbol → s.seqState = .idle → s.ports.go = true → s.ports.goSel = .loopback →
    s.scriptRom = scriptRomReset → s.byteRom = byteRomOf initRom → s.params.displayBase = 0#5 →
    s.params.loopBase = 29#5 → LoopSim.fresh.pWrite Config.loopPayload = some l → s.env.sim = .envLoop l →
    s.env.inject = none →
    ∃ t v, run 26 s = .next t ∧ t.trace = s.trace ++ loopbackTrace ∧ t.done = true ∧ t.failed = false ∧
      (∀ j, j < 8 → Memory.read t.rxbuf j = Config.loopPayload[j]?) ∧
      t.env.sim = .envLoop v ∧ v.pTx = [] ∧ v.pRead 8 = some (Config.loopPayload, LoopSim.fresh)

/-- With a timeout a run of either script always ends, whatever the environment answers (R12, R173, R175): with success
at the END step of its script, or with an error at the step that failed; exactly one of `done` and `failed` is then 1. -/
def Obligations.EveryScriptRunEnds : Prop :=
  ∀ (s : State) (initRom : Fin 25 → Byte),
    s.undisturbed → s.level = .symbol → s.seqState = .idle → s.ports.go = true → s.scriptRom = scriptRomReset →
    s.byteRom = byteRomOf initRom → s.params.displayBase = 0#5 → s.params.loopBase = 29#5 → s.params.timeoutMs ≠ 0 →
    ∃ n t, run (n + 1) s = .next t ∧ t.busy = false ∧
      (∀ k v, 1 ≤ k → k ≤ n → run k s = .next v → v.busy = true) ∧ t.sel = s.ports.goSel ∧
      ((t.done = true ∧ t.failed = false ∧ t.errKind = .none ∧ t.errPos = 0#9 ∧ t.failStep = 0#5 ∧
          t.pc = (match s.ports.goSel with | .display => 28#5 | .loopback => 31#5)) ∨
        (t.done = false ∧ t.failed = true ∧ t.errKind ≠ .none ∧
          t.failStep = t.pc - scriptBase s.params s.ports.goSel))

/-! ### The line level -/

/-- The lines by symbol and quarter (R21, R150): idle released, the start condition a fall and the stop condition a rise
of the data line while the clock line is high, the data line steady through the bits (R151), released for the bits a
target drives (R152). -/
def Obligations.LineLevelTable : Prop :=
  (∀ s : State, s.mftState = .idle → s.lineLevels = (true, true)) ∧
  (∀ s : State, s.mftState = .start →
    s.lineLevels =
      match s.quarter with
      | .first => (true, true)
      | .second => (true, false)
      | .third => (true, false)
      | .fourth => (false, false)) ∧
  (∀ s : State, s.mftState = .stop →
    s.lineLevels =
      match s.quarter with
      | .first => (false, false)
      | .second => (true, false)
      | .third => (true, true)
      | .fourth => (true, true)) ∧
  ∀ s : State,
    (s.mftState = .addr ∨ s.mftState = .tx →
      s.lineLevels = (decide (s.quarter = .second ∨ s.quarter = .third), s.shreg.getLsbD 7)) ∧
    (s.mftState = .aack ∨ s.mftState = .tack ∨ s.mftState = .rx →
      s.lineLevels = (decide (s.quarter = .second ∨ s.quarter = .third), true)) ∧
    (s.mftState = .rack →
      s.lineLevels =
        (decide (s.quarter = .second ∨ s.quarter = .third), decide (s.byteIdx.toNat + 1 = s.fLen.toNat)))

/-- What a tick of MFT does before a symbol ends (R150 to R154, R239 (3)). A timeout comes first; a clock line that is held
low where MFT has released it makes the tick count for nothing but the timer; a tick within a quarter is counted. At the
end of the second quarter the data line is sampled: a sent 1 read back as 0 is arbitration loss, a sent 0 is not checked;
a released acknowledge bit read as 1 is a NACK; what is read in a received bit is that bit; the master's own acknowledge
bit, the start and the stop condition are not sampled. That the timer is looked at in open slots only, after the tick is
counted and before the sampling, that the clock is waited for at the first tick of the quarter, and the counters
`quarter` and `qTick` themselves, are log entry 8 (DEDUCED); that a timeout may still strike after a NACK is log entry 28
(DEDUCED); that `shreg` and `bit_cnt` stay where nothing is shifted is log entry 30 (DESIGN CHOICE). -/
def Obligations.LineSampling : Prop :=
  ∀ s : State, s.ticking →
    (s.slotOpen = true → timeoutTicks s.params ≠ 0 → timeoutTicks s.params ≤ (s.tmoCnt + 1#32).toNat →
      step s = .next (advancePorts (runFailed .timeout s.slotPos [.X] { s with tmoCnt := s.tmoCnt + 1#32 }))) ∧
    (s.inTime → s.quarter = .second → s.qTick = 0 → s.mftState ≠ .start → s.sclIn = false →
      step s = .next (advancePorts { s with tmoCnt := s.tmoCnt + 1#32 })) ∧
    (s.inTime → s.clockUp → s.qTick + 1 < qbitTicks s.params →
      step s = .next (advancePorts { s with tmoCnt := s.tmoCnt + 1#32, qTick := s.qTick + 1 })) ∧
    (s.inTime → qbitTicks s.params ≤ s.qTick + 1 →
      (s.quarter = .first → step s = .next (advancePorts (nextQuarter .second s))) ∧
      (s.quarter = .third → step s = .next (advancePorts (nextQuarter .fourth s)))) ∧
    (s.inTime → s.clockUp → qbitTicks s.params ≤ s.qTick + 1 → s.quarter = .second →
      (s.mftState = .addr ∨ s.mftState = .tx → s.shreg.getLsbD 7 = true → s.sdaIn = false →
        step s = .next
          (advancePorts (runFailed .arbitration s.slotPos [.X] { s with tmoCnt := s.tmoCnt + 1#32, qTick := 0 }))) ∧
      (s.mftState = .addr ∨ s.mftState = .tx → s.shreg.getLsbD 7 = false ∨ s.sdaIn = true →
        step s = .next (advancePorts (nextQuarter .third s))) ∧
      (s.mftState = .aack ∨ s.mftState = .tack → s.sdaIn = true →
        step s = .next
          (advancePorts { nextQuarter .third s with mErrKind := .addressing, mErrPos := s.slotPos })) ∧
      (s.mftState = .aack ∨ s.mftState = .tack → s.sdaIn = false →
        step s = .next (advancePorts (nextQuarter .third s))) ∧
      (s.mftState = .rx →
        step s = .next
          (advancePorts
            { nextQuarter .third s with shreg := (s.shreg <<< 1) ||| (if s.sdaIn then 1#8 else 0#8) })) ∧
      (s.mftState = .rack ∨ s.mftState = .start ∨ s.mftState = .stop →
        step s = .next (advancePorts (nextQuarter .third s))))

/-- A bit of a byte being sent takes four quarters of `QBIT_TICKS` ticks with the levels of R150, bit 7 of the shift
register first (R66), and the register then holds the next bit, or the acknowledge bit follows the last; nobody else
holding a line, and no timeout. And what the last tick of every symbol does, whoever holds a line: the start condition
leads to the address byte (R123); a sent or received bit is one bit fewer, and the acknowledge bit follows the eighth; at
the end of an acknowledge bit the events of the slot are recorded, the byte received is stored, and the next byte is
taken from `txbuf` (R28, R125 to R129, R133, R134); the stop condition ends the frame (R130, R163, R172). The exact ticks
and the counters `quarter` and `qTick`, when the events are recorded and when a byte is taken from `txbuf` are log entry
8 (DEDUCED); the 0 shifted in behind a sent bit, `shreg` = 0 at the start of a read slot and the values of `bit_cnt` are
log entry 30 (DESIGN CHOICE); that `m_err_kind` and `m_err_pos` stay after the stop condition is log entry 29. -/
def Obligations.BitTakesFourQuarters : Prop :=
  (∀ s : State, s.level = .line → lineParamsOk s.params = true → s.seqState = .xfer ∨ s.seqState = .direct →
    s.mftState = .addr ∨ s.mftState = .tx → s.quarter = .first → s.qTick = 0 → s.params.timeoutMs = 0 →
    s.undisturbed → s.schedule = [] → s.ports.sclEnv = true → s.ports.sdaEnv = true →
    (∀ k, k < 4 * qbitTicks s.params → ∃ t, run k s = .next t ∧
      t.lineLevels =
        (decide (qbitTicks s.params ≤ k ∧ k < 3 * qbitTicks s.params), s.shreg.getLsbD 7)) ∧
    run (4 * qbitTicks s.params) s = .next
      { s with
        tmoCnt := s.tmoCnt + BitVec.ofNat 32 (4 * qbitTicks s.params), shreg := s.shreg <<< 1
        bitCnt := s.bitCnt - 1#4
        mftState :=
          if s.bitCnt = 1#4 then (if s.mftState = .addr then .aack else .tack) else s.mftState }) ∧
  ∀ s : State, s.ticking → s.inTime → s.quarter = .fourth → qbitTicks s.params ≤ s.qTick + 1 →
    (s.mftState = .start →
      step s = .next
        (advancePorts
          { nextQuarter .first s with
            trace := s.trace ++ [.S], mftState := .addr, shreg := addrByte s.fAddr s.fRw, bitCnt := 8#4 })) ∧
    (s.mftState = .addr ∨ s.mftState = .tx →
      step s = .next
        (advancePorts
          { nextQuarter .first s with
            shreg := s.shreg <<< 1, bitCnt := s.bitCnt - 1#4
            mftState :=
              if s.bitCnt = 1#4 then (if s.mftState = .addr then .aack else .tack) else s.mftState })) ∧
    (s.mftState = .aack → s.mErrKind = .none →
      (s.fRw = .write → ∀ b, Memory.read s.txbuf s.byteIdx.toNat = some b →
        step s = .next
          (advancePorts
            { nextQuarter .first s with
              trace := s.trace ++ [.TX (addrByte s.fAddr s.fRw), .AI .ack], mftState := .tx, shreg := b
              bitCnt := 8#4 })) ∧
      (s.fRw = .write → Memory.read s.txbuf s.byteIdx.toNat = none →
        step s = .fault (.unwrittenTxByte s.byteIdx.toNat)) ∧
      (s.fRw = .read →
        step s = .next
          (advancePorts
            { nextQuarter .first s with
              trace := s.trace ++ [.TX (addrByte s.fAddr s.fRw), .AI .ack], mftState := .rx, shreg := 0#8
              bitCnt := 8#4 }))) ∧
    (s.mftState = .aack → s.mErrKind ≠ .none →
      step s = .next
        (advancePorts
          { nextQuarter .first s with
            trace := s.trace ++ [.TX (addrByte s.fAddr s.fRw), .AI .nack], mftState := .stop })) ∧
    (s.mftState = .tack → ∀ b, Memory.read s.txbuf s.byteIdx.toNat = some b →
      (s.mErrKind ≠ .none →
        step s = .next
          (advancePorts
            { nextQuarter .first s with trace := s.trace ++ [.TX b, .AI .nack], mftState := .stop })) ∧
      (s.mErrKind = .none → s.byteIdx.toNat + 1 = s.fLen.toNat →
        step s = .next
          (advancePorts
            { nextQuarter .first s with
              trace := s.trace ++ [.TX b, .AI .ack], byteIdx := s.byteIdx + 1#9, mftState := .stop })) ∧
      (s.mErrKind = .none → s.byteIdx.toNat + 1 ≠ s.fLen.toNat →
        (∀ c, Memory.read s.txbuf (s.byteIdx + 1#9).toNat = some c →
          step s = .next
            (advancePorts
              { nextQuarter .first s with
                trace := s.trace ++ [.TX b, .AI .ack], byteIdx := s.byteIdx + 1#9, mftState := .tx, shreg := c
                bitCnt := 8#4 })) ∧
        (Memory.read s.txbuf (s.byteIdx + 1#9).toNat = none →
          step s = .fault (.unwrittenTxByte (s.byteIdx + 1#9).toNat)))) ∧
    (s.mftState = .tack → Memory.read s.txbuf s.byteIdx.toNat = none →
      step s = .fault (.unwrittenTxByte s.byteIdx.toNat)) ∧
    (s.mftState = .rx →
      step s = .next
        (advancePorts
          { nextQuarter .first s with
            bitCnt := s.bitCnt - 1#4, mftState := if s.bitCnt = 1#4 then .rack else .rx })) ∧
    (s.mftState = .rack →
      ∃ t, step s = .next (advancePorts t) ∧
        t =
          { nextQuarter .first s with
            trace :=
              s.trace ++ [.RX s.shreg, .AO (if s.byteIdx.toNat + 1 = s.fLen.toNat then .nack else .ack)]
            rxbuf := t.rxbuf, byteIdx := s.byteIdx + 1#9
            mftState := if s.byteIdx.toNat + 1 = s.fLen.toNat then .stop else .rx
            shreg := if s.byteIdx.toNat + 1 = s.fLen.toNat then s.shreg else 0#8
            bitCnt := if s.byteIdx.toNat + 1 = s.fLen.toNat then s.bitCnt else 8#4 } ∧
        Memory.read t.rxbuf s.byteIdx.toNat = some s.shreg ∧
        ∀ j, j ≠ s.byteIdx.toNat → Memory.read t.rxbuf j = Memory.read s.rxbuf j) ∧
    (s.mftState = .stop → s.mErrKind ≠ .none →
      step s = .next (advancePorts (runFailed s.mErrKind s.mErrPos [.P] (nextQuarter .first s)))) ∧
    (s.mftState = .stop → s.mErrKind = .none → s.seqState = .direct →
      step s = .next
        (advancePorts
          { nextQuarter .first s with
            trace := s.trace ++ [.P], mftState := .idle, done := true, seqState := .idle })) ∧
    (s.mftState = .stop → s.mErrKind = .none → s.seqState = .xfer →
      (s.pc ≠ 31#5 → stepDelay s.stepWordAt = 0#4 →
        step s = .next
          (advancePorts
            { nextQuarter .first s with
              trace := s.trace ++ [.P], mftState := .idle, pc := s.pc + 1#5, seqState := .fetch })) ∧
      (s.pc ≠ 31#5 → stepDelay s.stepWordAt ≠ 0#4 →
        step s = .next
          (advancePorts
            { nextQuarter .first s with
              trace := s.trace ++ [.P, .DLY (stepDelay s.stepWordAt).toNat], mftState := .idle, pc := s.pc + 1#5
              dlyCnt := BitVec.ofNat 32 ((stepDelay s.stepWordAt).toNat * (s.params.clkHz / 1000))
              seqState := .delay })) ∧
      (s.pc = 31#5 → step s = .refused .scriptOverrun))

/-! ### Frames: what an instruction leaves unchanged -/

/-- END, GO, REQ_WRITE, REQ_READ and RDR store to no byte of either buffer, emit no event and ask ENV nothing; END
changes `done` and `seq_state`; GO `sel`, `pc`, the status registers and `seq_state`; REQ the status registers,
`seq_state` and the transceiver registers a new frame operation sets; RDR `seq_state` and those (R121, R161, R163, R166,
R170). -/
def Obligations.FrameOfControlInstructions : Prop :=
  ∀ s t : State,
    (exec .endScript s = .next t → s.sameBuffers t ∧ s.sameSurroundings t ∧
      t = { s with done := t.done, seqState := t.seqState }) ∧
    (∀ sel, exec (.go sel) s = .next t → s.sameBuffers t ∧ s.sameSurroundings t ∧
      t =
        { s with
          sel := t.sel, pc := t.pc, done := t.done, failed := t.failed, errKind := t.errKind, errPos := t.errPos
          failStep := t.failStep, seqState := t.seqState }) ∧
    (∀ a len, exec (.reqWrite a len) s = .next t ∨ exec (.reqRead a len) s = .next t →
      s.sameBuffers t ∧ s.sameSurroundings t ∧
      t =
        { s with
          done := t.done, failed := t.failed, errKind := t.errKind, errPos := t.errPos, failStep := t.failStep
          seqState := t.seqState, fAddr := t.fAddr, fRw := t.fRw, fLen := t.fLen, byteIdx := t.byteIdx
          mErrKind := t.mErrKind, mErrPos := t.mErrPos, tmoCnt := t.tmoCnt, mftState := t.mftState
          quarter := t.quarter, qTick := t.qTick }) ∧
    ∀ a len d, exec (.rdr a len d) s = .next t → s.sameBuffers t ∧ s.sameSurroundings t ∧
      t =
        { s with
          seqState := t.seqState, fAddr := t.fAddr, fRw := t.fRw, fLen := t.fLen, byteIdx := t.byteIdx
          mErrKind := t.mErrKind, mErrPos := t.mErrPos, tmoCnt := t.tmoCnt, mftState := t.mftState
          quarter := t.quarter, qTick := t.qTick }

/-- WRC, WRD and WRR store to `txbuf[0 .. f_len-1]` and to no other byte; they emit no event and ask ENV nothing, and
change `seq_state` and the transceiver registers a new frame operation sets (R121, R165). -/
def Obligations.FrameOfWriteSteps : Prop :=
  ∀ (i : Instr) (s t : State),
    (∃ a len ptr d, i = .wrc a len ptr d ∨ i = .wrd a len d ∨ i = .wrr a len ptr d) → exec i s = .next t →
    (∀ j, t.fLen.toNat ≤ j → Memory.read t.txbuf j = Memory.read s.txbuf j) ∧
    (∀ j, Memory.read t.rxbuf j = Memory.read s.rxbuf j) ∧ s.sameSurroundings t ∧
    t =
      { s with
        txbuf := t.txbuf, seqState := t.seqState, fAddr := t.fAddr, fRw := t.fRw, fLen := t.fLen
        byteIdx := t.byteIdx, mErrKind := t.mErrKind, mErrPos := t.mErrPos, tmoCnt := t.tmoCnt
        mftState := t.mftState, quarter := t.quarter, qTick := t.qTick }

/-- WRITE, READ, CTRL_CMD and CTRL_DATA store to no byte of either buffer; `done`, `sel`, `pc`, `dly_cnt`, the operands of
the frame and the line-level counters stay, and `byte_idx` too for an address byte; only an error changes the status
registers and `seq_state` (R125 to R129, R137, R138, R235). This is said of the slot that `exec` is (log entry 23,
DEDUCED): the whole READ of R131 fills `rxbuf` in the slots after it. -/
def Obligations.FrameOfByteSlots : Prop :=
  ∀ (i : Instr) (s t : State),
    (∃ a, i = .write a ∨ i = .read a ∨ i = .ctrlCmd ∨ i = .ctrlData) → exec i s = .next t →
    s.sameBuffers t ∧ s.sameSurroundings t ∧
    t =
      { s with
        env := t.env, trace := t.trace, mftState := t.mftState, byteIdx := t.byteIdx, mErrKind := t.mErrKind
        mErrPos := t.mErrPos, failed := t.failed, errKind := t.errKind, errPos := t.errPos
        failStep := t.failStep, seqState := t.seqState } ∧
    ((∃ a, i = .write a ∨ i = .read a) → t.byteIdx = s.byteIdx) ∧
    (t.mftState ≠ .idle →
      t.failed = s.failed ∧ t.errKind = s.errKind ∧ t.errPos = s.errPos ∧ t.failStep = s.failStep ∧
        t.seqState = s.seqState)
end

