-- ==== Sys2Proof/Laws/Decode.lean ====
section
/-! SUPPORT. The fields of an assembled word are the fields it was assembled from. -/

namespace Sys2Proof

theorem stepKind_stepWord (k : BitVec 4) (a : BusAddr) (l : Count) (p : Byte) (d : BitVec 4) :
    stepKind (stepWord k a l p d) = k := by
  apply BitVec.eq_of_toNat_eq
  rw [stepKind, stepWord, BitVec.extractLsb'_toNat, Nat.shiftRight_eq_div_pow, BitVec.toNat_ofNat]
  have := k.isLt; have := a.isLt; have := l.isLt; have := p.isLt; have := d.isLt
  simp only [Nat.reducePow] at *
  omega

theorem stepAddr_stepWord (k : BitVec 4) (a : BusAddr) (l : Count) (p : Byte) (d : BitVec 4) :
    stepAddr (stepWord k a l p d) = a := by
  apply BitVec.eq_of_toNat_eq
  rw [stepAddr, stepWord, BitVec.extractLsb'_toNat, Nat.shiftRight_eq_div_pow, BitVec.toNat_ofNat]
  have := k.isLt; have := a.isLt; have := l.isLt; have := p.isLt; have := d.isLt
  simp only [Nat.reducePow] at *
  omega

theorem stepLen_stepWord (k : BitVec 4) (a : BusAddr) (l : Count) (p : Byte) (d : BitVec 4) :
    stepLen (stepWord k a l p d) = l := by
  apply BitVec.eq_of_toNat_eq
  rw [stepLen, stepWord, BitVec.extractLsb'_toNat, Nat.shiftRight_eq_div_pow, BitVec.toNat_ofNat]
  have := k.isLt; have := a.isLt; have := l.isLt; have := p.isLt; have := d.isLt
  simp only [Nat.reducePow] at *
  omega

theorem stepPtr_stepWord (k : BitVec 4) (a : BusAddr) (l : Count) (p : Byte) (d : BitVec 4) :
    stepPtr (stepWord k a l p d) = p := by
  apply BitVec.eq_of_toNat_eq
  rw [stepPtr, stepWord, BitVec.extractLsb'_toNat, Nat.shiftRight_eq_div_pow, BitVec.toNat_ofNat]
  have := k.isLt; have := a.isLt; have := l.isLt; have := p.isLt; have := d.isLt
  simp only [Nat.reducePow] at *
  omega

theorem stepDelay_stepWord (k : BitVec 4) (a : BusAddr) (l : Count) (p : Byte) (d : BitVec 4) :
    stepDelay (stepWord k a l p d) = d := by
  apply BitVec.eq_of_toNat_eq
  rw [stepDelay, stepWord, BitVec.extractLsb'_toNat, Nat.shiftRight_eq_div_pow, BitVec.toNat_ofNat]
  have := k.isLt; have := a.isLt; have := l.isLt; have := p.isLt; have := d.isLt
  simp only [Nat.reducePow] at *
  omega

theorem addrByte_toNat (a : BusAddr) (rw : Dir) : (addrByte a rw).toNat = 2 * a.toNat + rw.bit.toNat := by
  have := a.isLt
  cases rw <;> simp only [addrByte, Dir.bit, BitVec.toNat_ofNat, Nat.reducePow] at * <;> omega

theorem addrByte_addr (a : BusAddr) (rw : Dir) : (addrByte a rw).extractLsb' 1 7 = a := by
  apply BitVec.eq_of_toNat_eq
  rw [BitVec.extractLsb'_toNat, Nat.shiftRight_eq_div_pow, addrByte_toNat]
  have := a.isLt
  cases rw <;> simp only [Dir.bit, BitVec.toNat_ofNat, Nat.reducePow] at * <;> omega

theorem addrByte_dir (a : BusAddr) (rw : Dir) : dirOfBit ((addrByte a rw).extractLsb' 0 1) = rw := by
  have h : (addrByte a rw).extractLsb' 0 1 = rw.bit := by
    apply BitVec.eq_of_toNat_eq
    rw [BitVec.extractLsb'_toNat, Nat.shiftRight_eq_div_pow, addrByte_toNat]
    have := a.isLt
    cases rw <;> simp only [Dir.bit, BitVec.toNat_ofNat, Nat.reducePow] at * <;> omega
  rw [h]
  cases rw <;> rfl

/-- An address byte decodes to the frame operation it was assembled for. -/
theorem decodeAddr_addrByte_write (a : BusAddr) : decodeAddr (addrByte a .write) = .write a := by
  simp only [decodeAddr, addrByte_dir, addrByte_addr]

theorem decodeAddr_addrByte_read (a : BusAddr) : decodeAddr (addrByte a .read) = .read a := by
  simp only [decodeAddr, addrByte_dir, addrByte_addr]

theorem decodeGo_goWord (sel : Script) : decodeGo (goWord sel) = .ok (.go sel) := by cases sel <;> decide

theorem reqWord_toNat (rw : Dir) (a : BusAddr) (l : Count) :
    (reqWord rw a l).toNat = rw.bit.toNat * 0x10000 + a.toNat * 0x200 + l.toNat := by
  have := a.isLt; have := l.isLt
  cases rw <;> simp only [reqWord, Dir.bit, BitVec.toNat_ofNat, Nat.reducePow] at * <;> omega

theorem reqWord_fields (rw : Dir) (a : BusAddr) (l : Count) :
    dirOfBit ((reqWord rw a l).extractLsb' 16 1) = rw ∧ (reqWord rw a l).extractLsb' 9 7 = a ∧
      (reqWord rw a l).extractLsb' 0 9 = l := by
  have ha := a.isLt
  have hl := l.isLt
  refine ⟨?_, BitVec.eq_of_toNat_eq ?_, BitVec.eq_of_toNat_eq ?_⟩
  · have h : (reqWord rw a l).extractLsb' 16 1 = rw.bit := by
      apply BitVec.eq_of_toNat_eq
      rw [BitVec.extractLsb'_toNat, Nat.shiftRight_eq_div_pow, reqWord_toNat]
      cases rw <;> simp only [Dir.bit, BitVec.toNat_ofNat, Nat.reducePow] at * <;> omega
    rw [h]
    cases rw <;> rfl
  · rw [BitVec.extractLsb'_toNat, Nat.shiftRight_eq_div_pow, reqWord_toNat]
    cases rw <;> simp only [Dir.bit, BitVec.toNat_ofNat, Nat.reducePow] at * <;> omega
  · rw [BitVec.extractLsb'_toNat, Nat.shiftRight_eq_div_pow, reqWord_toNat]
    cases rw <;> simp only [Dir.bit, BitVec.toNat_ofNat, Nat.reducePow] at * <;> omega

theorem decodeReq_write (a : BusAddr) (l : Count) : decodeReq (reqWord .write a l) = .reqWrite a l := by
  obtain ⟨h1, h2, h3⟩ := reqWord_fields .write a l
  simp only [decodeReq, h1, h2, h3]

theorem decodeReq_read (a : BusAddr) (l : Count) : decodeReq (reqWord .read a l) = .reqRead a l := by
  obtain ⟨h1, h2, h3⟩ := reqWord_fields .read a l
  simp only [decodeReq, h1, h2, h3]

/-- What `decodeStep` answers, by the kind of the word: an instruction for 0 to 4, a rejection for the others. -/
theorem decodeStep_cases (w : StepWord) :
    ((stepKind w).toNat = 0 ∧ decodeStep w = .ok .endScript) ∨
    ((stepKind w).toNat = 1 ∧ decodeStep w = .ok (.wrc (stepAddr w) (stepLen w) (stepPtr w) (stepDelay w))) ∨
    ((stepKind w).toNat = 2 ∧ decodeStep w = .ok (.wrd (stepAddr w) (stepLen w) (stepDelay w))) ∨
    ((stepKind w).toNat = 3 ∧ decodeStep w = .ok (.wrr (stepAddr w) (stepLen w) (stepPtr w) (stepDelay w))) ∨
    ((stepKind w).toNat = 4 ∧ decodeStep w = .ok (.rdr (stepAddr w) (stepLen w) (stepDelay w))) ∨
    (5 ≤ (stepKind w).toNat ∧ decodeStep w = .error (.reservedKind (stepKind w))) := by
  unfold decodeStep
  split <;> simp_all
  omega

/-- The direction bit of an address byte (R91). -/
theorem addrByte_bit (a : BusAddr) (rw : Dir) : (addrByte a rw).extractLsb' 0 1 = rw.bit := by
  apply BitVec.eq_of_toNat_eq
  rw [BitVec.extractLsb'_toNat, Nat.shiftRight_eq_div_pow, addrByte_toNat]
  have := a.isLt
  cases rw <;> simp only [Dir.bit, BitVec.toNat_ofNat, Nat.reducePow] at * <;> omega

/-- The direction bit of a request (R99). -/
theorem reqWord_bit (rw : Dir) (a : BusAddr) (n : Count) : (reqWord rw a n).extractLsb' 16 1 = rw.bit := by
  apply BitVec.eq_of_toNat_eq
  rw [BitVec.extractLsb'_toNat, Nat.shiftRight_eq_div_pow, reqWord, BitVec.toNat_ofNat]
  have := a.isLt; have := n.isLt
  cases rw <;> simp only [Dir.bit, BitVec.toNat_ofNat, Nat.reducePow] at * <;> omega

end Sys2Proof
end

