-- ==== Sys2Proof/Laws/Memory.lean ====
section
/-! SUPPORT. The laws of a buffer: what a read gives after a write, and that every operation keeps the canonical form. -/

namespace Sys2Proof.Machine

open Sys2Proof

theorem read_write_same (m : Memory) (a : Nat) (b : Byte) : Memory.read (Memory.write m a b) a = some b := by
  induction m with
  | nil => simp [Memory.write, Memory.read]
  | cons c m ih =>
    obtain ⟨k, v⟩ := c
    simp only [Memory.write]
    split
    · simp [Memory.read]
    · split
      · simp [Memory.read]
      · next h => simp [Memory.read, Ne.symm h, ih]

theorem read_write_other (m : Memory) (a c : Nat) (b : Byte) (h : c ≠ a) :
    Memory.read (Memory.write m a b) c = Memory.read m c := by
  induction m with
  | nil => simp [Memory.write, Memory.read, Ne.symm h]
  | cons x m ih =>
    obtain ⟨k, v⟩ := x
    simp only [Memory.write]
    split
    · simp [Memory.read, Ne.symm h]
    · split
      · next hk => simp [Memory.read, Ne.symm h, ← hk]
      · simp [Memory.read, ih]

/-- Every cell of a buffer after a write was there before or is the one written. -/
theorem mem_write {m : Memory} {a : Nat} {b : Byte} {c : Host.Cell} (h : c ∈ Memory.write m a b) :
    c = (a, b) ∨ c ∈ m := by
  induction m with
  | nil => simpa [Memory.write] using h
  | cons x m ih =>
    obtain ⟨k, v⟩ := x
    simp only [Memory.write] at h
    split at h
    · simpa using h
    · split at h
      · simp only [List.mem_cons] at h ⊢
        tauto
      · simp only [List.mem_cons] at h ⊢
        rcases h with h | h
        · exact .inr (.inl h)
        · rcases ih h with h | h
          · exact .inl h
          · exact .inr (.inr h)

theorem write_wf {m : Memory} {a : Nat} {b : Byte} (hm : Memory.wf m) (ha : a < Config.bufCap) :
    Memory.wf (Memory.write m a b) := by
  refine ⟨?_, fun c hc => ?_⟩
  · obtain ⟨hm, -⟩ := hm
    induction m with
    | nil => simp [Memory.write]
    | cons x m ih =>
      obtain ⟨k, v⟩ := x
      rw [List.pairwise_cons] at hm
      simp only [Memory.write]
      split
      · next h =>
        refine List.pairwise_cons.2 ⟨fun c hc => ?_, List.pairwise_cons.2 hm⟩
        rcases List.mem_cons.1 hc with rfl | hc
        · exact h
        · exact h.trans (hm.1 c hc)
      · next h =>
        split
        · next hk => exact List.pairwise_cons.2 ⟨fun c hc => by simpa [hk] using hm.1 c hc, hm.2⟩
        · next hk =>
          refine List.pairwise_cons.2 ⟨fun c hc => ?_, ih hm.2⟩
          rcases mem_write hc with rfl | hc
          · exact lt_of_le_of_ne (not_lt.1 h) (Ne.symm hk)
          · exact hm.1 c hc
  · rcases mem_write hc with rfl | hc
    · exact ha
    · exact hm.2 c hc

/-- What `writeFrom` does to one byte: the bytes of `d` stand from `a` on, and every other byte is as before. -/
theorem read_writeFrom (d : List Byte) : ∀ (m : Memory) (a c : Nat),
    Memory.read (Memory.writeFrom m a d) c =
      if a ≤ c ∧ c < a + d.length then d[c - a]? else Memory.read m c := by
  induction d with
  | nil =>
    intro m a c
    have : ¬(a ≤ c ∧ c < a + 0) := by omega
    simp only [Memory.writeFrom, List.length_nil, if_neg this]
  | cons b d ih =>
    intro m a c
    simp only [Memory.writeFrom, ih, List.length_cons]
    by_cases hc : c = a
    · subst hc
      simp [read_write_same]
    · rw [read_write_other m a c b hc]
      by_cases h : a + 1 ≤ c ∧ c < a + 1 + d.length
      · have h2 : a ≤ c ∧ c < a + (d.length + 1) := by omega
        have h3 : c - a = (c - (a + 1)) + 1 := by omega
        rw [if_pos h, if_pos h2, h3, List.getElem?_cons_succ]
      · have h2 : ¬(a ≤ c ∧ c < a + (d.length + 1)) := by omega
        rw [if_neg h, if_neg h2]

theorem writeFrom_wf (d : List Byte) : ∀ {m : Memory} {a : Nat}, Memory.wf m → a + d.length ≤ Config.bufCap →
    Memory.wf (Memory.writeFrom m a d) := by
  induction d with
  | nil => intro m a h _; exact h
  | cons b d ih =>
    intro m a h hl
    simp only [List.length_cons] at hl
    exact ih (write_wf h (by omega)) (by omega)

theorem reset_memory_wf : Memory.wf State.reset.txbuf ∧ Memory.wf State.reset.rxbuf := by decide

end Sys2Proof.Machine
end

