-- ==== Sys2Proof/Laws/State.lean ====
section
/-! SUPPORT. One lemma per field for each named update of the state, so that no later proof unfolds a record update. -/

namespace Sys2Proof.Machine

open Sys2Proof

/-! ### `clearStatus` -/

@[simp] theorem clearStatus_seqState (s : State) : (clearStatus s).seqState = s.seqState := rfl
@[simp] theorem clearStatus_sel (s : State) : (clearStatus s).sel = s.sel := rfl
@[simp] theorem clearStatus_pc (s : State) : (clearStatus s).pc = s.pc := rfl
@[simp] theorem clearStatus_dlyCnt (s : State) : (clearStatus s).dlyCnt = s.dlyCnt := rfl
@[simp] theorem clearStatus_done (s : State) : (clearStatus s).done = false := rfl
@[simp] theorem clearStatus_failed (s : State) : (clearStatus s).failed = false := rfl
@[simp] theorem clearStatus_errKind (s : State) : (clearStatus s).errKind = .none := rfl
@[simp] theorem clearStatus_errPos (s : State) : (clearStatus s).errPos = 0#9 := rfl
@[simp] theorem clearStatus_failStep (s : State) : (clearStatus s).failStep = 0#5 := rfl
@[simp] theorem clearStatus_mftState (s : State) : (clearStatus s).mftState = s.mftState := rfl
@[simp] theorem clearStatus_fAddr (s : State) : (clearStatus s).fAddr = s.fAddr := rfl
@[simp] theorem clearStatus_fRw (s : State) : (clearStatus s).fRw = s.fRw := rfl
@[simp] theorem clearStatus_fLen (s : State) : (clearStatus s).fLen = s.fLen := rfl
@[simp] theorem clearStatus_byteIdx (s : State) : (clearStatus s).byteIdx = s.byteIdx := rfl
@[simp] theorem clearStatus_bitCnt (s : State) : (clearStatus s).bitCnt = s.bitCnt := rfl
@[simp] theorem clearStatus_shreg (s : State) : (clearStatus s).shreg = s.shreg := rfl
@[simp] theorem clearStatus_tmoCnt (s : State) : (clearStatus s).tmoCnt = s.tmoCnt := rfl
@[simp] theorem clearStatus_mErrKind (s : State) : (clearStatus s).mErrKind = s.mErrKind := rfl
@[simp] theorem clearStatus_mErrPos (s : State) : (clearStatus s).mErrPos = s.mErrPos := rfl
@[simp] theorem clearStatus_txbuf (s : State) : (clearStatus s).txbuf = s.txbuf := rfl
@[simp] theorem clearStatus_rxbuf (s : State) : (clearStatus s).rxbuf = s.rxbuf := rfl
@[simp] theorem clearStatus_quarter (s : State) : (clearStatus s).quarter = s.quarter := rfl
@[simp] theorem clearStatus_qTick (s : State) : (clearStatus s).qTick = s.qTick := rfl
@[simp] theorem clearStatus_scriptRom (s : State) : (clearStatus s).scriptRom = s.scriptRom := rfl
@[simp] theorem clearStatus_byteRom (s : State) : (clearStatus s).byteRom = s.byteRom := rfl
@[simp] theorem clearStatus_params (s : State) : (clearStatus s).params = s.params := rfl
@[simp] theorem clearStatus_level (s : State) : (clearStatus s).level = s.level := rfl
@[simp] theorem clearStatus_trace (s : State) : (clearStatus s).trace = s.trace := rfl
@[simp] theorem clearStatus_env (s : State) : (clearStatus s).env = s.env := rfl
@[simp] theorem clearStatus_ports (s : State) : (clearStatus s).ports = s.ports := rfl
@[simp] theorem clearStatus_schedule (s : State) : (clearStatus s).schedule = s.schedule := rfl

/-! ### `runDone` -/

@[simp] theorem runDone_seqState (s : State) : (runDone s).seqState = .idle := rfl
@[simp] theorem runDone_sel (s : State) : (runDone s).sel = s.sel := rfl
@[simp] theorem runDone_pc (s : State) : (runDone s).pc = s.pc := rfl
@[simp] theorem runDone_dlyCnt (s : State) : (runDone s).dlyCnt = s.dlyCnt := rfl
@[simp] theorem runDone_done (s : State) : (runDone s).done = true := rfl
@[simp] theorem runDone_failed (s : State) : (runDone s).failed = s.failed := rfl
@[simp] theorem runDone_errKind (s : State) : (runDone s).errKind = s.errKind := rfl
@[simp] theorem runDone_errPos (s : State) : (runDone s).errPos = s.errPos := rfl
@[simp] theorem runDone_failStep (s : State) : (runDone s).failStep = s.failStep := rfl
@[simp] theorem runDone_mftState (s : State) : (runDone s).mftState = s.mftState := rfl
@[simp] theorem runDone_fAddr (s : State) : (runDone s).fAddr = s.fAddr := rfl
@[simp] theorem runDone_fRw (s : State) : (runDone s).fRw = s.fRw := rfl
@[simp] theorem runDone_fLen (s : State) : (runDone s).fLen = s.fLen := rfl
@[simp] theorem runDone_byteIdx (s : State) : (runDone s).byteIdx = s.byteIdx := rfl
@[simp] theorem runDone_bitCnt (s : State) : (runDone s).bitCnt = s.bitCnt := rfl
@[simp] theorem runDone_shreg (s : State) : (runDone s).shreg = s.shreg := rfl
@[simp] theorem runDone_tmoCnt (s : State) : (runDone s).tmoCnt = s.tmoCnt := rfl
@[simp] theorem runDone_mErrKind (s : State) : (runDone s).mErrKind = s.mErrKind := rfl
@[simp] theorem runDone_mErrPos (s : State) : (runDone s).mErrPos = s.mErrPos := rfl
@[simp] theorem runDone_txbuf (s : State) : (runDone s).txbuf = s.txbuf := rfl
@[simp] theorem runDone_rxbuf (s : State) : (runDone s).rxbuf = s.rxbuf := rfl
@[simp] theorem runDone_quarter (s : State) : (runDone s).quarter = s.quarter := rfl
@[simp] theorem runDone_qTick (s : State) : (runDone s).qTick = s.qTick := rfl
@[simp] theorem runDone_scriptRom (s : State) : (runDone s).scriptRom = s.scriptRom := rfl
@[simp] theorem runDone_byteRom (s : State) : (runDone s).byteRom = s.byteRom := rfl
@[simp] theorem runDone_params (s : State) : (runDone s).params = s.params := rfl
@[simp] theorem runDone_level (s : State) : (runDone s).level = s.level := rfl
@[simp] theorem runDone_trace (s : State) : (runDone s).trace = s.trace := rfl
@[simp] theorem runDone_env (s : State) : (runDone s).env = s.env := rfl
@[simp] theorem runDone_ports (s : State) : (runDone s).ports = s.ports := rfl
@[simp] theorem runDone_schedule (s : State) : (runDone s).schedule = s.schedule := rfl

/-! ### `loadFrame` -/

@[simp] theorem loadFrame_seqState (d : List Byte) (s : State) : (loadFrame d s).seqState = s.seqState := rfl
@[simp] theorem loadFrame_sel (d : List Byte) (s : State) : (loadFrame d s).sel = s.sel := rfl
@[simp] theorem loadFrame_pc (d : List Byte) (s : State) : (loadFrame d s).pc = s.pc := rfl
@[simp] theorem loadFrame_dlyCnt (d : List Byte) (s : State) : (loadFrame d s).dlyCnt = s.dlyCnt := rfl
@[simp] theorem loadFrame_done (d : List Byte) (s : State) : (loadFrame d s).done = s.done := rfl
@[simp] theorem loadFrame_failed (d : List Byte) (s : State) : (loadFrame d s).failed = s.failed := rfl
@[simp] theorem loadFrame_errKind (d : List Byte) (s : State) : (loadFrame d s).errKind = s.errKind := rfl
@[simp] theorem loadFrame_errPos (d : List Byte) (s : State) : (loadFrame d s).errPos = s.errPos := rfl
@[simp] theorem loadFrame_failStep (d : List Byte) (s : State) : (loadFrame d s).failStep = s.failStep := rfl
@[simp] theorem loadFrame_mftState (d : List Byte) (s : State) : (loadFrame d s).mftState = s.mftState := rfl
@[simp] theorem loadFrame_fAddr (d : List Byte) (s : State) : (loadFrame d s).fAddr = s.fAddr := rfl
@[simp] theorem loadFrame_fRw (d : List Byte) (s : State) : (loadFrame d s).fRw = s.fRw := rfl
@[simp] theorem loadFrame_fLen (d : List Byte) (s : State) : (loadFrame d s).fLen = s.fLen := rfl
@[simp] theorem loadFrame_byteIdx (d : List Byte) (s : State) : (loadFrame d s).byteIdx = s.byteIdx := rfl
@[simp] theorem loadFrame_bitCnt (d : List Byte) (s : State) : (loadFrame d s).bitCnt = s.bitCnt := rfl
@[simp] theorem loadFrame_shreg (d : List Byte) (s : State) : (loadFrame d s).shreg = s.shreg := rfl
@[simp] theorem loadFrame_tmoCnt (d : List Byte) (s : State) : (loadFrame d s).tmoCnt = s.tmoCnt := rfl
@[simp] theorem loadFrame_mErrKind (d : List Byte) (s : State) : (loadFrame d s).mErrKind = s.mErrKind := rfl
@[simp] theorem loadFrame_mErrPos (d : List Byte) (s : State) : (loadFrame d s).mErrPos = s.mErrPos := rfl
@[simp] theorem loadFrame_txbuf (d : List Byte) (s : State) :
    (loadFrame d s).txbuf = Memory.writeFrom s.txbuf 0 d := rfl
@[simp] theorem loadFrame_rxbuf (d : List Byte) (s : State) : (loadFrame d s).rxbuf = s.rxbuf := rfl
@[simp] theorem loadFrame_quarter (d : List Byte) (s : State) : (loadFrame d s).quarter = s.quarter := rfl
@[simp] theorem loadFrame_qTick (d : List Byte) (s : State) : (loadFrame d s).qTick = s.qTick := rfl
@[simp] theorem loadFrame_scriptRom (d : List Byte) (s : State) : (loadFrame d s).scriptRom = s.scriptRom := rfl
@[simp] theorem loadFrame_byteRom (d : List Byte) (s : State) : (loadFrame d s).byteRom = s.byteRom := rfl
@[simp] theorem loadFrame_params (d : List Byte) (s : State) : (loadFrame d s).params = s.params := rfl
@[simp] theorem loadFrame_level (d : List Byte) (s : State) : (loadFrame d s).level = s.level := rfl
@[simp] theorem loadFrame_trace (d : List Byte) (s : State) : (loadFrame d s).trace = s.trace := rfl
@[simp] theorem loadFrame_env (d : List Byte) (s : State) : (loadFrame d s).env = s.env := rfl
@[simp] theorem loadFrame_ports (d : List Byte) (s : State) : (loadFrame d s).ports = s.ports := rfl
@[simp] theorem loadFrame_schedule (d : List Byte) (s : State) : (loadFrame d s).schedule = s.schedule := rfl

/-! ### `emit` -/

@[simp] theorem emit_seqState (es : List Event) (s : State) : (emit es s).seqState = s.seqState := rfl
@[simp] theorem emit_sel (es : List Event) (s : State) : (emit es s).sel = s.sel := rfl
@[simp] theorem emit_pc (es : List Event) (s : State) : (emit es s).pc = s.pc := rfl
@[simp] theorem emit_dlyCnt (es : List Event) (s : State) : (emit es s).dlyCnt = s.dlyCnt := rfl
@[simp] theorem emit_done (es : List Event) (s : State) : (emit es s).done = s.done := rfl
@[simp] theorem emit_failed (es : List Event) (s : State) : (emit es s).failed = s.failed := rfl
@[simp] theorem emit_errKind (es : List Event) (s : State) : (emit es s).errKind = s.errKind := rfl
@[simp] theorem emit_errPos (es : List Event) (s : State) : (emit es s).errPos = s.errPos := rfl
@[simp] theorem emit_failStep (es : List Event) (s : State) : (emit es s).failStep = s.failStep := rfl
@[simp] theorem emit_mftState (es : List Event) (s : State) : (emit es s).mftState = s.mftState := rfl
@[simp] theorem emit_fAddr (es : List Event) (s : State) : (emit es s).fAddr = s.fAddr := rfl
@[simp] theorem emit_fRw (es : List Event) (s : State) : (emit es s).fRw = s.fRw := rfl
@[simp] theorem emit_fLen (es : List Event) (s : State) : (emit es s).fLen = s.fLen := rfl
@[simp] theorem emit_byteIdx (es : List Event) (s : State) : (emit es s).byteIdx = s.byteIdx := rfl
@[simp] theorem emit_bitCnt (es : List Event) (s : State) : (emit es s).bitCnt = s.bitCnt := rfl
@[simp] theorem emit_shreg (es : List Event) (s : State) : (emit es s).shreg = s.shreg := rfl
@[simp] theorem emit_tmoCnt (es : List Event) (s : State) : (emit es s).tmoCnt = s.tmoCnt := rfl
@[simp] theorem emit_mErrKind (es : List Event) (s : State) : (emit es s).mErrKind = s.mErrKind := rfl
@[simp] theorem emit_mErrPos (es : List Event) (s : State) : (emit es s).mErrPos = s.mErrPos := rfl
@[simp] theorem emit_txbuf (es : List Event) (s : State) : (emit es s).txbuf = s.txbuf := rfl
@[simp] theorem emit_rxbuf (es : List Event) (s : State) : (emit es s).rxbuf = s.rxbuf := rfl
@[simp] theorem emit_quarter (es : List Event) (s : State) : (emit es s).quarter = s.quarter := rfl
@[simp] theorem emit_qTick (es : List Event) (s : State) : (emit es s).qTick = s.qTick := rfl
@[simp] theorem emit_scriptRom (es : List Event) (s : State) : (emit es s).scriptRom = s.scriptRom := rfl
@[simp] theorem emit_byteRom (es : List Event) (s : State) : (emit es s).byteRom = s.byteRom := rfl
@[simp] theorem emit_params (es : List Event) (s : State) : (emit es s).params = s.params := rfl
@[simp] theorem emit_level (es : List Event) (s : State) : (emit es s).level = s.level := rfl
@[simp] theorem emit_trace (es : List Event) (s : State) : (emit es s).trace = s.trace ++ es := rfl
@[simp] theorem emit_env (es : List Event) (s : State) : (emit es s).env = s.env := rfl
@[simp] theorem emit_ports (es : List Event) (s : State) : (emit es s).ports = s.ports := rfl
@[simp] theorem emit_schedule (es : List Event) (s : State) : (emit es s).schedule = s.schedule := rfl

/-! ### `abortRun` -/

@[simp] theorem abortRun_seqState (k : ErrKind) (pos : Count) (s : State) : (abortRun k pos s).seqState = .idle := rfl
@[simp] theorem abortRun_sel (k : ErrKind) (pos : Count) (s : State) : (abortRun k pos s).sel = s.sel := rfl
@[simp] theorem abortRun_pc (k : ErrKind) (pos : Count) (s : State) : (abortRun k pos s).pc = s.pc := rfl
@[simp] theorem abortRun_dlyCnt (k : ErrKind) (pos : Count) (s : State) : (abortRun k pos s).dlyCnt = s.dlyCnt := rfl
@[simp] theorem abortRun_done (k : ErrKind) (pos : Count) (s : State) : (abortRun k pos s).done = s.done := rfl
@[simp] theorem abortRun_failed (k : ErrKind) (pos : Count) (s : State) : (abortRun k pos s).failed = true := rfl
@[simp] theorem abortRun_errKind (k : ErrKind) (pos : Count) (s : State) : (abortRun k pos s).errKind = k := rfl
@[simp] theorem abortRun_errPos (k : ErrKind) (pos : Count) (s : State) : (abortRun k pos s).errPos = pos := rfl
@[simp] theorem abortRun_failStep (k : ErrKind) (pos : Count) (s : State) :
    (abortRun k pos s).failStep = failStepOf s := rfl
@[simp] theorem abortRun_mftState (k : ErrKind) (pos : Count) (s : State) : (abortRun k pos s).mftState = .idle := rfl
@[simp] theorem abortRun_fAddr (k : ErrKind) (pos : Count) (s : State) : (abortRun k pos s).fAddr = s.fAddr := rfl
@[simp] theorem abortRun_fRw (k : ErrKind) (pos : Count) (s : State) : (abortRun k pos s).fRw = s.fRw := rfl
@[simp] theorem abortRun_fLen (k : ErrKind) (pos : Count) (s : State) : (abortRun k pos s).fLen = s.fLen := rfl
@[simp] theorem abortRun_byteIdx (k : ErrKind) (pos : Count) (s : State) :
    (abortRun k pos s).byteIdx = s.byteIdx := rfl
@[simp] theorem abortRun_bitCnt (k : ErrKind) (pos : Count) (s : State) : (abortRun k pos s).bitCnt = s.bitCnt := rfl
@[simp] theorem abortRun_shreg (k : ErrKind) (pos : Count) (s : State) : (abortRun k pos s).shreg = s.shreg := rfl
@[simp] theorem abortRun_tmoCnt (k : ErrKind) (pos : Count) (s : State) : (abortRun k pos s).tmoCnt = s.tmoCnt := rfl
@[simp] theorem abortRun_mErrKind (k : ErrKind) (pos : Count) (s : State) :
    (abortRun k pos s).mErrKind = s.mErrKind := rfl
@[simp] theorem abortRun_mErrPos (k : ErrKind) (pos : Count) (s : State) :
    (abortRun k pos s).mErrPos = s.mErrPos := rfl
@[simp] theorem abortRun_txbuf (k : ErrKind) (pos : Count) (s : State) : (abortRun k pos s).txbuf = s.txbuf := rfl
@[simp] theorem abortRun_rxbuf (k : ErrKind) (pos : Count) (s : State) : (abortRun k pos s).rxbuf = s.rxbuf := rfl
@[simp] theorem abortRun_quarter (k : ErrKind) (pos : Count) (s : State) :
    (abortRun k pos s).quarter = s.quarter := rfl
@[simp] theorem abortRun_qTick (k : ErrKind) (pos : Count) (s : State) : (abortRun k pos s).qTick = s.qTick := rfl
@[simp] theorem abortRun_scriptRom (k : ErrKind) (pos : Count) (s : State) :
    (abortRun k pos s).scriptRom = s.scriptRom := rfl
@[simp] theorem abortRun_byteRom (k : ErrKind) (pos : Count) (s : State) :
    (abortRun k pos s).byteRom = s.byteRom := rfl
@[simp] theorem abortRun_params (k : ErrKind) (pos : Count) (s : State) : (abortRun k pos s).params = s.params := rfl
@[simp] theorem abortRun_level (k : ErrKind) (pos : Count) (s : State) : (abortRun k pos s).level = s.level := rfl
@[simp] theorem abortRun_trace (k : ErrKind) (pos : Count) (s : State) : (abortRun k pos s).trace = s.trace := rfl
@[simp] theorem abortRun_env (k : ErrKind) (pos : Count) (s : State) : (abortRun k pos s).env = s.env := rfl
@[simp] theorem abortRun_ports (k : ErrKind) (pos : Count) (s : State) : (abortRun k pos s).ports = s.ports := rfl
@[simp] theorem abortRun_schedule (k : ErrKind) (pos : Count) (s : State) :
    (abortRun k pos s).schedule = s.schedule := rfl

/-! ### `abandon` -/

@[simp] theorem abandon_seqState (k : ErrKind) (pos : Count) (s : State) : (abandon k pos s).seqState = .idle := rfl
@[simp] theorem abandon_sel (k : ErrKind) (pos : Count) (s : State) : (abandon k pos s).sel = s.sel := rfl
@[simp] theorem abandon_pc (k : ErrKind) (pos : Count) (s : State) : (abandon k pos s).pc = s.pc := rfl
@[simp] theorem abandon_dlyCnt (k : ErrKind) (pos : Count) (s : State) : (abandon k pos s).dlyCnt = s.dlyCnt := rfl
@[simp] theorem abandon_done (k : ErrKind) (pos : Count) (s : State) : (abandon k pos s).done = s.done := rfl
@[simp] theorem abandon_failed (k : ErrKind) (pos : Count) (s : State) : (abandon k pos s).failed = true := rfl
@[simp] theorem abandon_errKind (k : ErrKind) (pos : Count) (s : State) : (abandon k pos s).errKind = k := rfl
@[simp] theorem abandon_errPos (k : ErrKind) (pos : Count) (s : State) : (abandon k pos s).errPos = pos := rfl
@[simp] theorem abandon_failStep (k : ErrKind) (pos : Count) (s : State) :
    (abandon k pos s).failStep = failStepOf s := rfl
@[simp] theorem abandon_mftState (k : ErrKind) (pos : Count) (s : State) : (abandon k pos s).mftState = .idle := rfl
@[simp] theorem abandon_fAddr (k : ErrKind) (pos : Count) (s : State) : (abandon k pos s).fAddr = s.fAddr := rfl
@[simp] theorem abandon_fRw (k : ErrKind) (pos : Count) (s : State) : (abandon k pos s).fRw = s.fRw := rfl
@[simp] theorem abandon_fLen (k : ErrKind) (pos : Count) (s : State) : (abandon k pos s).fLen = s.fLen := rfl
@[simp] theorem abandon_byteIdx (k : ErrKind) (pos : Count) (s : State) : (abandon k pos s).byteIdx = s.byteIdx := rfl
@[simp] theorem abandon_bitCnt (k : ErrKind) (pos : Count) (s : State) : (abandon k pos s).bitCnt = s.bitCnt := rfl
@[simp] theorem abandon_shreg (k : ErrKind) (pos : Count) (s : State) : (abandon k pos s).shreg = s.shreg := rfl
@[simp] theorem abandon_tmoCnt (k : ErrKind) (pos : Count) (s : State) : (abandon k pos s).tmoCnt = s.tmoCnt := rfl
@[simp] theorem abandon_mErrKind (k : ErrKind) (pos : Count) (s : State) :
    (abandon k pos s).mErrKind = s.mErrKind := rfl
@[simp] theorem abandon_mErrPos (k : ErrKind) (pos : Count) (s : State) : (abandon k pos s).mErrPos = s.mErrPos := rfl
@[simp] theorem abandon_txbuf (k : ErrKind) (pos : Count) (s : State) : (abandon k pos s).txbuf = s.txbuf := rfl
@[simp] theorem abandon_rxbuf (k : ErrKind) (pos : Count) (s : State) : (abandon k pos s).rxbuf = s.rxbuf := rfl
@[simp] theorem abandon_quarter (k : ErrKind) (pos : Count) (s : State) : (abandon k pos s).quarter = s.quarter := rfl
@[simp] theorem abandon_qTick (k : ErrKind) (pos : Count) (s : State) : (abandon k pos s).qTick = s.qTick := rfl
@[simp] theorem abandon_scriptRom (k : ErrKind) (pos : Count) (s : State) :
    (abandon k pos s).scriptRom = s.scriptRom := rfl
@[simp] theorem abandon_byteRom (k : ErrKind) (pos : Count) (s : State) : (abandon k pos s).byteRom = s.byteRom := rfl
@[simp] theorem abandon_params (k : ErrKind) (pos : Count) (s : State) : (abandon k pos s).params = s.params := rfl
@[simp] theorem abandon_level (k : ErrKind) (pos : Count) (s : State) : (abandon k pos s).level = s.level := rfl
@[simp] theorem abandon_trace (k : ErrKind) (pos : Count) (s : State) :
    (abandon k pos s).trace = s.trace ++ [.X] := rfl
@[simp] theorem abandon_env (k : ErrKind) (pos : Count) (s : State) : (abandon k pos s).env = s.env := rfl
@[simp] theorem abandon_ports (k : ErrKind) (pos : Count) (s : State) : (abandon k pos s).ports = s.ports := rfl
@[simp] theorem abandon_schedule (k : ErrKind) (pos : Count) (s : State) :
    (abandon k pos s).schedule = s.schedule := rfl

/-! ### `leaveDelay` -/

@[simp] theorem leaveDelay_seqState (s : State) : (leaveDelay s).seqState = .fetch := rfl
@[simp] theorem leaveDelay_sel (s : State) : (leaveDelay s).sel = s.sel := rfl
@[simp] theorem leaveDelay_pc (s : State) : (leaveDelay s).pc = s.pc := rfl
@[simp] theorem leaveDelay_dlyCnt (s : State) : (leaveDelay s).dlyCnt = 0#32 := rfl
@[simp] theorem leaveDelay_done (s : State) : (leaveDelay s).done = s.done := rfl
@[simp] theorem leaveDelay_failed (s : State) : (leaveDelay s).failed = s.failed := rfl
@[simp] theorem leaveDelay_errKind (s : State) : (leaveDelay s).errKind = s.errKind := rfl
@[simp] theorem leaveDelay_errPos (s : State) : (leaveDelay s).errPos = s.errPos := rfl
@[simp] theorem leaveDelay_failStep (s : State) : (leaveDelay s).failStep = s.failStep := rfl
@[simp] theorem leaveDelay_mftState (s : State) : (leaveDelay s).mftState = s.mftState := rfl
@[simp] theorem leaveDelay_fAddr (s : State) : (leaveDelay s).fAddr = s.fAddr := rfl
@[simp] theorem leaveDelay_fRw (s : State) : (leaveDelay s).fRw = s.fRw := rfl
@[simp] theorem leaveDelay_fLen (s : State) : (leaveDelay s).fLen = s.fLen := rfl
@[simp] theorem leaveDelay_byteIdx (s : State) : (leaveDelay s).byteIdx = s.byteIdx := rfl
@[simp] theorem leaveDelay_bitCnt (s : State) : (leaveDelay s).bitCnt = s.bitCnt := rfl
@[simp] theorem leaveDelay_shreg (s : State) : (leaveDelay s).shreg = s.shreg := rfl
@[simp] theorem leaveDelay_tmoCnt (s : State) : (leaveDelay s).tmoCnt = s.tmoCnt := rfl
@[simp] theorem leaveDelay_mErrKind (s : State) : (leaveDelay s).mErrKind = s.mErrKind := rfl
@[simp] theorem leaveDelay_mErrPos (s : State) : (leaveDelay s).mErrPos = s.mErrPos := rfl
@[simp] theorem leaveDelay_txbuf (s : State) : (leaveDelay s).txbuf = s.txbuf := rfl
@[simp] theorem leaveDelay_rxbuf (s : State) : (leaveDelay s).rxbuf = s.rxbuf := rfl
@[simp] theorem leaveDelay_quarter (s : State) : (leaveDelay s).quarter = s.quarter := rfl
@[simp] theorem leaveDelay_qTick (s : State) : (leaveDelay s).qTick = s.qTick := rfl
@[simp] theorem leaveDelay_scriptRom (s : State) : (leaveDelay s).scriptRom = s.scriptRom := rfl
@[simp] theorem leaveDelay_byteRom (s : State) : (leaveDelay s).byteRom = s.byteRom := rfl
@[simp] theorem leaveDelay_params (s : State) : (leaveDelay s).params = s.params := rfl
@[simp] theorem leaveDelay_level (s : State) : (leaveDelay s).level = s.level := rfl
@[simp] theorem leaveDelay_trace (s : State) : (leaveDelay s).trace = s.trace := rfl
@[simp] theorem leaveDelay_env (s : State) : (leaveDelay s).env = s.env := rfl
@[simp] theorem leaveDelay_ports (s : State) : (leaveDelay s).ports = s.ports := rfl
@[simp] theorem leaveDelay_schedule (s : State) : (leaveDelay s).schedule = s.schedule := rfl

/-! ### `refuseSlot` -/

@[simp] theorem refuseSlot_seqState (pos : Count) (s : State) : (refuseSlot pos s).seqState = s.seqState := rfl
@[simp] theorem refuseSlot_sel (pos : Count) (s : State) : (refuseSlot pos s).sel = s.sel := rfl
@[simp] theorem refuseSlot_pc (pos : Count) (s : State) : (refuseSlot pos s).pc = s.pc := rfl
@[simp] theorem refuseSlot_dlyCnt (pos : Count) (s : State) : (refuseSlot pos s).dlyCnt = s.dlyCnt := rfl
@[simp] theorem refuseSlot_done (pos : Count) (s : State) : (refuseSlot pos s).done = s.done := rfl
@[simp] theorem refuseSlot_failed (pos : Count) (s : State) : (refuseSlot pos s).failed = s.failed := rfl
@[simp] theorem refuseSlot_errKind (pos : Count) (s : State) : (refuseSlot pos s).errKind = s.errKind := rfl
@[simp] theorem refuseSlot_errPos (pos : Count) (s : State) : (refuseSlot pos s).errPos = s.errPos := rfl
@[simp] theorem refuseSlot_failStep (pos : Count) (s : State) : (refuseSlot pos s).failStep = s.failStep := rfl
@[simp] theorem refuseSlot_mftState (pos : Count) (s : State) : (refuseSlot pos s).mftState = .stop := rfl
@[simp] theorem refuseSlot_fAddr (pos : Count) (s : State) : (refuseSlot pos s).fAddr = s.fAddr := rfl
@[simp] theorem refuseSlot_fRw (pos : Count) (s : State) : (refuseSlot pos s).fRw = s.fRw := rfl
@[simp] theorem refuseSlot_fLen (pos : Count) (s : State) : (refuseSlot pos s).fLen = s.fLen := rfl
@[simp] theorem refuseSlot_byteIdx (pos : Count) (s : State) : (refuseSlot pos s).byteIdx = s.byteIdx := rfl
@[simp] theorem refuseSlot_bitCnt (pos : Count) (s : State) : (refuseSlot pos s).bitCnt = s.bitCnt := rfl
@[simp] theorem refuseSlot_shreg (pos : Count) (s : State) : (refuseSlot pos s).shreg = s.shreg := rfl
@[simp] theorem refuseSlot_tmoCnt (pos : Count) (s : State) : (refuseSlot pos s).tmoCnt = s.tmoCnt := rfl
@[simp] theorem refuseSlot_mErrKind (pos : Count) (s : State) : (refuseSlot pos s).mErrKind = .addressing := rfl
@[simp] theorem refuseSlot_mErrPos (pos : Count) (s : State) : (refuseSlot pos s).mErrPos = pos := rfl
@[simp] theorem refuseSlot_txbuf (pos : Count) (s : State) : (refuseSlot pos s).txbuf = s.txbuf := rfl
@[simp] theorem refuseSlot_rxbuf (pos : Count) (s : State) : (refuseSlot pos s).rxbuf = s.rxbuf := rfl
@[simp] theorem refuseSlot_quarter (pos : Count) (s : State) : (refuseSlot pos s).quarter = s.quarter := rfl
@[simp] theorem refuseSlot_qTick (pos : Count) (s : State) : (refuseSlot pos s).qTick = s.qTick := rfl
@[simp] theorem refuseSlot_scriptRom (pos : Count) (s : State) : (refuseSlot pos s).scriptRom = s.scriptRom := rfl
@[simp] theorem refuseSlot_byteRom (pos : Count) (s : State) : (refuseSlot pos s).byteRom = s.byteRom := rfl
@[simp] theorem refuseSlot_params (pos : Count) (s : State) : (refuseSlot pos s).params = s.params := rfl
@[simp] theorem refuseSlot_level (pos : Count) (s : State) : (refuseSlot pos s).level = s.level := rfl
@[simp] theorem refuseSlot_trace (pos : Count) (s : State) : (refuseSlot pos s).trace = s.trace := rfl
@[simp] theorem refuseSlot_env (pos : Count) (s : State) : (refuseSlot pos s).env = s.env := rfl
@[simp] theorem refuseSlot_ports (pos : Count) (s : State) : (refuseSlot pos s).ports = s.ports := rfl
@[simp] theorem refuseSlot_schedule (pos : Count) (s : State) : (refuseSlot pos s).schedule = s.schedule := rfl

/-! ### `startFrame` -/

@[simp] theorem startFrame_seqState (s : State) : (startFrame s).seqState = s.seqState := rfl
@[simp] theorem startFrame_sel (s : State) : (startFrame s).sel = s.sel := rfl
@[simp] theorem startFrame_pc (s : State) : (startFrame s).pc = s.pc := rfl
@[simp] theorem startFrame_dlyCnt (s : State) : (startFrame s).dlyCnt = s.dlyCnt := rfl
@[simp] theorem startFrame_done (s : State) : (startFrame s).done = s.done := rfl
@[simp] theorem startFrame_failed (s : State) : (startFrame s).failed = s.failed := rfl
@[simp] theorem startFrame_errKind (s : State) : (startFrame s).errKind = s.errKind := rfl
@[simp] theorem startFrame_errPos (s : State) : (startFrame s).errPos = s.errPos := rfl
@[simp] theorem startFrame_failStep (s : State) : (startFrame s).failStep = s.failStep := rfl
@[simp] theorem startFrame_mftState (s : State) : (startFrame s).mftState = .addr := rfl
@[simp] theorem startFrame_fAddr (s : State) : (startFrame s).fAddr = s.fAddr := rfl
@[simp] theorem startFrame_fRw (s : State) : (startFrame s).fRw = s.fRw := rfl
@[simp] theorem startFrame_fLen (s : State) : (startFrame s).fLen = s.fLen := rfl
@[simp] theorem startFrame_byteIdx (s : State) : (startFrame s).byteIdx = s.byteIdx := rfl
@[simp] theorem startFrame_bitCnt (s : State) : (startFrame s).bitCnt = s.bitCnt := rfl
@[simp] theorem startFrame_shreg (s : State) : (startFrame s).shreg = s.shreg := rfl
@[simp] theorem startFrame_tmoCnt (s : State) : (startFrame s).tmoCnt = s.tmoCnt := rfl
@[simp] theorem startFrame_mErrKind (s : State) : (startFrame s).mErrKind = s.mErrKind := rfl
@[simp] theorem startFrame_mErrPos (s : State) : (startFrame s).mErrPos = s.mErrPos := rfl
@[simp] theorem startFrame_txbuf (s : State) : (startFrame s).txbuf = s.txbuf := rfl
@[simp] theorem startFrame_rxbuf (s : State) : (startFrame s).rxbuf = s.rxbuf := rfl
@[simp] theorem startFrame_quarter (s : State) : (startFrame s).quarter = s.quarter := rfl
@[simp] theorem startFrame_qTick (s : State) : (startFrame s).qTick = s.qTick := rfl
@[simp] theorem startFrame_scriptRom (s : State) : (startFrame s).scriptRom = s.scriptRom := rfl
@[simp] theorem startFrame_byteRom (s : State) : (startFrame s).byteRom = s.byteRom := rfl
@[simp] theorem startFrame_params (s : State) : (startFrame s).params = s.params := rfl
@[simp] theorem startFrame_level (s : State) : (startFrame s).level = s.level := rfl
@[simp] theorem startFrame_trace (s : State) : (startFrame s).trace = s.trace ++ [.S] := rfl
@[simp] theorem startFrame_env (s : State) : (startFrame s).env = s.env := rfl
@[simp] theorem startFrame_ports (s : State) : (startFrame s).ports = s.ports := rfl
@[simp] theorem startFrame_schedule (s : State) : (startFrame s).schedule = s.schedule := rfl

/-! ### `afterData` -/

@[simp] theorem afterData_seqState (s : State) : (afterData s).seqState = s.seqState := rfl
@[simp] theorem afterData_sel (s : State) : (afterData s).sel = s.sel := rfl
@[simp] theorem afterData_pc (s : State) : (afterData s).pc = s.pc := rfl
@[simp] theorem afterData_dlyCnt (s : State) : (afterData s).dlyCnt = s.dlyCnt := rfl
@[simp] theorem afterData_done (s : State) : (afterData s).done = s.done := rfl
@[simp] theorem afterData_failed (s : State) : (afterData s).failed = s.failed := rfl
@[simp] theorem afterData_errKind (s : State) : (afterData s).errKind = s.errKind := rfl
@[simp] theorem afterData_errPos (s : State) : (afterData s).errPos = s.errPos := rfl
@[simp] theorem afterData_failStep (s : State) : (afterData s).failStep = s.failStep := rfl
@[simp] theorem afterData_mftState (s : State) : (afterData s).mftState = if s.lastByte then .stop else .tx := rfl
@[simp] theorem afterData_fAddr (s : State) : (afterData s).fAddr = s.fAddr := rfl
@[simp] theorem afterData_fRw (s : State) : (afterData s).fRw = s.fRw := rfl
@[simp] theorem afterData_fLen (s : State) : (afterData s).fLen = s.fLen := rfl
@[simp] theorem afterData_byteIdx (s : State) : (afterData s).byteIdx = s.byteIdx + 1#9 := rfl
@[simp] theorem afterData_bitCnt (s : State) : (afterData s).bitCnt = s.bitCnt := rfl
@[simp] theorem afterData_shreg (s : State) : (afterData s).shreg = s.shreg := rfl
@[simp] theorem afterData_tmoCnt (s : State) : (afterData s).tmoCnt = s.tmoCnt := rfl
@[simp] theorem afterData_mErrKind (s : State) : (afterData s).mErrKind = s.mErrKind := rfl
@[simp] theorem afterData_mErrPos (s : State) : (afterData s).mErrPos = s.mErrPos := rfl
@[simp] theorem afterData_txbuf (s : State) : (afterData s).txbuf = s.txbuf := rfl
@[simp] theorem afterData_rxbuf (s : State) : (afterData s).rxbuf = s.rxbuf := rfl
@[simp] theorem afterData_quarter (s : State) : (afterData s).quarter = s.quarter := rfl
@[simp] theorem afterData_qTick (s : State) : (afterData s).qTick = s.qTick := rfl
@[simp] theorem afterData_scriptRom (s : State) : (afterData s).scriptRom = s.scriptRom := rfl
@[simp] theorem afterData_byteRom (s : State) : (afterData s).byteRom = s.byteRom := rfl
@[simp] theorem afterData_params (s : State) : (afterData s).params = s.params := rfl
@[simp] theorem afterData_level (s : State) : (afterData s).level = s.level := rfl
@[simp] theorem afterData_trace (s : State) : (afterData s).trace = s.trace := rfl
@[simp] theorem afterData_env (s : State) : (afterData s).env = s.env := rfl
@[simp] theorem afterData_ports (s : State) : (afterData s).ports = s.ports := rfl
@[simp] theorem afterData_schedule (s : State) : (afterData s).schedule = s.schedule := rfl

/-! ### `afterAddress` -/

@[simp] theorem afterAddress_seqState (rw : Dir) (s : State) : (afterAddress rw s).seqState = s.seqState := rfl
@[simp] theorem afterAddress_sel (rw : Dir) (s : State) : (afterAddress rw s).sel = s.sel := rfl
@[simp] theorem afterAddress_pc (rw : Dir) (s : State) : (afterAddress rw s).pc = s.pc := rfl
@[simp] theorem afterAddress_dlyCnt (rw : Dir) (s : State) : (afterAddress rw s).dlyCnt = s.dlyCnt := rfl
@[simp] theorem afterAddress_done (rw : Dir) (s : State) : (afterAddress rw s).done = s.done := rfl
@[simp] theorem afterAddress_failed (rw : Dir) (s : State) : (afterAddress rw s).failed = s.failed := rfl
@[simp] theorem afterAddress_errKind (rw : Dir) (s : State) : (afterAddress rw s).errKind = s.errKind := rfl
@[simp] theorem afterAddress_errPos (rw : Dir) (s : State) : (afterAddress rw s).errPos = s.errPos := rfl
@[simp] theorem afterAddress_failStep (rw : Dir) (s : State) : (afterAddress rw s).failStep = s.failStep := rfl
@[simp] theorem afterAddress_mftState (rw : Dir) (s : State) :
    (afterAddress rw s).mftState = match rw with | .write => .tx | .read => .rx := rfl
@[simp] theorem afterAddress_fAddr (rw : Dir) (s : State) : (afterAddress rw s).fAddr = s.fAddr := rfl
@[simp] theorem afterAddress_fRw (rw : Dir) (s : State) : (afterAddress rw s).fRw = s.fRw := rfl
@[simp] theorem afterAddress_fLen (rw : Dir) (s : State) : (afterAddress rw s).fLen = s.fLen := rfl
@[simp] theorem afterAddress_byteIdx (rw : Dir) (s : State) : (afterAddress rw s).byteIdx = s.byteIdx := rfl
@[simp] theorem afterAddress_bitCnt (rw : Dir) (s : State) : (afterAddress rw s).bitCnt = s.bitCnt := rfl
@[simp] theorem afterAddress_shreg (rw : Dir) (s : State) : (afterAddress rw s).shreg = s.shreg := rfl
@[simp] theorem afterAddress_tmoCnt (rw : Dir) (s : State) : (afterAddress rw s).tmoCnt = s.tmoCnt := rfl
@[simp] theorem afterAddress_mErrKind (rw : Dir) (s : State) : (afterAddress rw s).mErrKind = s.mErrKind := rfl
@[simp] theorem afterAddress_mErrPos (rw : Dir) (s : State) : (afterAddress rw s).mErrPos = s.mErrPos := rfl
@[simp] theorem afterAddress_txbuf (rw : Dir) (s : State) : (afterAddress rw s).txbuf = s.txbuf := rfl
@[simp] theorem afterAddress_rxbuf (rw : Dir) (s : State) : (afterAddress rw s).rxbuf = s.rxbuf := rfl
@[simp] theorem afterAddress_quarter (rw : Dir) (s : State) : (afterAddress rw s).quarter = s.quarter := rfl
@[simp] theorem afterAddress_qTick (rw : Dir) (s : State) : (afterAddress rw s).qTick = s.qTick := rfl
@[simp] theorem afterAddress_scriptRom (rw : Dir) (s : State) : (afterAddress rw s).scriptRom = s.scriptRom := rfl
@[simp] theorem afterAddress_byteRom (rw : Dir) (s : State) : (afterAddress rw s).byteRom = s.byteRom := rfl
@[simp] theorem afterAddress_params (rw : Dir) (s : State) : (afterAddress rw s).params = s.params := rfl
@[simp] theorem afterAddress_level (rw : Dir) (s : State) : (afterAddress rw s).level = s.level := rfl
@[simp] theorem afterAddress_trace (rw : Dir) (s : State) : (afterAddress rw s).trace = s.trace := rfl
@[simp] theorem afterAddress_env (rw : Dir) (s : State) : (afterAddress rw s).env = s.env := rfl
@[simp] theorem afterAddress_ports (rw : Dir) (s : State) : (afterAddress rw s).ports = s.ports := rfl
@[simp] theorem afterAddress_schedule (rw : Dir) (s : State) : (afterAddress rw s).schedule = s.schedule := rfl

/-! ### `receiveByte` -/

@[simp] theorem receiveByte_seqState (b : Byte) (s : State) : (receiveByte b s).seqState = s.seqState := rfl
@[simp] theorem receiveByte_sel (b : Byte) (s : State) : (receiveByte b s).sel = s.sel := rfl
@[simp] theorem receiveByte_pc (b : Byte) (s : State) : (receiveByte b s).pc = s.pc := rfl
@[simp] theorem receiveByte_dlyCnt (b : Byte) (s : State) : (receiveByte b s).dlyCnt = s.dlyCnt := rfl
@[simp] theorem receiveByte_done (b : Byte) (s : State) : (receiveByte b s).done = s.done := rfl
@[simp] theorem receiveByte_failed (b : Byte) (s : State) : (receiveByte b s).failed = s.failed := rfl
@[simp] theorem receiveByte_errKind (b : Byte) (s : State) : (receiveByte b s).errKind = s.errKind := rfl
@[simp] theorem receiveByte_errPos (b : Byte) (s : State) : (receiveByte b s).errPos = s.errPos := rfl
@[simp] theorem receiveByte_failStep (b : Byte) (s : State) : (receiveByte b s).failStep = s.failStep := rfl
@[simp] theorem receiveByte_mftState (b : Byte) (s : State) :
    (receiveByte b s).mftState = if s.lastByte then .stop else .rx := rfl
@[simp] theorem receiveByte_fAddr (b : Byte) (s : State) : (receiveByte b s).fAddr = s.fAddr := rfl
@[simp] theorem receiveByte_fRw (b : Byte) (s : State) : (receiveByte b s).fRw = s.fRw := rfl
@[simp] theorem receiveByte_fLen (b : Byte) (s : State) : (receiveByte b s).fLen = s.fLen := rfl
@[simp] theorem receiveByte_byteIdx (b : Byte) (s : State) : (receiveByte b s).byteIdx = s.byteIdx + 1#9 := rfl
@[simp] theorem receiveByte_bitCnt (b : Byte) (s : State) : (receiveByte b s).bitCnt = s.bitCnt := rfl
@[simp] theorem receiveByte_shreg (b : Byte) (s : State) : (receiveByte b s).shreg = s.shreg := rfl
@[simp] theorem receiveByte_tmoCnt (b : Byte) (s : State) : (receiveByte b s).tmoCnt = s.tmoCnt := rfl
@[simp] theorem receiveByte_mErrKind (b : Byte) (s : State) : (receiveByte b s).mErrKind = s.mErrKind := rfl
@[simp] theorem receiveByte_mErrPos (b : Byte) (s : State) : (receiveByte b s).mErrPos = s.mErrPos := rfl
@[simp] theorem receiveByte_txbuf (b : Byte) (s : State) : (receiveByte b s).txbuf = s.txbuf := rfl
@[simp] theorem receiveByte_rxbuf (b : Byte) (s : State) :
    (receiveByte b s).rxbuf = Memory.write s.rxbuf s.byteIdx.toNat b := rfl
@[simp] theorem receiveByte_quarter (b : Byte) (s : State) : (receiveByte b s).quarter = s.quarter := rfl
@[simp] theorem receiveByte_qTick (b : Byte) (s : State) : (receiveByte b s).qTick = s.qTick := rfl
@[simp] theorem receiveByte_scriptRom (b : Byte) (s : State) : (receiveByte b s).scriptRom = s.scriptRom := rfl
@[simp] theorem receiveByte_byteRom (b : Byte) (s : State) : (receiveByte b s).byteRom = s.byteRom := rfl
@[simp] theorem receiveByte_params (b : Byte) (s : State) : (receiveByte b s).params = s.params := rfl
@[simp] theorem receiveByte_level (b : Byte) (s : State) : (receiveByte b s).level = s.level := rfl
@[simp] theorem receiveByte_trace (b : Byte) (s : State) :
    (receiveByte b s).trace = s.trace ++ [.RX b, .AO (if s.lastByte then .nack else .ack)] := rfl
@[simp] theorem receiveByte_env (b : Byte) (s : State) : (receiveByte b s).env = s.env := rfl
@[simp] theorem receiveByte_ports (b : Byte) (s : State) : (receiveByte b s).ports = s.ports := rfl
@[simp] theorem receiveByte_schedule (b : Byte) (s : State) : (receiveByte b s).schedule = s.schedule := rfl

/-! ### `acceptGo` -/

@[simp] theorem acceptGo_seqState (sel : Script) (s : State) : (acceptGo sel s).seqState = .fetch := rfl
@[simp] theorem acceptGo_sel (sel : Script) (s : State) : (acceptGo sel s).sel = sel := rfl
@[simp] theorem acceptGo_pc (sel : Script) (s : State) : (acceptGo sel s).pc = scriptBase s.params sel := rfl
@[simp] theorem acceptGo_dlyCnt (sel : Script) (s : State) : (acceptGo sel s).dlyCnt = s.dlyCnt := rfl
@[simp] theorem acceptGo_done (sel : Script) (s : State) : (acceptGo sel s).done = false := rfl
@[simp] theorem acceptGo_failed (sel : Script) (s : State) : (acceptGo sel s).failed = false := rfl
@[simp] theorem acceptGo_errKind (sel : Script) (s : State) : (acceptGo sel s).errKind = .none := rfl
@[simp] theorem acceptGo_errPos (sel : Script) (s : State) : (acceptGo sel s).errPos = 0#9 := rfl
@[simp] theorem acceptGo_failStep (sel : Script) (s : State) : (acceptGo sel s).failStep = 0#5 := rfl
@[simp] theorem acceptGo_mftState (sel : Script) (s : State) : (acceptGo sel s).mftState = s.mftState := rfl
@[simp] theorem acceptGo_fAddr (sel : Script) (s : State) : (acceptGo sel s).fAddr = s.fAddr := rfl
@[simp] theorem acceptGo_fRw (sel : Script) (s : State) : (acceptGo sel s).fRw = s.fRw := rfl
@[simp] theorem acceptGo_fLen (sel : Script) (s : State) : (acceptGo sel s).fLen = s.fLen := rfl
@[simp] theorem acceptGo_byteIdx (sel : Script) (s : State) : (acceptGo sel s).byteIdx = s.byteIdx := rfl
@[simp] theorem acceptGo_bitCnt (sel : Script) (s : State) : (acceptGo sel s).bitCnt = s.bitCnt := rfl
@[simp] theorem acceptGo_shreg (sel : Script) (s : State) : (acceptGo sel s).shreg = s.shreg := rfl
@[simp] theorem acceptGo_tmoCnt (sel : Script) (s : State) : (acceptGo sel s).tmoCnt = s.tmoCnt := rfl
@[simp] theorem acceptGo_mErrKind (sel : Script) (s : State) : (acceptGo sel s).mErrKind = s.mErrKind := rfl
@[simp] theorem acceptGo_mErrPos (sel : Script) (s : State) : (acceptGo sel s).mErrPos = s.mErrPos := rfl
@[simp] theorem acceptGo_txbuf (sel : Script) (s : State) : (acceptGo sel s).txbuf = s.txbuf := rfl
@[simp] theorem acceptGo_rxbuf (sel : Script) (s : State) : (acceptGo sel s).rxbuf = s.rxbuf := rfl
@[simp] theorem acceptGo_quarter (sel : Script) (s : State) : (acceptGo sel s).quarter = s.quarter := rfl
@[simp] theorem acceptGo_qTick (sel : Script) (s : State) : (acceptGo sel s).qTick = s.qTick := rfl
@[simp] theorem acceptGo_scriptRom (sel : Script) (s : State) : (acceptGo sel s).scriptRom = s.scriptRom := rfl
@[simp] theorem acceptGo_byteRom (sel : Script) (s : State) : (acceptGo sel s).byteRom = s.byteRom := rfl
@[simp] theorem acceptGo_params (sel : Script) (s : State) : (acceptGo sel s).params = s.params := rfl
@[simp] theorem acceptGo_level (sel : Script) (s : State) : (acceptGo sel s).level = s.level := rfl
@[simp] theorem acceptGo_trace (sel : Script) (s : State) : (acceptGo sel s).trace = s.trace := rfl
@[simp] theorem acceptGo_env (sel : Script) (s : State) : (acceptGo sel s).env = s.env := rfl
@[simp] theorem acceptGo_ports (sel : Script) (s : State) : (acceptGo sel s).ports = s.ports := rfl
@[simp] theorem acceptGo_schedule (sel : Script) (s : State) : (acceptGo sel s).schedule = s.schedule := rfl

/-! ### `stallSlot`: what it leaves alone -/

@[simp] theorem stallSlot_sel (pos : Count) (s : State) : (stallSlot pos s).sel = s.sel := by
  unfold stallSlot; split <;> rfl
@[simp] theorem stallSlot_pc (pos : Count) (s : State) : (stallSlot pos s).pc = s.pc := by
  unfold stallSlot; split <;> rfl
@[simp] theorem stallSlot_dlyCnt (pos : Count) (s : State) : (stallSlot pos s).dlyCnt = s.dlyCnt := by
  unfold stallSlot; split <;> rfl
@[simp] theorem stallSlot_done (pos : Count) (s : State) : (stallSlot pos s).done = s.done := by
  unfold stallSlot; split <;> rfl
@[simp] theorem stallSlot_fAddr (pos : Count) (s : State) : (stallSlot pos s).fAddr = s.fAddr := by
  unfold stallSlot; split <;> rfl
@[simp] theorem stallSlot_fRw (pos : Count) (s : State) : (stallSlot pos s).fRw = s.fRw := by
  unfold stallSlot; split <;> rfl
@[simp] theorem stallSlot_fLen (pos : Count) (s : State) : (stallSlot pos s).fLen = s.fLen := by
  unfold stallSlot; split <;> rfl
@[simp] theorem stallSlot_byteIdx (pos : Count) (s : State) : (stallSlot pos s).byteIdx = s.byteIdx := by
  unfold stallSlot; split <;> rfl
@[simp] theorem stallSlot_bitCnt (pos : Count) (s : State) : (stallSlot pos s).bitCnt = s.bitCnt := by
  unfold stallSlot; split <;> rfl
@[simp] theorem stallSlot_shreg (pos : Count) (s : State) : (stallSlot pos s).shreg = s.shreg := by
  unfold stallSlot; split <;> rfl
@[simp] theorem stallSlot_tmoCnt (pos : Count) (s : State) : (stallSlot pos s).tmoCnt = s.tmoCnt := by
  unfold stallSlot; split <;> rfl
@[simp] theorem stallSlot_mErrKind (pos : Count) (s : State) : (stallSlot pos s).mErrKind = s.mErrKind := by
  unfold stallSlot; split <;> rfl
@[simp] theorem stallSlot_mErrPos (pos : Count) (s : State) : (stallSlot pos s).mErrPos = s.mErrPos := by
  unfold stallSlot; split <;> rfl
@[simp] theorem stallSlot_txbuf (pos : Count) (s : State) : (stallSlot pos s).txbuf = s.txbuf := by
  unfold stallSlot; split <;> rfl
@[simp] theorem stallSlot_rxbuf (pos : Count) (s : State) : (stallSlot pos s).rxbuf = s.rxbuf := by
  unfold stallSlot; split <;> rfl
@[simp] theorem stallSlot_quarter (pos : Count) (s : State) : (stallSlot pos s).quarter = s.quarter := by
  unfold stallSlot; split <;> rfl
@[simp] theorem stallSlot_qTick (pos : Count) (s : State) : (stallSlot pos s).qTick = s.qTick := by
  unfold stallSlot; split <;> rfl
@[simp] theorem stallSlot_scriptRom (pos : Count) (s : State) : (stallSlot pos s).scriptRom = s.scriptRom := by
  unfold stallSlot; split <;> rfl
@[simp] theorem stallSlot_byteRom (pos : Count) (s : State) : (stallSlot pos s).byteRom = s.byteRom := by
  unfold stallSlot; split <;> rfl
@[simp] theorem stallSlot_params (pos : Count) (s : State) : (stallSlot pos s).params = s.params := by
  unfold stallSlot; split <;> rfl
@[simp] theorem stallSlot_level (pos : Count) (s : State) : (stallSlot pos s).level = s.level := by
  unfold stallSlot; split <;> rfl
@[simp] theorem stallSlot_env (pos : Count) (s : State) : (stallSlot pos s).env = s.env := by
  unfold stallSlot; split <;> rfl
@[simp] theorem stallSlot_ports (pos : Count) (s : State) : (stallSlot pos s).ports = s.ports := by
  unfold stallSlot; split <;> rfl
@[simp] theorem stallSlot_schedule (pos : Count) (s : State) : (stallSlot pos s).schedule = s.schedule := by
  unfold stallSlot; split <;> rfl

/-! ### `startMft`: what it leaves alone -/

@[simp] theorem startMft_sel (a : BusAddr) (rw : Dir) (n : Count) (s : State) : (startMft a rw n s).sel = s.sel := by
  unfold startMft; split <;> rfl
@[simp] theorem startMft_pc (a : BusAddr) (rw : Dir) (n : Count) (s : State) : (startMft a rw n s).pc = s.pc := by
  unfold startMft; split <;> rfl
@[simp] theorem startMft_dlyCnt (a : BusAddr) (rw : Dir) (n : Count) (s : State) : (startMft a rw n s).dlyCnt = s.dlyCnt := by
  unfold startMft; split <;> rfl
@[simp] theorem startMft_done (a : BusAddr) (rw : Dir) (n : Count) (s : State) : (startMft a rw n s).done = s.done := by
  unfold startMft; split <;> rfl
@[simp] theorem startMft_bitCnt (a : BusAddr) (rw : Dir) (n : Count) (s : State) : (startMft a rw n s).bitCnt = s.bitCnt := by
  unfold startMft; split <;> rfl
@[simp] theorem startMft_shreg (a : BusAddr) (rw : Dir) (n : Count) (s : State) : (startMft a rw n s).shreg = s.shreg := by
  unfold startMft; split <;> rfl
@[simp] theorem startMft_txbuf (a : BusAddr) (rw : Dir) (n : Count) (s : State) : (startMft a rw n s).txbuf = s.txbuf := by
  unfold startMft; split <;> rfl
@[simp] theorem startMft_rxbuf (a : BusAddr) (rw : Dir) (n : Count) (s : State) : (startMft a rw n s).rxbuf = s.rxbuf := by
  unfold startMft; split <;> rfl
@[simp] theorem startMft_scriptRom (a : BusAddr) (rw : Dir) (n : Count) (s : State) : (startMft a rw n s).scriptRom = s.scriptRom := by
  unfold startMft; split <;> rfl
@[simp] theorem startMft_byteRom (a : BusAddr) (rw : Dir) (n : Count) (s : State) : (startMft a rw n s).byteRom = s.byteRom := by
  unfold startMft; split <;> rfl
@[simp] theorem startMft_params (a : BusAddr) (rw : Dir) (n : Count) (s : State) : (startMft a rw n s).params = s.params := by
  unfold startMft; split <;> rfl
@[simp] theorem startMft_level (a : BusAddr) (rw : Dir) (n : Count) (s : State) : (startMft a rw n s).level = s.level := by
  unfold startMft; split <;> rfl
@[simp] theorem startMft_trace (a : BusAddr) (rw : Dir) (n : Count) (s : State) : (startMft a rw n s).trace = s.trace := by
  unfold startMft; split <;> rfl
@[simp] theorem startMft_env (a : BusAddr) (rw : Dir) (n : Count) (s : State) : (startMft a rw n s).env = s.env := by
  unfold startMft; split <;> rfl
@[simp] theorem startMft_ports (a : BusAddr) (rw : Dir) (n : Count) (s : State) : (startMft a rw n s).ports = s.ports := by
  unfold startMft; split <;> rfl
@[simp] theorem startMft_schedule (a : BusAddr) (rw : Dir) (n : Count) (s : State) : (startMft a rw n s).schedule = s.schedule := by
  unfold startMft; split <;> rfl

/-! ### `hostWrite`: what it leaves alone -/

@[simp] theorem hostWrite_seqState (s : State) : (hostWrite s).seqState = s.seqState := by
  unfold hostWrite; split <;> rfl
@[simp] theorem hostWrite_sel (s : State) : (hostWrite s).sel = s.sel := by
  unfold hostWrite; split <;> rfl
@[simp] theorem hostWrite_pc (s : State) : (hostWrite s).pc = s.pc := by
  unfold hostWrite; split <;> rfl
@[simp] theorem hostWrite_dlyCnt (s : State) : (hostWrite s).dlyCnt = s.dlyCnt := by
  unfold hostWrite; split <;> rfl
@[simp] theorem hostWrite_done (s : State) : (hostWrite s).done = s.done := by
  unfold hostWrite; split <;> rfl
@[simp] theorem hostWrite_failed (s : State) : (hostWrite s).failed = s.failed := by
  unfold hostWrite; split <;> rfl
@[simp] theorem hostWrite_errKind (s : State) : (hostWrite s).errKind = s.errKind := by
  unfold hostWrite; split <;> rfl
@[simp] theorem hostWrite_errPos (s : State) : (hostWrite s).errPos = s.errPos := by
  unfold hostWrite; split <;> rfl
@[simp] theorem hostWrite_failStep (s : State) : (hostWrite s).failStep = s.failStep := by
  unfold hostWrite; split <;> rfl
@[simp] theorem hostWrite_mftState (s : State) : (hostWrite s).mftState = s.mftState := by
  unfold hostWrite; split <;> rfl
@[simp] theorem hostWrite_fAddr (s : State) : (hostWrite s).fAddr = s.fAddr := by
  unfold hostWrite; split <;> rfl
@[simp] theorem hostWrite_fRw (s : State) : (hostWrite s).fRw = s.fRw := by
  unfold hostWrite; split <;> rfl
@[simp] theorem hostWrite_fLen (s : State) : (hostWrite s).fLen = s.fLen := by
  unfold hostWrite; split <;> rfl
@[simp] theorem hostWrite_byteIdx (s : State) : (hostWrite s).byteIdx = s.byteIdx := by
  unfold hostWrite; split <;> rfl
@[simp] theorem hostWrite_bitCnt (s : State) : (hostWrite s).bitCnt = s.bitCnt := by
  unfold hostWrite; split <;> rfl
@[simp] theorem hostWrite_shreg (s : State) : (hostWrite s).shreg = s.shreg := by
  unfold hostWrite; split <;> rfl
@[simp] theorem hostWrite_tmoCnt (s : State) : (hostWrite s).tmoCnt = s.tmoCnt := by
  unfold hostWrite; split <;> rfl
@[simp] theorem hostWrite_mErrKind (s : State) : (hostWrite s).mErrKind = s.mErrKind := by
  unfold hostWrite; split <;> rfl
@[simp] theorem hostWrite_mErrPos (s : State) : (hostWrite s).mErrPos = s.mErrPos := by
  unfold hostWrite; split <;> rfl
@[simp] theorem hostWrite_rxbuf (s : State) : (hostWrite s).rxbuf = s.rxbuf := by
  unfold hostWrite; split <;> rfl
@[simp] theorem hostWrite_quarter (s : State) : (hostWrite s).quarter = s.quarter := by
  unfold hostWrite; split <;> rfl
@[simp] theorem hostWrite_qTick (s : State) : (hostWrite s).qTick = s.qTick := by
  unfold hostWrite; split <;> rfl
@[simp] theorem hostWrite_scriptRom (s : State) : (hostWrite s).scriptRom = s.scriptRom := by
  unfold hostWrite; split <;> rfl
@[simp] theorem hostWrite_byteRom (s : State) : (hostWrite s).byteRom = s.byteRom := by
  unfold hostWrite; split <;> rfl
@[simp] theorem hostWrite_params (s : State) : (hostWrite s).params = s.params := by
  unfold hostWrite; split <;> rfl
@[simp] theorem hostWrite_level (s : State) : (hostWrite s).level = s.level := by
  unfold hostWrite; split <;> rfl
@[simp] theorem hostWrite_trace (s : State) : (hostWrite s).trace = s.trace := by
  unfold hostWrite; split <;> rfl
@[simp] theorem hostWrite_env (s : State) : (hostWrite s).env = s.env := by
  unfold hostWrite; split <;> rfl
@[simp] theorem hostWrite_ports (s : State) : (hostWrite s).ports = s.ports := by
  unfold hostWrite; split <;> rfl
@[simp] theorem hostWrite_schedule (s : State) : (hostWrite s).schedule = s.schedule := by
  unfold hostWrite; split <;> rfl

/-! ### `advancePorts`: what it leaves alone -/

@[simp] theorem advancePorts_seqState (s : State) : (advancePorts s).seqState = s.seqState := by
  unfold advancePorts; split <;> rfl
@[simp] theorem advancePorts_sel (s : State) : (advancePorts s).sel = s.sel := by
  unfold advancePorts; split <;> rfl
@[simp] theorem advancePorts_pc (s : State) : (advancePorts s).pc = s.pc := by
  unfold advancePorts; split <;> rfl
@[simp] theorem advancePorts_dlyCnt (s : State) : (advancePorts s).dlyCnt = s.dlyCnt := by
  unfold advancePorts; split <;> rfl
@[simp] theorem advancePorts_done (s : State) : (advancePorts s).done = s.done := by
  unfold advancePorts; split <;> rfl
@[simp] theorem advancePorts_failed (s : State) : (advancePorts s).failed = s.failed := by
  unfold advancePorts; split <;> rfl
@[simp] theorem advancePorts_errKind (s : State) : (advancePorts s).errKind = s.errKind := by
  unfold advancePorts; split <;> rfl
@[simp] theorem advancePorts_errPos (s : State) : (advancePorts s).errPos = s.errPos := by
  unfold advancePorts; split <;> rfl
@[simp] theorem advancePorts_failStep (s : State) : (advancePorts s).failStep = s.failStep := by
  unfold advancePorts; split <;> rfl
@[simp] theorem advancePorts_mftState (s : State) : (advancePorts s).mftState = s.mftState := by
  unfold advancePorts; split <;> rfl
@[simp] theorem advancePorts_fAddr (s : State) : (advancePorts s).fAddr = s.fAddr := by
  unfold advancePorts; split <;> rfl
@[simp] theorem advancePorts_fRw (s : State) : (advancePorts s).fRw = s.fRw := by
  unfold advancePorts; split <;> rfl
@[simp] theorem advancePorts_fLen (s : State) : (advancePorts s).fLen = s.fLen := by
  unfold advancePorts; split <;> rfl
@[simp] theorem advancePorts_byteIdx (s : State) : (advancePorts s).byteIdx = s.byteIdx := by
  unfold advancePorts; split <;> rfl
@[simp] theorem advancePorts_bitCnt (s : State) : (advancePorts s).bitCnt = s.bitCnt := by
  unfold advancePorts; split <;> rfl
@[simp] theorem advancePorts_shreg (s : State) : (advancePorts s).shreg = s.shreg := by
  unfold advancePorts; split <;> rfl
@[simp] theorem advancePorts_tmoCnt (s : State) : (advancePorts s).tmoCnt = s.tmoCnt := by
  unfold advancePorts; split <;> rfl
@[simp] theorem advancePorts_mErrKind (s : State) : (advancePorts s).mErrKind = s.mErrKind := by
  unfold advancePorts; split <;> rfl
@[simp] theorem advancePorts_mErrPos (s : State) : (advancePorts s).mErrPos = s.mErrPos := by
  unfold advancePorts; split <;> rfl
@[simp] theorem advancePorts_txbuf (s : State) : (advancePorts s).txbuf = s.txbuf := by
  unfold advancePorts; split <;> rfl
@[simp] theorem advancePorts_rxbuf (s : State) : (advancePorts s).rxbuf = s.rxbuf := by
  unfold advancePorts; split <;> rfl
@[simp] theorem advancePorts_quarter (s : State) : (advancePorts s).quarter = s.quarter := by
  unfold advancePorts; split <;> rfl
@[simp] theorem advancePorts_qTick (s : State) : (advancePorts s).qTick = s.qTick := by
  unfold advancePorts; split <;> rfl
@[simp] theorem advancePorts_scriptRom (s : State) : (advancePorts s).scriptRom = s.scriptRom := by
  unfold advancePorts; split <;> rfl
@[simp] theorem advancePorts_byteRom (s : State) : (advancePorts s).byteRom = s.byteRom := by
  unfold advancePorts; split <;> rfl
@[simp] theorem advancePorts_params (s : State) : (advancePorts s).params = s.params := by
  unfold advancePorts; split <;> rfl
@[simp] theorem advancePorts_level (s : State) : (advancePorts s).level = s.level := by
  unfold advancePorts; split <;> rfl
@[simp] theorem advancePorts_trace (s : State) : (advancePorts s).trace = s.trace := by
  unfold advancePorts; split <;> rfl
@[simp] theorem advancePorts_env (s : State) : (advancePorts s).env = s.env := by
  unfold advancePorts; split <;> rfl

/-! ### `resetEdge`: what stands outside I2CX stays (R270) -/

@[simp] theorem resetEdge_scriptRom (s : State) : (resetEdge s).scriptRom = s.scriptRom := rfl
@[simp] theorem resetEdge_byteRom (s : State) : (resetEdge s).byteRom = s.byteRom := rfl
@[simp] theorem resetEdge_params (s : State) : (resetEdge s).params = s.params := rfl
@[simp] theorem resetEdge_level (s : State) : (resetEdge s).level = s.level := rfl
@[simp] theorem resetEdge_env (s : State) : (resetEdge s).env = s.env := rfl
@[simp] theorem resetEdge_ports (s : State) : (resetEdge s).ports = s.ports := rfl
@[simp] theorem resetEdge_schedule (s : State) : (resetEdge s).schedule = s.schedule := rfl

@[simp] theorem resetEdge_seqState (s : State) : (resetEdge s).seqState = State.reset.seqState := rfl
@[simp] theorem resetEdge_sel (s : State) : (resetEdge s).sel = State.reset.sel := rfl
@[simp] theorem resetEdge_pc (s : State) : (resetEdge s).pc = State.reset.pc := rfl
@[simp] theorem resetEdge_dlyCnt (s : State) : (resetEdge s).dlyCnt = State.reset.dlyCnt := rfl
@[simp] theorem resetEdge_done (s : State) : (resetEdge s).done = State.reset.done := rfl
@[simp] theorem resetEdge_failed (s : State) : (resetEdge s).failed = State.reset.failed := rfl
@[simp] theorem resetEdge_errKind (s : State) : (resetEdge s).errKind = State.reset.errKind := rfl
@[simp] theorem resetEdge_errPos (s : State) : (resetEdge s).errPos = State.reset.errPos := rfl
@[simp] theorem resetEdge_failStep (s : State) : (resetEdge s).failStep = State.reset.failStep := rfl
@[simp] theorem resetEdge_mftState (s : State) : (resetEdge s).mftState = State.reset.mftState := rfl
@[simp] theorem resetEdge_fAddr (s : State) : (resetEdge s).fAddr = State.reset.fAddr := rfl
@[simp] theorem resetEdge_fRw (s : State) : (resetEdge s).fRw = State.reset.fRw := rfl
@[simp] theorem resetEdge_fLen (s : State) : (resetEdge s).fLen = State.reset.fLen := rfl
@[simp] theorem resetEdge_byteIdx (s : State) : (resetEdge s).byteIdx = State.reset.byteIdx := rfl
@[simp] theorem resetEdge_bitCnt (s : State) : (resetEdge s).bitCnt = State.reset.bitCnt := rfl
@[simp] theorem resetEdge_shreg (s : State) : (resetEdge s).shreg = State.reset.shreg := rfl
@[simp] theorem resetEdge_tmoCnt (s : State) : (resetEdge s).tmoCnt = State.reset.tmoCnt := rfl
@[simp] theorem resetEdge_mErrKind (s : State) : (resetEdge s).mErrKind = State.reset.mErrKind := rfl
@[simp] theorem resetEdge_mErrPos (s : State) : (resetEdge s).mErrPos = State.reset.mErrPos := rfl
@[simp] theorem resetEdge_txbuf (s : State) : (resetEdge s).txbuf = State.reset.txbuf := rfl
@[simp] theorem resetEdge_rxbuf (s : State) : (resetEdge s).rxbuf = State.reset.rxbuf := rfl
@[simp] theorem resetEdge_quarter (s : State) : (resetEdge s).quarter = State.reset.quarter := rfl
@[simp] theorem resetEdge_qTick (s : State) : (resetEdge s).qTick = State.reset.qTick := rfl

end Sys2Proof.Machine
end

