-- ==== Sys2Proof/Laws/Ops.lean ====
section
/-! SUPPORT. One lemma for each shared operation that says once everything it can do. -/

namespace Sys2Proof.Machine

open Sys2Proof

/-! ### Accepting a frame operation and handing its result over -/

/-- A legal length starts the frame; another length aborts the run with CapacityError (R121, R234). -/
theorem startMft_cases (a : BusAddr) (rw : Dir) (n : Count) (s : State) :
    (1 ≤ n.toNat ∧ n.toNat ≤ 256 ∧
      startMft a rw n s =
        { s with
          fAddr := a, fRw := rw, fLen := n, byteIdx := 0#9, mErrKind := .none, mErrPos := 0#9, tmoCnt := 0#32,
          mftState := .start, quarter := .first, qTick := 0 }) ∨
    ((n.toNat = 0 ∨ 256 < n.toNat) ∧ startMft a rw n s = abortRun .capacity 0#9 s) := by
  have hb : Config.bufCap = 256 := rfl
  by_cases h : frameLenOk n = true
  · left
    simp only [frameLenOk, hb, Bool.and_eq_true, decide_eq_true_eq] at h
    refine ⟨h.1, h.2, ?_⟩
    simp [startMft, frameLenOk, hb, h.1, h.2]
  · right
    refine ⟨?_, by simp [startMft, h]⟩
    simp only [frameLenOk, hb, Bool.and_eq_true, decide_eq_true_eq] at h
    omega

/-- A legal length starts the frame (R121). -/
theorem startMft_ok (a : BusAddr) (rw : Dir) {n : Count} (s : State) (h1 : 1 ≤ n.toNat) (h2 : n.toNat ≤ 256) :
    startMft a rw n s =
      { s with
        fAddr := a, fRw := rw, fLen := n, byteIdx := 0#9, mErrKind := .none, mErrPos := 0#9, tmoCnt := 0#32,
        mftState := .start, quarter := .first, qTick := 0 } := by
  rcases startMft_cases a rw n s with ⟨-, -, h⟩ | ⟨h, -⟩
  · exact h
  · omega

/-- A step that succeeded goes on to the next step, at once or after its delay (R172). -/
theorem stepDone_next {s t : State} (h : stepDone s = .next t) :
    s.pc ≠ 31#5 ∧
    ((s.stepDelayMs = 0 ∧ t = { s with pc := s.pc + 1#5, seqState := .fetch }) ∨
      (s.stepDelayMs ≠ 0 ∧
        t =
          { s with
            pc := s.pc + 1#5, trace := s.trace ++ [.DLY s.stepDelayMs]
            dlyCnt := BitVec.ofNat 32 (s.stepDelayMs * ticksPerMs s.params), seqState := .delay })) := by
  unfold stepDone at h
  split at h
  · cases h
  · next hpc =>
    refine ⟨hpc, ?_⟩
    split at h
    · next hd => exact .inl ⟨hd, by injection h with h; exact h.symm⟩
    · next hd => exact .inr ⟨hd, by injection h with h; exact h.symm⟩

/-- SEQ acts on a result by aborting the run, by going on, or by ending the run (R163, R172). -/
theorem handOver_next {r : FrameResult} {s t : State} (h : handOver r s = .next t) :
    (∃ k pos, r = .err k pos ∧ t = abortRun k pos s) ∨
    (r = .ok ∧ s.seqState = .xfer ∧ stepDone s = .next t) ∨
    (r = .ok ∧ s.seqState ≠ .xfer ∧ t = runDone s) := by
  unfold handOver at h
  split at h
  · next k pos => exact .inl ⟨k, pos, rfl, by injection h with h; exact h.symm⟩
  · split at h
    · next hx => exact .inr (.inl ⟨rfl, hx, h⟩)
    · next hx => exact .inr (.inr ⟨rfl, hx, by injection h with h; exact h.symm⟩)

theorem pendingResult_ok {s : State} : pendingResult s = .ok ↔ s.mErrKind = .none := by
  unfold pendingResult
  split <;> simp_all

theorem pendingResult_err {s : State} {k : ErrKind} {pos : Count} :
    pendingResult s = .err k pos ↔ k ≠ .none ∧ s.mErrKind = k ∧ s.mErrPos = pos := by
  unfold pendingResult
  split
  · next h =>
    constructor
    · intro he
      cases he
    · rintro ⟨hk, he, -⟩
      exact absurd (he.symm.trans h) hk
  · next k' h =>
    constructor
    · intro he
      injection he with h1 h2
      subst h1
      exact ⟨fun hn => h (by simpa using hn), rfl, h2⟩
    · rintro ⟨-, rfl, rfl⟩
      rfl

/-! ### The byte slots -/

/-- The four ways an address slot can end, by the environment's answer (R125, R127, R136 to R138). -/
theorem addrSlot_cases (a : BusAddr) (rw : Dir) (s : State) (u : State)
    (hu : u = { s with env := (s.env.askWrite s.trace (addrByte a rw)).2 }) :
    ((s.env.askWrite s.trace (addrByte a rw)).1 = .ack ∧
      addrSlot a rw s = afterAddress rw (emit [.TX (addrByte a rw), .AI .ack] u)) ∨
    ((s.env.askWrite s.trace (addrByte a rw)).1 = .nack ∧
      addrSlot a rw s = refuseSlot 0#9 (emit [.TX (addrByte a rw), .AI .nack] u)) ∨
    ((s.env.askWrite s.trace (addrByte a rw)).1 = .arbLost ∧ addrSlot a rw s = abandon .arbitration 0#9 u) ∨
    ((s.env.askWrite s.trace (addrByte a rw)).1 = .stall ∧ addrSlot a rw s = stallSlot 0#9 u) := by
  subst hu
  simp only [addrSlot, askWrite]
  rcases h : (s.env.askWrite s.trace (addrByte a rw)).1 <;> simp

/-- The four ways a write data slot can end, by the environment's answer (R126, R129, R136 to R138). -/
theorem txSlot_cases (b : Byte) (s : State) (u : State)
    (hu : u = { s with env := (s.env.askWrite s.trace b).2 }) :
    ((s.env.askWrite s.trace b).1 = .ack ∧ txSlot b s = afterData (emit [.TX b, .AI .ack] u)) ∨
    ((s.env.askWrite s.trace b).1 = .nack ∧
      txSlot b s = refuseSlot (s.byteIdx + 1#9) (emit [.TX b, .AI .nack] u)) ∨
    ((s.env.askWrite s.trace b).1 = .arbLost ∧ txSlot b s = abandon .arbitration (s.byteIdx + 1#9) u) ∨
    ((s.env.askWrite s.trace b).1 = .stall ∧ txSlot b s = stallSlot (s.byteIdx + 1#9) u) := by
  subst hu
  simp only [txSlot, askWrite]
  rcases h : (s.env.askWrite s.trace b).1 <;> simp

/-- The two ways a read data slot can end (R133, R136, R138). -/
theorem rxSlot_cases (s : State) (u : State) (hu : u = { s with env := (s.env.askRead s.trace).2 }) :
    (∃ b, (s.env.askRead s.trace).1 = .byte b ∧ rxSlot s = receiveByte b u) ∨
    ((s.env.askRead s.trace).1 = .stall ∧ rxSlot s = stallSlot (s.byteIdx + 1#9) u) := by
  subst hu
  simp only [rxSlot, askRead]
  rcases h : (s.env.askRead s.trace).1 with b | _ <;> simp

/-- A stalled slot waits, or ends with TimeoutError (R136, R138). -/
theorem stallSlot_cases (pos : Count) (s : State) :
    (s.params.timeoutMs = 0 ∧ stallSlot pos s = s) ∨
    (s.params.timeoutMs ≠ 0 ∧ stallSlot pos s = abandon .timeout pos s) := by
  unfold stallSlot
  by_cases h : s.params.timeoutMs = 0 <;> simp [h]

/-! ### The meanings -/

/-- A step inside the bounds of R98 starts its frame; another is refused (R104). -/
theorem execWrc_cases (addr : BusAddr) (len : Count) (ptr : Byte) (s : State) :
    ((commandLenOk len && payloadOk ptr len) = true ∧
      execWrc addr len ptr s = .next (sendFrame addr (len + 1#9) (commandFrame s.byteRom ptr len) s)) ∨
    execWrc addr len ptr s = .refused .malformedStep := by
  unfold execWrc
  split
  · next h => exact .inl ⟨h, rfl⟩
  · exact .inr rfl

theorem execWrd_cases (addr : BusAddr) (len : Count) (s : State) :
    (commandLenOk len = true ∧ execWrd addr len s = .next (sendFrame addr (len + 1#9) (patternFrame len) s)) ∨
    execWrd addr len s = .refused .malformedStep := by
  unfold execWrd
  split
  · next h => exact .inl ⟨h, rfl⟩
  · exact .inr rfl

theorem execWrr_cases (addr : BusAddr) (len : Count) (ptr : Byte) (s : State) :
    ((rawLenOk len && payloadOk ptr len) = true ∧
      execWrr addr len ptr s = .next (sendFrame addr len (rawFrame s.byteRom ptr len) s)) ∨
    execWrr addr len ptr s = .refused .malformedStep := by
  unfold execWrr
  split
  · next h => exact .inl ⟨h, rfl⟩
  · exact .inr rfl

theorem execRdr_cases (addr : BusAddr) (len : Count) (s : State) :
    (rawLenOk len = true ∧ execRdr addr len s = .next (startMft addr .read len { s with seqState := .xfer })) ∨
    execRdr addr len s = .refused .malformedStep := by
  unfold execRdr
  split
  · next h => exact .inl ⟨h, rfl⟩
  · exact .inr rfl

/-! ### Lengths of assembled frames -/

theorem commandLenOk_iff {len : Count} : commandLenOk len = true ↔ 1 ≤ len.toNat ∧ len.toNat ≤ 255 := by
  simp [commandLenOk]

theorem rawLenOk_iff {len : Count} : rawLenOk len = true ↔ 1 ≤ len.toNat ∧ len.toNat ≤ 256 := by
  simp only [rawLenOk, show Config.bufCap = 256 from rfl, Bool.and_eq_true, decide_eq_true_eq]

theorem payloadOk_iff {ptr : Byte} {len : Count} : payloadOk ptr len = true ↔ ptr.toNat + len.toNat ≤ 37 := by
  simp only [payloadOk, show Config.byteRomLen = 37 from rfl, decide_eq_true_eq]

/-- `len + 1` does not wrap within the bounds of R98 (R103). -/
theorem len_succ_toNat {len : Count} (h : len.toNat ≤ 255) : (len + 1#9).toNat = len.toNat + 1 := by
  rw [BitVec.toNat_add]
  have : (1#9 : Count).toNat = 1 := rfl
  rw [this]
  simp only [Nat.reducePow]
  omega

theorem romBytes_length (rom : Vector Byte 37) (ptr : Byte) (len : Count) (h : ptr.toNat + len.toNat ≤ 37) :
    (romBytes rom ptr len).length = len.toNat := by
  simp [romBytes]
  omega

theorem commandFrame_length (rom : Vector Byte 37) (ptr : Byte) (len : Count) (h : ptr.toNat + len.toNat ≤ 37) :
    (commandFrame rom ptr len).length = len.toNat + 1 := by
  simp [commandFrame, romBytes_length rom ptr len h]

theorem patternFrame_length (len : Count) : (patternFrame len).length = len.toNat + 1 := by
  simp [patternFrame]

theorem rawFrame_length (rom : Vector Byte 37) (ptr : Byte) (len : Count) (h : ptr.toNat + len.toNat ≤ 37) :
    (rawFrame rom ptr len).length = len.toNat := romBytes_length rom ptr len h

/-- Byte `j` of the payload is `BYTE_ROM[ptr + j]` (R100). -/
theorem romBytes_get (rom : Vector Byte 37) (ptr : Byte) (len : Count) (j : Nat) (hj : j < len.toNat) :
    (romBytes rom ptr len)[j]? = rom[ptr.toNat + j]? := by
  simp [romBytes, hj]

end Sys2Proof.Machine
end

