-- ==== Sys2Proof/Laws/Step.lean ====
section
/-! SUPPORT. What a step can do, said once: `step_next` takes a step apart into reset, host accesses and a move of the
block, `BlockMove` lists the moves, and `TickMove` lists what a tick of MFT at line level does. Later proofs cite
these and do not unfold the step function. -/

namespace Sys2Proof.Machine

open Sys2Proof

theorem mapNext_next {f : State → State} {o : Host.Outcome State Fault Refusal} {t : State}
    (h : mapNext f o = .next t) : ∃ u, o = .next u ∧ t = f u := by
  cases o with
  | next u => exact ⟨u, rfl, by injection h with h; exact h.symm⟩
  | fault r => cases h
  | refused r => cases h

/-- A step that answers a next state: reset, or host accesses and a move of the block. -/
theorem step_next {s t : State} (h : step s = .next t) :
    (s.ports.rst = true ∧ t = advancePorts (resetEdge s)) ∨
    (s.ports.rst = false ∧ s.badHostRead = false ∧ ∃ u, blockStep (hostWrite s) = .next u ∧ t = advancePorts u) := by
  obtain ⟨u, hu, rfl⟩ := mapNext_next h
  by_cases hr : s.ports.rst = true
  · simp only [hr, if_true] at hu
    injection hu with hu
    exact .inl ⟨hr, by rw [hu]⟩
  · have hr' : s.ports.rst = false := by simpa using hr
    simp only [hr', Bool.false_eq_true, if_false, runStep] at hu
    split at hu
    · cases hu
    · next hb => exact .inr ⟨hr', by simpa using hb, u, hu, rfl⟩

/-! ### Line level -/

/-- The state with the registers that only the line level counts with changed. -/
def withLine (b : BitVec 4) (sh : Byte) (tm : Ticks) (q : Quarter) (k : Nat) (s : State) : State :=
  { s with bitCnt := b, shreg := sh, tmoCnt := tm, quarter := q, qTick := k }

/-- What a tick of MFT can do to `s`, by the symbol in progress, beside counting. -/
inductive TickMove (s : State) : State → Prop where
  | count (b sh tm q k) : TickMove s (withLine b sh tm q k s)
  | timeout : s.slotOpen = true → timeoutTicks s.params ≠ 0 →
      timeoutTicks s.params ≤ (s.tmoCnt + 1#32).toNat →
      TickMove s (abandon .timeout s.slotPos (withLine s.bitCnt s.shreg (s.tmoCnt + 1#32) s.quarter s.qTick s))
  | arbitration (tm k) : s.mftState = .addr ∨ s.mftState = .tx → s.quarter = .second → s.sendingBit = true →
      s.sdaIn = false → TickMove s (abandon .arbitration s.slotPos (withLine s.bitCnt s.shreg tm s.quarter k s))
  | sampleNack (b sh tm q k) : s.mftState = .aack ∨ s.mftState = .tack →
      TickMove s { withLine b sh tm q k s with mErrKind := .addressing, mErrPos := s.slotPos }
  | start (b sh tm q k) : s.mftState = .start → TickMove s (startFrame (withLine b sh tm q k s))
  | addrSent (b sh tm q k) : s.mftState = .addr → TickMove s { withLine b sh tm q k s with mftState := .aack }
  | dataSent (b sh tm q k) : s.mftState = .tx → TickMove s { withLine b sh tm q k s with mftState := .tack }
  | dataReceived (b sh tm q k) : s.mftState = .rx → TickMove s { withLine b sh tm q k s with mftState := .rack }
  | addrAck (b sh tm q k) : s.mftState = .aack → s.mErrKind = .none →
      TickMove s (afterAddress s.fRw (emit [.TX s.frameAddrByte, .AI .ack] (withLine b sh tm q k s)))
  | addrNack (b sh tm q k) : s.mftState = .aack → s.mErrKind ≠ .none →
      TickMove s { emit [.TX s.frameAddrByte, .AI .nack] (withLine b sh tm q k s) with mftState := .stop }
  | dataAck (b sh tm q k) (d : Byte) : s.mftState = .tack → s.mErrKind = .none →
      Memory.read s.txbuf s.byteIdx.toNat = some d →
      TickMove s (afterData (emit [.TX d, .AI .ack] (withLine b sh tm q k s)))
  | dataNack (b sh tm q k) (d : Byte) : s.mftState = .tack → s.mErrKind ≠ .none →
      Memory.read s.txbuf s.byteIdx.toNat = some d →
      TickMove s { emit [.TX d, .AI .nack] (withLine b sh tm q k s) with mftState := .stop }
  | readAck (b sh tm q k) (d : Byte) : s.mftState = .rack → TickMove s (receiveByte d (withLine b sh tm q k s))
  | stop (tm q k) (t : State) : s.mftState = .stop →
      stopFrame (withLine s.bitCnt s.shreg tm q k s) = .next t → TickMove s t

theorem sampleBit_move (s : State) (tm : Ticks) (k : Nat) (hq : s.quarter = .second) :
    TickMove s (sampleBit { s with tmoCnt := tm, qTick := k }) := by
  unfold sampleBit
  split
  · next h =>
    split
    · next hc =>
      simp only [Bool.and_eq_true, Bool.not_eq_true'] at hc
      exact .arbitration tm k (.inl h) hq hc.1 hc.2
    · exact .count s.bitCnt s.shreg tm .third k
  · next h =>
    split
    · next hc =>
      simp only [Bool.and_eq_true, Bool.not_eq_true'] at hc
      exact .arbitration tm k (.inr h) hq hc.1 hc.2
    · exact .count s.bitCnt s.shreg tm .third k
  · next h =>
    split
    · exact .sampleNack s.bitCnt s.shreg tm .third k (.inl h)
    · exact .count s.bitCnt s.shreg tm .third k
  · next h =>
    split
    · exact .sampleNack s.bitCnt s.shreg tm .third k (.inr h)
    · exact .count s.bitCnt s.shreg tm .third k
  · exact .count s.bitCnt _ tm .third k
  · exact .count s.bitCnt s.shreg tm .third k
  · exact .count s.bitCnt s.shreg tm .third k
  · exact .count s.bitCnt s.shreg tm .third k
  · exact .count s.bitCnt s.shreg tm s.quarter k

theorem loadByte_next {s t : State} (h : loadByte s = .next t) :
    ∃ b, t = { s with shreg := b, bitCnt := 8#4, mftState := .tx } := by
  unfold loadByte at h
  split at h
  · cases h
  · next b _ => exact ⟨b, by injection h with h; exact h.symm⟩

theorem symbolEnd_move {s t : State} (tm : Ticks) (q : Quarter) (k : Nat)
    (h : symbolEnd { s with tmoCnt := tm, quarter := q, qTick := k } = .next t) : TickMove s t := by
  unfold symbolEnd at h
  split at h
  · injection h with h; subst h; exact .count s.bitCnt s.shreg tm q k
  · next hm => injection h with h; subst h; exact .start 8#4 s.frameAddrByte tm q k hm
  · next hm =>
    injection h with h; subst h
    unfold shiftOut
    by_cases hb : s.bitCnt = 1#4
    · simp only [hb, if_true]
      exact .addrSent _ _ tm q k hm
    · simp only [hb, if_false]
      exact .count _ _ tm q k
  · next hm =>
    unfold endAddressAck at h
    split at h
    · next he =>
      split at h
      · next hrw =>
        obtain ⟨b, rfl⟩ := loadByte_next h
        have := TickMove.addrAck (s := s) 8#4 b tm q k hm he
        have hw : s.fRw = .write := hrw
        rw [hw] at this
        exact this
      · next hrw =>
        injection h with h; subst h
        have := TickMove.addrAck (s := s) 8#4 0#8 tm q k hm he
        have hw : s.fRw = .read := hrw
        rw [hw] at this
        exact this
    · next he => injection h with h; subst h; exact .addrNack s.bitCnt s.shreg tm q k hm he
  · next hm =>
    injection h with h; subst h
    unfold shiftOut
    by_cases hb : s.bitCnt = 1#4
    · simp only [hb, if_true]
      exact .dataSent _ _ tm q k hm
    · simp only [hb, if_false]
      exact .count _ _ tm q k
  · next hm =>
    unfold endDataAck at h
    split at h
    · cases h
    · next d hd =>
      split at h
      · next he =>
        split at h
        · injection h with h; subst h
          exact .dataAck s.bitCnt s.shreg tm q k d hm he hd
        · next hl =>
          obtain ⟨b, rfl⟩ := loadByte_next h
          have := TickMove.dataAck (s := s) 8#4 b tm q k d hm he hd
          have hl' : s.lastByte = false := Bool.eq_false_iff.2 hl
          unfold afterData at this ⊢
          have h1 : (emit [.TX d, .AI .ack] (withLine 8#4 b tm q k s)).lastByte = false := hl'
          simp only [h1] at this
          exact this
      · next he => injection h with h; subst h; exact .dataNack s.bitCnt s.shreg tm q k d hm he hd
  · next hm =>
    injection h with h; subst h
    by_cases hb : s.bitCnt = 1#4
    · simp only [hb, if_true]
      exact .dataReceived _ s.shreg tm q k hm
    · simp only [hb, if_false]
      have := TickMove.count (s := s) (s.bitCnt - 1#4) s.shreg tm q k
      have h2 : withLine (s.bitCnt - 1#4) s.shreg tm q k s =
          { s with tmoCnt := tm, quarter := q, qTick := k, bitCnt := s.bitCnt - 1#4, mftState := .rx } := by
        have : s.mftState = .rx := hm
        simp [withLine, this]
      rw [h2] at this
      exact this
  · next hm =>
    injection h with h; subst h
    unfold endReadAck
    split
    · exact .readAck s.bitCnt s.shreg tm q k s.shreg hm
    · next hl =>
      have := TickMove.readAck (s := s) 8#4 0#8 tm q k s.shreg hm
      have hl' : s.lastByte = false := Bool.eq_false_iff.2 hl
      unfold receiveByte at this ⊢
      have h1 : (withLine 8#4 0#8 tm q k s).lastByte = false := hl'
      have h3 : State.lastByte { s with tmoCnt := tm, quarter := q, qTick := k } = false := hl'
      simp only [h1] at this
      simp only [openReadSlot, h3]
      exact this
  · next hm => exact .stop tm q k t hm h

/-- What a tick of MFT can do (R150 to R154). -/
theorem mftTick_move {s t : State} (h : mftTick s = .next t) : TickMove s t := by
  unfold mftTick at h
  split at h
  · injection h with h; subst h; exact .count s.bitCnt s.shreg s.tmoCnt s.quarter s.qTick
  · unfold countTick at h
    split at h
    · next hc =>
      injection h with h; subst h
      simp only [Bool.and_eq_true] at hc
      have h2 := hc.2
      simp only [State.timedOut, decide_eq_true_eq] at h2
      exact .timeout hc.1 h2.1 h2.2
    · split at h
      · injection h with h; subst h; exact .count s.bitCnt s.shreg _ s.quarter s.qTick
      · split at h
        · injection h with h; subst h; exact .count s.bitCnt s.shreg _ s.quarter _
        · unfold quarterEnd at h
          split at h
          · injection h with h; subst h; exact .count s.bitCnt s.shreg _ _ 0
          · next hq => injection h with h; subst h; exact sampleBit_move s _ 0 hq
          · injection h with h; subst h; exact .count s.bitCnt s.shreg _ _ 0
          · exact symbolEnd_move _ _ _ h

/-! ### The block -/

/-- What the block can do in one step: nothing, accept a command, begin a step, make one symbol or byte slot (symbol
level), wait, or count one tick (line level). -/
inductive BlockMove (s : State) : State → Prop where
  | rest : s.seqState = .idle ∨ s.mftState = .idle → BlockMove s s
  | go : s.seqState = .idle → s.ports.go = true → s.tableOk = true → BlockMove s (acceptGo s.ports.goSel s)
  | req : s.seqState = .idle → s.ports.go = false → s.ports.reqValid = true →
      BlockMove s (acceptReq s.ports.reqRw s.ports.reqAddr s.ports.reqLen s)
  | endRun : s.seqState = .fetch → decodeStep s.stepWordAt = .ok .endScript → BlockMove s (runDone s)
  | send (a : BusAddr) (n : Count) (d : List Byte) : s.seqState = .fetch → 1 ≤ n.toNat → n.toNat ≤ 256 →
      d.length = n.toNat → BlockMove s (sendFrame a n d s)
  | receive (a : BusAddr) (n : Count) : s.seqState = .fetch → 1 ≤ n.toNat → n.toNat ≤ 256 →
      BlockMove s (startMft a .read n { s with seqState := .xfer })
  | start : s.level = .symbol → s.seqState = .xfer ∨ s.seqState = .direct → s.mftState = .start →
      BlockMove s (startFrame s)
  | address : s.level = .symbol → s.seqState = .xfer ∨ s.seqState = .direct →
      s.mftState = .addr ∨ s.mftState = .aack → BlockMove s (addrSlot s.fAddr s.fRw s)
  | data (b : Byte) : s.level = .symbol → s.seqState = .xfer ∨ s.seqState = .direct →
      s.mftState = .tx ∨ s.mftState = .tack → Memory.read s.txbuf s.byteIdx.toNat = some b →
      BlockMove s (txSlot b s)
  | read : s.level = .symbol → s.seqState = .xfer ∨ s.seqState = .direct → s.mftState = .rx ∨ s.mftState = .rack →
      BlockMove s (rxSlot s)
  | stop (t : State) : s.level = .symbol → s.seqState = .xfer ∨ s.seqState = .direct → s.mftState = .stop →
      stopFrame s = .next t → BlockMove s t
  | delay : s.level = .symbol → s.seqState = .delay → BlockMove s (leaveDelay s)
  | delayTick : s.level = .line → s.seqState = .delay → BlockMove s (delayTick s)
  | tick (t : State) : s.level = .line → s.seqState = .xfer ∨ s.seqState = .direct → s.mftState ≠ .idle →
      TickMove s t → BlockMove s t

theorem frameAddrByte_decode (s : State) :
    decodeAddr s.frameAddrByte =
      match s.fRw with
      | .write => .write s.fAddr
      | .read => .read s.fAddr := by
  unfold State.frameAddrByte
  cases s.fRw
  · exact decodeAddr_addrByte_write _
  · exact decodeAddr_addrByte_read _

/-- Running the address byte of the current frame is its address slot (R125). -/
theorem exec_frameAddrByte (s : State) : exec (decodeAddr s.frameAddrByte) s = .next (addrSlot s.fAddr s.fRw s) := by
  rw [frameAddrByte_decode]
  cases s.fRw <;> rfl

/-- Whatever the first data byte is, MFT sends it as it sends any byte (R106, R126). -/
theorem dataStep_eq (s : State) :
    dataStep s =
      match Memory.read s.txbuf s.byteIdx.toNat with
      | none => .fault (.unwrittenTxByte s.byteIdx.toNat)
      | some b => .next (txSlot b s) := by
  unfold dataStep
  rcases Memory.read s.txbuf s.byteIdx.toNat with _ | b
  · rfl
  · simp only
    split
    · unfold decodeCtrl
      by_cases h0 : b = Config.ctrlCmdByte
      · subst h0; rfl
      · by_cases h1 : b = Config.ctrlDataByte
        · subst h1; rfl
        · simp only [h0, h1, if_false]
    · rfl

theorem hostWord_decode (p : Ports) :
    (hostWord p = none ∧ p.go = false ∧ p.reqValid = false) ∨
    (p.go = true ∧ ∃ w, hostWord p = some w ∧ decode w = .ok (.go p.goSel)) ∨
    (p.go = false ∧ p.reqValid = true ∧ p.reqRw = .write ∧
      ∃ w, hostWord p = some w ∧ decode w = .ok (.reqWrite p.reqAddr p.reqLen)) ∨
    (p.go = false ∧ p.reqValid = true ∧ p.reqRw = .read ∧
      ∃ w, hostWord p = some w ∧ decode w = .ok (.reqRead p.reqAddr p.reqLen)) := by
  unfold hostWord
  by_cases hg : p.go = true
  · exact .inr (.inl ⟨hg, .go (goWord p.goSel), by simp [hg], decodeGo_goWord _⟩)
  · by_cases hr : p.reqValid = true
    · cases hd : p.reqRw
      · exact .inr (.inr (.inl ⟨by simpa using hg, hr, rfl, .req (reqWord .write p.reqAddr p.reqLen),
          by simp [hg, hr], congrArg Except.ok (decodeReq_write _ _)⟩))
      · exact .inr (.inr (.inr ⟨by simpa using hg, hr, rfl, .req (reqWord .read p.reqAddr p.reqLen),
          by simp [hg, hr], congrArg Except.ok (decodeReq_read _ _)⟩))
    · exact .inl ⟨by simp [hg, hr], by simpa using hg, by simpa using hr⟩

/-- What `Q_IDLE` does, by the host's ports (R161 to R163). -/
theorem idleStep_cases (s : State) :
    (s.ports.go = false ∧ s.ports.reqValid = false ∧ idleStep s = .next s) ∨
    (s.ports.go = true ∧ idleStep s = exec (.go s.ports.goSel) s) ∨
    (s.ports.go = false ∧ s.ports.reqValid = true ∧ s.ports.reqRw = .write ∧
      idleStep s = exec (.reqWrite s.ports.reqAddr s.ports.reqLen) s) ∨
    (s.ports.go = false ∧ s.ports.reqValid = true ∧ s.ports.reqRw = .read ∧
      idleStep s = exec (.reqRead s.ports.reqAddr s.ports.reqLen) s) := by
  unfold idleStep
  rcases hostWord_decode s.ports with ⟨h, h1, h2⟩ | ⟨h1, w, h, hd⟩ | ⟨h1, h2, h3, w, h, hd⟩ | ⟨h1, h2, h3, w, h, hd⟩
  · exact .inl ⟨h1, h2, by rw [h]⟩
  · exact .inr (.inl ⟨h1, by simp only [h, hd]⟩)
  · exact .inr (.inr (.inl ⟨h1, h2, h3, by simp only [h, hd]⟩))
  · exact .inr (.inr (.inr ⟨h1, h2, h3, by simp only [h, hd]⟩))

theorem idleStep_move {s t : State} (hq : s.seqState = .idle) (h : idleStep s = .next t) : BlockMove s t := by
  have hb : s.busy = false := by simp [State.busy, hq]
  rcases idleStep_cases s with ⟨-, -, he⟩ | ⟨hg, he⟩ | ⟨hg, hv, hd, he⟩ | ⟨hg, hv, hd, he⟩
  · rw [he] at h; injection h with h; subst h; exact .rest (.inl hq)
  · rw [he] at h
    simp only [exec, execGo, hb, Bool.false_eq_true, if_false] at h
    split at h
    · next ht => injection h with h; subst h; exact .go hq hg ht
    · cases h
  · rw [he] at h
    simp only [exec, execReqWrite, hb, Bool.false_eq_true, if_false] at h
    injection h with h; subst h; rw [← hd]; exact .req hq hg hv
  · rw [he] at h
    simp only [exec, execReqRead, hb, Bool.false_eq_true, if_false] at h
    injection h with h; subst h; rw [← hd]; exact .req hq hg hv

theorem fetchStep_move {s t : State} (hq : s.seqState = .fetch) (h : fetchStep s = .next t) : BlockMove s t := by
  unfold fetchStep at h
  rcases decodeStep_cases s.stepWordAt with ⟨-, he⟩ | ⟨-, he⟩ | ⟨-, he⟩ | ⟨-, he⟩ | ⟨-, he⟩ | ⟨-, he⟩ <;>
    simp only [he, exec] at h
  · unfold execEnd at h
    injection h with h; subst h; exact .endRun hq he
  · rcases execWrc_cases (stepAddr s.stepWordAt) (stepLen s.stepWordAt) (stepPtr s.stepWordAt) s with ⟨hw, hx⟩ | hx
    · rw [hx] at h; injection h with h; subst h
      rw [Bool.and_eq_true, commandLenOk_iff, payloadOk_iff] at hw
      have hl := len_succ_toNat hw.1.2
      exact .send _ _ _ hq (by omega) (by omega) (by rw [commandFrame_length _ _ _ hw.2, hl])
    · rw [hx] at h; cases h
  · rcases execWrd_cases (stepAddr s.stepWordAt) (stepLen s.stepWordAt) s with ⟨hw, hx⟩ | hx
    · rw [hx] at h; injection h with h; subst h
      rw [commandLenOk_iff] at hw
      have hl := len_succ_toNat hw.2
      exact .send _ _ _ hq (by omega) (by omega) (by rw [patternFrame_length, hl])
    · rw [hx] at h; cases h
  · rcases execWrr_cases (stepAddr s.stepWordAt) (stepLen s.stepWordAt) (stepPtr s.stepWordAt) s with ⟨hw, hx⟩ | hx
    · rw [hx] at h; injection h with h; subst h
      rw [Bool.and_eq_true, rawLenOk_iff, payloadOk_iff] at hw
      exact .send _ _ _ hq hw.1.1 hw.1.2 (rawFrame_length _ _ _ hw.2)
    · rw [hx] at h; cases h
  · rcases execRdr_cases (stepAddr s.stepWordAt) (stepLen s.stepWordAt) s with ⟨hw, hx⟩ | hx
    · rw [hx] at h; injection h with h; subst h
      rw [rawLenOk_iff] at hw
      exact .receive _ _ hq hw.1 hw.2
    · rw [hx] at h; cases h
  · cases h

theorem mftStep_move {s t : State} (hl : s.level = .symbol) (hq : s.seqState = .xfer ∨ s.seqState = .direct)
    (h : mftStep s = .next t) : BlockMove s t := by
  unfold mftStep at h
  split at h
  · next hm => injection h with h; subst h; exact .rest (.inr hm)
  · next hm => injection h with h; subst h; exact .start hl hq hm
  · next hm => rw [exec_frameAddrByte] at h; injection h with h; subst h; exact .address hl hq (.inl hm)
  · next hm => rw [exec_frameAddrByte] at h; injection h with h; subst h; exact .address hl hq (.inr hm)
  · next hm =>
    rw [dataStep_eq] at h
    split at h
    · cases h
    · next b hb => injection h with h; subst h; exact .data b hl hq (.inl hm) hb
  · next hm =>
    rw [dataStep_eq] at h
    split at h
    · cases h
    · next b hb => injection h with h; subst h; exact .data b hl hq (.inr hm) hb
  · next hm => injection h with h; subst h; exact .read hl hq (.inl hm)
  · next hm => injection h with h; subst h; exact .read hl hq (.inr hm)
  · next hm => exact .stop t hl hq hm h

/-- What a step of the block can do. -/
theorem blockStep_move {s t : State} (h : blockStep s = .next t) : BlockMove s t := by
  unfold blockStep at h
  split at h
  · next hl =>
    unfold symbolStep at h
    split at h
    · next hq => exact idleStep_move hq h
    · next hq => exact fetchStep_move hq h
    · next hq => exact mftStep_move hl (.inl hq) h
    · next hq => exact mftStep_move hl (.inr hq) h
    · next hq => injection h with h; subst h; exact .delay hl hq
  · next hl =>
    split at h
    · unfold lineStep at h
      split at h
      · next hq => exact idleStep_move hq h
      · next hq => exact fetchStep_move hq h
      · next hq =>
        by_cases hm : s.mftState = .idle
        · simp only [mftTick, hm] at h
          injection h with h; subst h; exact .rest (.inr hm)
        · exact .tick t hl (.inl hq) hm (mftTick_move h)
      · next hq =>
        by_cases hm : s.mftState = .idle
        · simp only [mftTick, hm] at h
          injection h with h; subst h; exact .rest (.inr hm)
        · exact .tick t hl (.inr hq) hm (mftTick_move h)
      · next hq => injection h with h; subst h; exact .delayTick hl hq
    · cases h

end Sys2Proof.Machine
end

