-- ==== Sys2Proof/Laws/Run.lean ====
section
/-! SUPPORT. Runs: how they compose, and what one symbol-level step does when the host does not disturb the block.
`Reaches n s u` says that `n` steps lead from `s` to a state that is `u` but for the host's ports. -/

namespace Sys2Proof.Machine

open Sys2Proof

/-! ### Composition -/

@[simp] theorem run_zero (s : State) : run 0 s = .next s := rfl

theorem run_succ (n : Nat) (s t : State) (h : step s = .next t) : run (n + 1) s = run n t := by
  simp only [run, h]

/-- Runs compose. -/
theorem run_add {m : Nat} {s t : State} (h : run m s = .next t) (n : Nat) : run (m + n) s = run n t := by
  induction m generalizing s with
  | zero =>
    injection h with h
    subst h
    rw [Nat.zero_add]
  | succ m ih =>
    rw [show m + 1 + n = (m + n) + 1 by omega]
    simp only [run] at h ⊢
    cases hs : step s with
    | next u =>
      rw [hs] at h
      exact ih h
    | fault r => rw [hs] at h; cases h
    | refused r => rw [hs] at h; cases h

/-- Every shorter run of a run that answers a next state answers one. -/
theorem run_prefix {m n : Nat} {s t : State} (h : run (m + n) s = .next t) :
    ∃ u, run m s = .next u ∧ run n u = .next t := by
  induction m generalizing s with
  | zero => exact ⟨s, rfl, by rwa [Nat.zero_add] at h⟩
  | succ m ih =>
    rw [show m + 1 + n = (m + n) + 1 by omega] at h
    simp only [run] at h
    cases hs : step s with
    | next u =>
      rw [hs] at h
      obtain ⟨v, h1, h2⟩ := ih h
      exact ⟨v, by rw [run_succ m s u hs, h1], h2⟩
    | fault r => rw [hs] at h; cases h
    | refused r => rw [hs] at h; cases h

/-! ### The host's ports -/

theorem hostWrite_of_busy {s : State} (h : s.busy = true) : hostWrite s = s := by simp [hostWrite, h]

/-- A write of the host changes `txbuf` only. -/
theorem hostWrite_eq (s : State) : hostWrite s = { s with txbuf := (hostWrite s).txbuf } := by
  unfold hostWrite
  split <;> rfl

/-- The host's next levels change the ports only. -/
theorem advancePorts_eq (s : State) :
    advancePorts s = { s with ports := (advancePorts s).ports, schedule := (advancePorts s).schedule } := by
  unfold advancePorts
  split <;> rfl

theorem undisturbed_calm {s : State} (h : s.undisturbed) : s.calm :=
  ⟨h.1, by simp [State.badHostRead, h.2.1]⟩

theorem undisturbed_advance {s : State} (h : s.undisturbed) : (advancePorts s).undisturbed := by
  obtain ⟨h1, h2, h3⟩ := h
  unfold advancePorts
  split
  · exact ⟨h1, h2, h3⟩
  · next p ps hs =>
    rw [hs] at h3
    exact ⟨(h3 p (by simp)).1, (h3 p (by simp)).2, fun q hq => h3 q (by simp [hq])⟩

/-- A calm step is a step of the block after the host's write. -/
theorem step_of_calm {s : State} (h : s.calm) : step s = mapNext advancePorts (blockStep (hostWrite s)) := by
  simp [step, cycle, runStep, h.1, h.2]

theorem step_of_calm_busy {s : State} (h : s.calm) (hb : s.busy = true) :
    step s = mapNext advancePorts (blockStep s) := by
  rw [step_of_calm h, hostWrite_of_busy hb]

/-- A calm symbol-level step while MFT runs is a step of MFT. -/
theorem step_of_mft {s : State} (h : s.calm) (hl : s.level = .symbol)
    (hq : s.seqState = .xfer ∨ s.seqState = .direct) : step s = mapNext advancePorts (mftStep s) := by
  have hb : s.busy = true := by rcases hq with h | h <;> simp [State.busy, h]
  rw [step_of_calm_busy h hb]
  unfold blockStep symbolStep
  rcases hq with hq | hq <;> simp only [hl, hq]

/-! ### Reaching a state, but for the ports -/

/-- The two states differ at most in the host's ports. -/
def Alike (t u : State) : Prop := t = { u with ports := t.ports, schedule := t.schedule }

theorem Alike.refl (s : State) : Alike s s := rfl

/-- `n` steps lead from `s` to a state that is `u` but for the ports, the block being busy before each of them and the
host still not disturbing it. -/
def Reaches (n : Nat) (s u : State) : Prop :=
  ∃ t, run n s = .next t ∧ Alike t u ∧ t.undisturbed ∧ ∀ k v, k < n → run k s = .next v → v.busy = true

theorem Reaches.zero {s : State} (h : s.undisturbed) : Reaches 0 s s :=
  ⟨s, rfl, .refl s, h, fun _ _ hk => absurd hk (by omega)⟩

/-- A run followed by a path. -/
theorem Reaches.from_run {m n : Nat} {s t v : State} (h : run m s = .next t)
    (hb : ∀ k w, k < m → run k s = .next w → w.busy = true) (k : Reaches n t v) : Reaches (m + n) s v := by
  obtain ⟨w, h4, h5, h6, h7⟩ := k
  refine ⟨w, by rw [run_add h, h4], h5, h6, fun j x hj hx => ?_⟩
  by_cases hjm : j < m
  · exact hb j x hjm hx
  · rw [show j = m + (j - m) by omega, run_add h] at hx
    exact h7 (j - m) x (by omega) hx

theorem Reaches.trans {m n : Nat} {s u v : State} (h : Reaches m s u)
    (k : ∀ t, Alike t u → t.undisturbed → Reaches n t v) : Reaches (m + n) s v := by
  obtain ⟨t, h1, h2, h3, h4⟩ := h
  exact .from_run h1 h4 (k t h2 h3)

/-- The first step of a path. -/
theorem Reaches.cons {n : Nat} {s u v : State} (hb : s.busy = true) (hs : step s = .next (advancePorts u))
    (k : Reaches n (advancePorts u) v) : Reaches (n + 1) s v := by
  rw [Nat.add_comm]
  refine .from_run (by rw [run_succ 0 s _ hs]; rfl) (fun j w hj hw => ?_) k
  obtain rfl : j = 0 := by omega
  injection hw with hw
  rwa [← hw]

/-- One step that leads to `u` and the host's next levels. -/
theorem Reaches.one {s u : State} (hb : s.busy = true) (h : u.undisturbed) (hs : step s = .next (advancePorts u)) :
    Reaches 1 s u := by
  refine .cons hb hs ⟨advancePorts u, rfl, advancePorts_eq u, undisturbed_advance h, fun _ _ hk => absurd hk (by omega)⟩

theorem Alike.elim {t u : State} (h : Alike t u) : ∃ p l, t = { u with ports := p, schedule := l } := ⟨_, _, h⟩

theorem Alike.trans {t u v : State} (h : Alike t u) (k : Alike u v) : Alike t v := by
  unfold Alike at *
  rw [k] at h
  exact h

theorem Alike.env {t u : State} (h : Alike t u) (e : Env) : Alike { t with env := e } { u with env := e } := by
  unfold Alike at *
  rw [h]

theorem Reaches.alike {n : Nat} {s u v : State} (h : Reaches n s u) (k : Alike u v) : Reaches n s v := by
  obtain ⟨t, h1, h2, h3⟩ := h
  exact ⟨t, h1, h2.trans k, h3⟩

theorem advancePorts_alike (s : State) : Alike (advancePorts s) s := advancePorts_eq s

theorem Alike.busy {t u : State} (h : Alike t u) : t.busy = u.busy := by
  rw [h]
  rfl

end Sys2Proof.Machine
end

