-- ==== Sys2Proof/Laws/FrameRun.lean ====
section
/-! SUPPORT. A whole frame operation, run at symbol level from its start condition, does what `busWrite` or `busRead` does
as one action: `frame_write` and `frame_read`. Byte by byte: a slot may wait (`WaitsW`, `WaitsR`), then the answer
  comes
(`slot_reach`, `read_reach`); the data bytes follow by induction (`data_run`, `rx_run`). `SlotsEnd` says how the
  slots leave
the machine: before the stop condition, or with the frame abandoned. -/

namespace Sys2Proof.Machine

open Sys2Proof

theorem busy_of_running {s : State} (h : s.seqState = .xfer ∨ s.seqState = .direct) : s.busy = true := by
  rcases h with h | h <;> simp [State.busy, h]

/-! ### Slots -/

theorem abandon_eq (k pos) (s : State) : abandon k pos s = runFailed k pos [.X] s := by
  unfold abandon abortRun runFailed failStepOf
  cases h : s.seqState <;> simp [emit, h, State.localStep]

theorem addrSlot_eq (a rw) (s : State) : addrSlot a rw s = slotResult (addrByte a rw) 0#9 (s.env.askWrite s.trace
    (addrByte a rw)).1 (fun t => { t with mftState := if rw = .write then .tx else .rx }) { s with env := (s.env.askWrite s.trace (addrByte a rw)).2 } := by
  unfold addrSlot askWrite
  cases h : (s.env.askWrite s.trace (addrByte a rw)).1 <;> simp only [slotResult, abandon_eq]
  · cases rw <;> rfl
  · rfl
  · unfold stallSlot; simp only [abandon_eq]

theorem txSlot_eq (b) (s : State) : txSlot b s = slotResult b (s.byteIdx + 1#9) (s.env.askWrite s.trace b).1
    dataAcked { s with env := (s.env.askWrite s.trace b).2 } := by
  unfold txSlot askWrite
  cases h : (s.env.askWrite s.trace b).1 <;> simp only [slotResult, abandon_eq]
  · unfold afterData dataAcked; by_cases hh : s.byteIdx.toNat + 1 = s.fLen.toNat <;> simp [State.lastByte, emit, hh]
  · rfl
  · unfold stallSlot; simp only [abandon_eq]

/-- The next step is the slot in which `b` is driven. -/
def SlotStep (b : Byte) (pos : Count) (acked : State → State) (s : State) : Prop :=
  step s = .next (advancePorts (slotResult b pos (s.env.askWrite s.trace b).1 acked { s with env := (s.env.askWrite s.trace b).2 }))

theorem slot_addr {s : State} (hc : s.calm) (hl : s.level = .symbol) (hq : s.seqState = .xfer ∨ s.seqState = .direct)
    (hm : s.mftState = .addr) :
    SlotStep s.frameAddrByte 0#9 (fun t => { t with mftState := if s.fRw = .write then .tx else .rx }) s := by
  unfold SlotStep
  rw [step_of_mft hc hl hq]
  unfold mftStep
  simp only [hm, exec_frameAddrByte, mapNext, addrSlot_eq]
  rfl

theorem slot_tx {s : State} {b} (hc : s.calm) (hl : s.level = .symbol) (hq : s.seqState = .xfer ∨ s.seqState =
    .direct) (hm : s.mftState = .tx) (hb : Memory.read s.txbuf s.byteIdx.toNat = some b) :
    SlotStep b (s.byteIdx + 1#9) dataAcked s := by
  unfold SlotStep
  rw [step_of_mft hc hl hq]
  unfold mftStep
  simp only [hm, dataStep_eq, hb, mapNext, txSlot_eq]

/-- The environment stalls, with no timeout, before it answers. -/
def WaitsW (b : Byte) (tr : List Event) : Nat → Env → Env → Prop
  | 0, e, f => e = f
  | m + 1, e, f => (e.askWrite tr b).1 = .stall ∧ WaitsW b tr m (e.askWrite tr b).2 f

theorem patient_write (k b) (s : State) : ∃ m f, WaitsW b s.trace m s.env f ∧ (m ≠ 0 → s.params.timeoutMs = 0) ∧
   askWritePatiently k b s = ((f.askWrite s.trace b).1, { s with env := (f.askWrite s.trace b).2 }) := by
  induction k generalizing s with
  | zero => exact ⟨0, s.env, rfl, by simp, rfl⟩
  | succ k ih =>
    unfold askWritePatiently
    split
    · next h =>
      obtain ⟨m, f, h1, h2, h3⟩ := ih (askWrite b s).2
      exact ⟨m + 1, f, ⟨h.1, h1⟩, fun _ => h.2, h3⟩
    · exact ⟨0, s.env, rfl, by simp, rfl⟩

def WaitsR (tr : List Event) : Nat → Env → Env → Prop
  | 0, e, f => e = f
  | m + 1, e, f => (e.askRead tr).1 = .stall ∧ WaitsR tr m (e.askRead tr).2 f

theorem patient_read (k) (s : State) : ∃ m f, WaitsR s.trace m s.env f ∧ (m ≠ 0 → s.params.timeoutMs = 0) ∧
   askReadPatiently k s = ((f.askRead s.trace).1, { s with env := (f.askRead s.trace).2 }) := by
  induction k generalizing s with
  | zero => exact ⟨0, s.env, rfl, by simp, rfl⟩
  | succ k ih =>
    unfold askReadPatiently
    split
    · next h =>
      obtain ⟨m, f, h1, h2, h3⟩ := ih (askRead s).2
      exact ⟨m + 1, f, ⟨h.1, h1⟩, fun _ => h.2, h3⟩
    · exact ⟨0, s.env, rfl, by simp, rfl⟩

/-- Waiting in a slot until the environment answers. -/
theorem wait_reach (b pos acked) {m : Nat} : ∀ {s : State} {f : Env}, s.busy = true → s.undisturbed → WaitsW b
    s.trace m s.env f → (m ≠ 0 → s.params.timeoutMs = 0) →
    (∀ t e, Alike t { s with env := e } → t.undisturbed → SlotStep b pos acked t) →
    Reaches m s { s with env := f } := by
  induction m with
  | zero => intro s f _ hu hw _ _; cases hw; exact .zero hu
  | succ m ih =>
    intro s f hb hu hw ht hs
    have h0 := hs s s.env rfl hu
    unfold SlotStep at h0
    rw [hw.1] at h0
    simp only [slotResult, ht (by omega), if_true] at h0
    have hu' : State.undisturbed { s with env := (s.env.askWrite s.trace b).2 } := hu
    have ha := advancePorts_alike { s with env := (s.env.askWrite s.trace b).2 }
    have e1 : (advancePorts { s with env := (s.env.askWrite s.trace b).2 }).trace = s.trace := by rw [ha]
    have e2 : (advancePorts { s with env := (s.env.askWrite s.trace b).2 }).params = s.params := by rw [ha]
    have e3 : (advancePorts { s with env := (s.env.askWrite s.trace b).2 }).env = (s.env.askWrite s.trace b).2 := by
      rw [ha]
    refine Reaches.cons hb h0 ((ih (f := f) (by rw [ha.busy]; exact hb) (undisturbed_advance hu') ?_ ?_ ?_).alike ?_)
    · rw [e1, e3]; exact hw.2
    · rw [e2]; intro _; exact ht (by omega)
    · intro t e h1 h2; exact hs t e (h1.trans (by exact (ha.env e))) h2
    · exact ha.env f

/-- Where a frame stands when its slots are over: at the stop condition, or the run has ended without one. -/
def SlotsEnd (r : FrameResult) (u : State) (s w : State) : Prop :=
  match r with
  | .ok =>
    s.mErrKind = .none ∧ ∃ tr bi, u.trace = tr ++ [.P] ∧
      w = { s with env := u.env, trace := tr, byteIdx := bi, rxbuf := u.rxbuf, mftState := .stop }
  | .err k pos =>
    (k ≠ .none ∧ ∃ tr bi, u.trace = tr ++ [.P] ∧
      w =
        { s with
          env := u.env, trace := tr, byteIdx := bi, rxbuf := u.rxbuf, mftState := .stop, mErrKind := k
          mErrPos := pos }) ∨
    (k ≠ .none ∧ ∃ bi,
      w =
        { s with
          env := u.env, trace := u.trace, byteIdx := bi, rxbuf := u.rxbuf, mftState := .idle, seqState := .idle
          failed := true, errKind := k, errPos := pos, failStep := failStepOf s })

theorem SlotsEnd.from {r u s s' w} (h : SlotsEnd r u s' w) (p l : _) (e tr bi m rx)
    (hs : s' =
      { s with ports := p, schedule := l, env := e, trace := tr, byteIdx := bi, mftState := m, rxbuf := rx }) :
    ∃ w', SlotsEnd r u s w' ∧ Alike w w' := by
  subst hs
  unfold SlotsEnd at *
  cases r with
  | ok => obtain ⟨h0, tr, bi, h1, rfl⟩ := h; exact ⟨_, ⟨h0, tr, bi, h1, rfl⟩, rfl⟩
  | err k pos =>
    rcases h with ⟨hk, tr, bi, h1, rfl⟩ | ⟨hk, bi, rfl⟩
    · exact ⟨_, .inl ⟨hk, tr, bi, h1, rfl⟩, rfl⟩
    · exact ⟨_, .inr ⟨hk, bi, rfl⟩, rfl⟩


/-- A change that does not look at or touch the ports. -/
def PortFree (f : State → State) : Prop :=
  ∀ t p l, f { t with ports := p, schedule := l } = { f t with ports := p, schedule := l }

theorem slotResult_portFree (b pos x acked) (h : PortFree acked) : PortFree (slotResult b pos x acked) := by
  intro t p l
  cases x
  · exact h { t with trace := t.trace ++ [.TX b, .AI .ack] } p l
  · rfl
  · rfl
  · unfold slotResult; simp only; split <;> rfl

theorem portFree_undis {f} (h : PortFree f) {s : State} (hu : s.undisturbed) : (f s).undisturbed := by
  have := h s s.ports s.schedule
  have h2 : f s = { f s with ports := s.ports, schedule := s.schedule } := this
  rw [h2]; exact hu

theorem slot_reach {b pos acked} {m : Nat} {s : State} {f : Env} (hb : s.busy = true) (hu : s.undisturbed) (hw :
    WaitsW b s.trace m s.env f) (ht : m ≠ 0 → s.params.timeoutMs = 0)
    (hs : ∀ t e, Alike t { s with env := e } → t.undisturbed → SlotStep b pos acked t) (ha : PortFree acked) :
    Reaches (m + 1) s (slotResult b pos (f.askWrite s.trace b).1 acked { s with env := (f.askWrite s.trace b).2 }) :=
      by
  refine (wait_reach b pos acked hb hu hw ht hs).trans fun t h1 h2 => ?_
  have h3 := hs t f h1 h2
  unfold SlotStep at h3
  obtain ⟨p, l, rfl⟩ := h1.elim
  have e : slotResult b pos (f.askWrite s.trace b).1 acked { s with env := (f.askWrite s.trace b).2, ports := p, schedule := l } = { slotResult b pos (f.askWrite s.trace b).1 acked { s with env := (f.askWrite s.trace b).2 } with ports := p, schedule := l } := slotResult_portFree b pos _ acked ha { s with env := (f.askWrite s.trace b).2 } p l
  refine (Reaches.one (by exact hb) ?_ h3).alike ?_
  · exact portFree_undis (slotResult_portFree b pos _ acked ha) (s := { s with env := (f.askWrite s.trace b).2, ports := p, schedule := l }) h2
  · unfold Alike; rw [e]

theorem dataAcked_portFree : PortFree dataAcked := fun _ _ _ => rfl

theorem data_run (patience : Nat) (bs : List Byte) : ∀ {s v u : State} {r : FrameResult}, s.undisturbed → s.level =
    .symbol → s.seqState = .xfer ∨ s.seqState = .direct →
    s.mftState = .tx → s.mErrKind = .none → s.byteIdx.toNat + bs.length = s.fLen.toNat → bs ≠ [] → s.fLen.toNat ≤ 256
      →
    (∀ j, j < bs.length → Memory.read s.txbuf (s.byteIdx.toNat + j) = bs[j]?) →
    v.env = s.env → v.trace = s.trace → v.params = s.params → v.rxbuf = s.rxbuf →
    slotsWrite patience (fun t => (some .ok, emit [.P] t)) bs (s.byteIdx + 1#9) v = (some r, u) →
    ∃ n w, Reaches (n + 1) s w ∧ SlotsEnd r u s w := by
  induction bs with
  | nil => intro s v u r _ _ _ _ _ _ h; exact absurd rfl h
  | cons b bs ih =>
    intro s v u r hu hl hq hm hek hlen _ hmax hmem he htr hpar hrx h
    obtain ⟨m, f, hw, hto, hask⟩ := patient_write patience b v
    rw [he, htr] at hw
    rw [hpar] at hto
    have hb : Memory.read s.txbuf s.byteIdx.toNat = some b := by simpa using hmem 0 (by simp)
    have hslot : ∀ t e, Alike t { s with env := e } → t.undisturbed → SlotStep b (s.byteIdx + 1#9) dataAcked t := by
      intro t e h1 h2
      obtain ⟨p, l, rfl⟩ := h1.elim
      exact slot_tx (s := { s with env := e, ports := p, schedule := l }) (undisturbed_calm h2) hl hq hm hb
    have hreach := slot_reach (busy_of_running hq) hu hw hto hslot dataAcked_portFree
    simp only [slotsWrite, hask, htr] at h
    have hi : (s.byteIdx + 1#9).toNat = s.byteIdx.toNat + 1 := len_succ_toNat (by simp at hlen; omega)
    cases hx : (f.askWrite s.trace b).1 with
    | ack =>
      rw [hx] at h hreach
      simp only [slotResult] at hreach h
      cases bs with
      | nil =>
        simp only [slotsWrite, Prod.mk.injEq, Option.some.injEq] at h
        obtain ⟨rfl, rfl⟩ := h
        simp at hlen
        refine ⟨m, _, hreach, hek, _, s.byteIdx + 1#9, rfl, ?_⟩
        simp [dataAcked, hlen, emit, hrx]
      | cons c cs =>
        have hne : ¬ (s.byteIdx.toNat + 1 = s.fLen.toNat) := by simp at hlen; omega
        have e1 : dataAcked { s with env := (f.askWrite s.trace b).2, trace := s.trace ++ [.TX b, .AI .ack] } =
           { s with env := (f.askWrite s.trace b).2, trace := s.trace ++ [.TX b, .AI .ack], byteIdx := s.byteIdx + 1#9, mftState := .tx } := by
          simp [dataAcked, hne]
        rw [e1] at hreach
        obtain ⟨t, h1, h2, h3, hbz⟩ := hreach
        obtain ⟨p, l, rfl⟩ := h2.elim
        have IH := fun v hv1 hv2 hv3 hv4 hh => ih (s := { s with env := (f.askWrite s.trace b).2, trace := s.trace ++ [.TX b, .AI .ack], byteIdx := s.byteIdx + 1#9, mftState := .tx, ports := p, schedule := l })
          (v := v) (u := u) (r := r)
          h3 hl hq rfl hek (by simp only [hi]; simp at hlen ⊢; omega) (by simp) hmax (by
            intro j hj; simp only [hi]
            have := hmem (j+1) (by simp at hj ⊢; omega)
            simp only [List.getElem?_cons_succ] at this
            rw [← this]; congr 1; omega) hv1 hv2 hv3 hv4 hh
        obtain ⟨n, w, h4, h5⟩ := IH _ (by exact rfl) (by simp [emit]) (by exact hpar) (by exact hrx) h
        obtain ⟨w', h6, h7⟩ := h5.from _ _ _ _ _ _ _ rfl
        exact ⟨m + 1 + n, w', Reaches.alike (Reaches.from_run (m := m + 1) (n := n + 1) h1 hbz h4) h7, h6⟩
    | nack =>
      rw [hx] at h hreach
      simp only [slotResult, Prod.mk.injEq, Option.some.injEq] at hreach h
      obtain ⟨rfl, rfl⟩ := h
      refine ⟨m, _, hreach, .inl ⟨by simp, s.trace ++ [.TX b, .AI .nack], s.byteIdx, ?_, ?_⟩⟩ <;> simp [emit, hrx]
    | arbLost =>
      rw [hx] at h hreach
      simp only [slotResult, Prod.mk.injEq, Option.some.injEq] at hreach h
      obtain ⟨rfl, rfl⟩ := h
      refine ⟨m, _, hreach, .inr ⟨by simp, s.byteIdx, ?_⟩⟩
      rw [← abandon_eq]; simp [abandon, abortRun, emit, hrx]; rfl
    | stall =>
      rw [hx] at h hreach
      simp only [slotResult, stalled, hpar] at hreach h
      split at h
      · simp at h
      · next hz =>
        simp only [Prod.mk.injEq, Option.some.injEq] at h
        obtain ⟨rfl, rfl⟩ := h
        rw [if_neg hz] at hreach
        refine ⟨m, _, hreach, .inr ⟨by simp, s.byteIdx, ?_⟩⟩
        rw [← abandon_eq]; simp [abandon, abortRun, emit, hrx]; rfl

/-! reads -/
def readResult (x : ReadAnswer) (s : State) : State :=
  match x with
  | .byte b => receiveByte b s
  | .stall => stallSlot (s.byteIdx + 1#9) s

theorem rxSlot_eq (s : State) : rxSlot s = readResult (s.env.askRead s.trace).1 { s with env := (s.env.askRead s.trace).2 } := by
  unfold rxSlot askRead readResult
  cases h : (s.env.askRead s.trace).1 <;> simp only

theorem readResult_portFree (x) : PortFree (readResult x) := by
  intro t p l
  cases x
  · rfl
  · unfold readResult stallSlot; simp only; split <;> rfl

theorem step_rx {s : State} (hc : s.calm) (hl : s.level = .symbol) (hq : s.seqState = .xfer ∨ s.seqState = .direct)
    (hm : s.mftState = .rx) :
    step s = .next (advancePorts (readResult (s.env.askRead s.trace).1 { s with env := (s.env.askRead s.trace).2 }))
      := by
  rw [step_of_mft hc hl hq]
  unfold mftStep
  simp only [hm, mapNext, rxSlot_eq]

theorem wait_read {m : Nat} : ∀ {s : State} {f : Env}, s.undisturbed → s.level = .symbol → s.seqState = .xfer ∨
    s.seqState = .direct → s.mftState = .rx → WaitsR s.trace m s.env f → (m ≠ 0 → s.params.timeoutMs = 0) →
    Reaches m s { s with env := f } := by
  induction m with
  | zero => intro s f hu _ _ _ hw _; cases hw; exact .zero hu
  | succ m ih =>
    intro s f hu hl hq hm hw ht
    have h0 := step_rx (undisturbed_calm hu) hl hq hm
    rw [hw.1] at h0
    simp only [readResult, stallSlot, ht (by omega), if_true] at h0
    have hu' : State.undisturbed { s with env := (s.env.askRead s.trace).2 } := hu
    obtain ⟨p, l, ha⟩ := (advancePorts_alike { s with env := (s.env.askRead s.trace).2 }).elim
    have hu2 := undisturbed_advance hu'
    rw [ha] at h0 hu2
    have := ih (s := { s with env := (s.env.askRead s.trace).2, ports := p, schedule := l }) (f := f) hu2 hl hq hm
      hw.2 (fun _ => ht (by omega))
    rw [← ha] at h0 this
    obtain ⟨t, h1, h2, h3⟩ := Reaches.cons (busy_of_running hq) h0 this
    rw [ha] at h2
    exact ⟨t, h1, h2.trans rfl, h3⟩

theorem read_reach {m : Nat} {s : State} {f : Env} (hu : s.undisturbed) (hl : s.level = .symbol) (hq : s.seqState =
    .xfer ∨ s.seqState = .direct) (hm : s.mftState = .rx) (hw : WaitsR s.trace m s.env f) (ht : m ≠ 0 →
    s.params.timeoutMs = 0) :
    Reaches (m + 1) s (readResult (f.askRead s.trace).1 { s with env := (f.askRead s.trace).2 }) := by
  refine (wait_read hu hl hq hm hw ht).trans fun t h1 h2 => ?_
  obtain ⟨p, l, rfl⟩ := h1.elim
  have h3 := step_rx (s := { s with env := f, ports := p, schedule := l }) (undisturbed_calm h2) hl hq hm
  have e := readResult_portFree (f.askRead s.trace).1 { s with env := (f.askRead s.trace).2 } p l
  refine (Reaches.one (by exact busy_of_running hq) ?_ h3).alike ?_
  · exact portFree_undis (readResult_portFree _) (s := { s with env := (f.askRead s.trace).2, ports := p, schedule := l }) h2
  · unfold Alike; rw [e]

theorem rx_run (patience : Nat) (n : Nat) : ∀ {s v u : State} {r : FrameResult}, s.undisturbed → s.level = .symbol →
    s.seqState = .xfer ∨ s.seqState = .direct →
    s.mftState = .rx → s.mErrKind = .none → s.byteIdx.toNat + (n + 1) = s.fLen.toNat → s.fLen.toNat ≤ 256 →
    v.env = s.env → v.trace = s.trace → v.params = s.params → v.rxbuf = s.rxbuf →
    slotsRead patience (n + 1) s.byteIdx.toNat v = (some r, u) →
    ∃ k w, Reaches (k + 1) s w ∧ SlotsEnd r u s w := by
  induction n with
  | zero =>
    intro s v u r hu hl hq hm hek hlen hmax he htr hpar hrx h
    obtain ⟨m, f, hw, hto, hask⟩ := patient_read patience v
    rw [he, htr] at hw
    rw [hpar] at hto
    have hreach := read_reach hu hl hq hm hw hto
    have hi : (s.byteIdx + 1#9).toNat = s.byteIdx.toNat + 1 := len_succ_toNat (by omega)
    simp only [slotsRead, hask, htr] at h
    cases hx : (f.askRead s.trace).1 with
    | byte b =>
      rw [hx] at h hreach
      simp only [Prod.mk.injEq, Option.some.injEq] at h
      obtain ⟨rfl, rfl⟩ := h
      refine ⟨m, _, hreach, hek, _, s.byteIdx + 1#9, rfl, ?_⟩
      simp [readResult, receiveByte, State.lastByte, hlen, emit, hrx]
    | stall =>
      rw [hx] at h hreach
      simp only [stalled, hpar, readResult, stallSlot, abandon_eq] at hreach h
      split at h
      · simp at h
      · next hz =>
        simp only [Prod.mk.injEq, Option.some.injEq] at h
        obtain ⟨rfl, rfl⟩ := h
        rw [if_neg hz] at hreach
        refine ⟨m, _, hreach, .inr ⟨by simp, s.byteIdx, ?_⟩⟩
        have : BitVec.ofNat 9 (s.byteIdx.toNat + 1) = s.byteIdx + 1#9 := by
          apply BitVec.eq_of_toNat_eq; rw [hi, BitVec.toNat_ofNat]; simp only [Nat.reducePow]; omega
        rw [this, ← abandon_eq]; simp [abandon, abortRun, emit, hrx]; rfl
  | succ n ih =>
    intro s v u r hu hl hq hm hek hlen hmax he htr hpar hrx h
    obtain ⟨m, f, hw, hto, hask⟩ := patient_read patience v
    rw [he, htr] at hw
    rw [hpar] at hto
    have hreach := read_reach hu hl hq hm hw hto
    have hi : (s.byteIdx + 1#9).toNat = s.byteIdx.toNat + 1 := len_succ_toNat (by omega)
    rw [slotsRead] at h
    simp only [hask, htr] at h
    cases hx : (f.askRead s.trace).1 with
    | byte b =>
      rw [hx] at h hreach
      have hne : ¬ (s.byteIdx.toNat + 1 = s.fLen.toNat) := by omega
      simp only [readResult, receiveByte] at hreach h
      have hlb : State.lastByte { s with env := (f.askRead s.trace).2 } = false := by simp [State.lastByte, hne]
      simp only [hlb] at hreach
      obtain ⟨t, h1, h2, h3, hbz⟩ := hreach
      obtain ⟨p, l, rfl⟩ := h2.elim
      have IH := fun v hv1 hv2 hv3 hv4 hh => ih (v := v) (u := u) (r := r) h3 hl hq rfl hek
        (by show (s.byteIdx + 1#9).toNat + (n + 1) = s.fLen.toNat; omega) hmax hv1 hv2 hv3 hv4 hh
      simp only [hi] at IH
      obtain ⟨k, w, h4, h5⟩ := IH _ (by exact rfl) (by simp [emit]) (by exact hpar) (by simp [hrx]) h
      obtain ⟨w', h6, h7⟩ := h5.from _ _ _ _ _ _ _ rfl
      exact ⟨m + 1 + k, w', Reaches.alike (Reaches.from_run (m := m + 1) (n := k + 1) h1 hbz h4) h7, h6⟩
    | stall =>
      rw [hx] at h hreach
      simp only [stalled, hpar, readResult, stallSlot, abandon_eq] at hreach h
      split at h
      · simp at h
      · next hz =>
        simp only [Prod.mk.injEq, Option.some.injEq] at h
        obtain ⟨rfl, rfl⟩ := h
        rw [if_neg hz] at hreach
        refine ⟨m, _, hreach, .inr ⟨by simp, s.byteIdx, ?_⟩⟩
        have : BitVec.ofNat 9 (s.byteIdx.toNat + 1) = s.byteIdx + 1#9 := by
          apply BitVec.eq_of_toNat_eq; rw [hi, BitVec.toNat_ofNat]; simp only [Nat.reducePow]; omega
        rw [this, ← abandon_eq]; simp [abandon, abortRun, emit, hrx]; rfl

/-! ### The whole frame, from `M_START` on -/
theorem step_start {s : State} (hc : s.calm) (hl : s.level = .symbol) (hq : s.seqState = .xfer ∨ s.seqState =
    .direct) (hm : s.mftState = .start) :
    step s = .next (advancePorts { s with trace := s.trace ++ [.S], mftState := .addr }) := by
  rw [step_of_mft hc hl hq]
  unfold mftStep
  simp only [hm, mapNext]; rfl

/-- The address slot and, if it is acknowledged, what follows it. -/
theorem addr_run (patience : Nat) {rest : State → Option FrameResult × State} {bs : List Byte} {s v u : State} {r :
    FrameResult} (hu : s.undisturbed) (hl : s.level = .symbol) (hq : s.seqState = .xfer ∨ s.seqState = .direct)
    (hm : s.mftState = .addr) (he : v.env = s.env) (htr : v.trace = s.trace) (hpar : v.params = s.params) (hrx : v.rxbuf = s.rxbuf)
    (h : slotsWrite patience rest (s.frameAddrByte :: bs) 0#9 v = (some r, u))
    (hrest : ∀ (s' v' : State) p l,
      s' =
        { s with
          env := s'.env, trace := s'.trace, mftState := if s.fRw = .write then .tx else .rx, ports := p
          schedule := l } → s'.undisturbed →
       v'.env = s'.env → v'.trace = s'.trace → v'.params = s'.params → v'.rxbuf = s'.rxbuf → slotsWrite patience rest
         bs 1#9 v' = (some r, u) → ∃ n w, Reaches (n + 1) s' w ∧ SlotsEnd r u s' w) :
    ∃ n w, Reaches (n + 1) s w ∧ SlotsEnd r u s w := by
  obtain ⟨m, f, hw, hto, hask⟩ := patient_write patience s.frameAddrByte v
  rw [he, htr] at hw
  rw [hpar] at hto
  have hslot : ∀ t e, Alike t { s with env := e } → t.undisturbed → SlotStep s.frameAddrByte 0#9 (fun t => { t with
    mftState := if s.fRw = .write then .tx else .rx }) t := by
    intro t e h1 h2
    obtain ⟨p, l, rfl⟩ := h1.elim
    exact slot_addr (s := { s with env := e, ports := p, schedule := l }) (undisturbed_calm h2) hl hq hm
  have hreach := slot_reach (busy_of_running hq) hu hw hto hslot (fun _ _ _ => rfl)
  simp only [slotsWrite, hask, htr] at h
  cases hx : (f.askWrite s.trace s.frameAddrByte).1 with
  | ack =>
    rw [hx] at h hreach
    simp only [slotResult] at hreach h
    obtain ⟨t, h1, h2, h3, hbz⟩ := hreach
    obtain ⟨p, l, rfl⟩ := h2.elim
    obtain ⟨n, w, h4, h5⟩ := hrest _ _ p l rfl h3 (by exact rfl) (by simp [emit]) (by exact hpar) (by exact hrx) h
    obtain ⟨w', h6, h7⟩ := h5.from (s := s) _ _ _ _ _ _ _ rfl
    exact ⟨m + 1 + n, w', Reaches.alike (Reaches.from_run (m := m + 1) (n := n + 1) h1 hbz h4) h7, h6⟩
  | nack =>
    rw [hx] at h hreach
    simp only [slotResult, Prod.mk.injEq, Option.some.injEq] at hreach h
    obtain ⟨rfl, rfl⟩ := h
    refine ⟨m, _, hreach, .inl ⟨by simp, s.trace ++ [.TX s.frameAddrByte, .AI .nack], s.byteIdx, ?_, ?_⟩⟩ <;> simp
      [emit, hrx]
  | arbLost =>
    rw [hx] at h hreach
    simp only [slotResult, Prod.mk.injEq, Option.some.injEq] at hreach h
    obtain ⟨rfl, rfl⟩ := h
    refine ⟨m, _, hreach, .inr ⟨by simp, s.byteIdx, ?_⟩⟩
    rw [← abandon_eq]; simp [abandon, abortRun, emit, hrx]; rfl
  | stall =>
    rw [hx] at h hreach
    simp only [slotResult, stalled, hpar] at hreach h
    split at h
    · simp at h
    · next hz =>
      simp only [Prod.mk.injEq, Option.some.injEq] at h
      obtain ⟨rfl, rfl⟩ := h
      rw [if_neg hz] at hreach
      refine ⟨m, _, hreach, .inr ⟨by simp, s.byteIdx, ?_⟩⟩
      rw [← abandon_eq]; simp [abandon, abortRun, emit, hrx]; rfl

/-- A write frame from its start condition on is `busWrite`. -/
theorem frame_write (patience : Nat) {bs : List Byte} {s v u : State} {r : FrameResult} (hu : s.undisturbed) (hl :
    s.level = .symbol) (hq : s.seqState = .xfer ∨ s.seqState = .direct)
    (hm : s.mftState = .start) (hek : s.mErrKind = .none) (hrw : s.fRw = .write) (hz : s.byteIdx = 0#9) (hlen :
      bs.length = s.fLen.toNat) (h1 : 1 ≤ bs.length) (h2 : bs.length ≤ 256)
    (hmem : ∀ j, j < bs.length → Memory.read s.txbuf j = bs[j]?)
    (he : v.env = s.env) (htr : v.trace = s.trace) (hpar : v.params = s.params) (hrx : v.rxbuf = s.rxbuf)
    (h : busWrite patience s.fAddr bs v = (some r, u)) : ∃ n w, Reaches (n + 2) s w ∧ SlotsEnd r u s w := by
  have hb : ¬ (bs.length = 0 ∨ bs.length > Config.bufCap) := by have : Config.bufCap = 256 := rfl; omega
  rw [busWrite, if_neg hb] at h
  have h0 := step_start (undisturbed_calm hu) hl hq hm
  obtain ⟨p, l, ha⟩ := (advancePorts_alike { s with trace := s.trace ++ [.S], mftState := .addr }).elim
  have hu2 : (advancePorts { s with trace := s.trace ++ [.S], mftState := .addr }).undisturbed := undisturbed_advance
    (by exact hu)
  rw [ha] at h0 hu2
  have hab : addrByte s.fAddr .write = s.frameAddrByte := by simp [State.frameAddrByte, hrw]
  rw [hab] at h
  obtain ⟨n, w, h3, h4⟩ := addr_run patience
    (s := { s with trace := s.trace ++ [.S], mftState := .addr, ports := p, schedule := l }) (v := emit [.S] v)
    hu2 hl hq rfl he (by simp [emit, htr]) hpar hrx h (by
    intro s' v' p' l' hs' hu' e1 e2 e3 e4 h
    rw [hs'] at hu' e3 e4 ⊢
    simp only [hrw, if_true] at hu' ⊢
    exact data_run patience bs hu' hl hq rfl hek (by simp only [hz]; simp; omega) (by rintro rfl; simp at h1) (by
      show s.fLen.toNat ≤ 256; omega) (by simpa [hz] using hmem) e1 e2 e3 e4 (by simpa [hz] using h))
  obtain ⟨w', h6, h7⟩ := h4.from (s := s) _ _ _ _ _ _ _ rfl
  exact ⟨n, w', Reaches.alike (Reaches.cons (busy_of_running hq) (h0.trans (by rw [ha])) (by rw [ha]; exact h3)) h7,
    h6⟩

theorem frame_read (patience : Nat) {s v u : State} {r : FrameResult} (hu : s.undisturbed) (hl : s.level = .symbol)
    (hq : s.seqState = .xfer ∨ s.seqState = .direct)
    (hm : s.mftState = .start) (hek : s.mErrKind = .none) (hrw : s.fRw = .read) (hz : s.byteIdx = 0#9) (h1 : 1 ≤
      s.fLen.toNat) (h2 : s.fLen.toNat ≤ 256)
    (he : v.env = s.env) (htr : v.trace = s.trace) (hpar : v.params = s.params) (hrx : v.rxbuf = s.rxbuf)
    (h : busRead patience s.fAddr s.fLen.toNat v = (some r, u)) : ∃ n w, Reaches (n + 2) s w ∧ SlotsEnd r u s w := by
  have hb : ¬ (s.fLen.toNat = 0 ∨ s.fLen.toNat > Config.bufCap) := by have : Config.bufCap = 256 := rfl; omega
  rw [busRead, if_neg hb] at h
  have h0 := step_start (undisturbed_calm hu) hl hq hm
  obtain ⟨p, l, ha⟩ := (advancePorts_alike { s with trace := s.trace ++ [.S], mftState := .addr }).elim
  have hu2 : (advancePorts { s with trace := s.trace ++ [.S], mftState := .addr }).undisturbed := undisturbed_advance
    (by exact hu)
  rw [ha] at h0 hu2
  have hab : addrByte s.fAddr .read = s.frameAddrByte := by simp [State.frameAddrByte, hrw]
  rw [hab] at h
  obtain ⟨n, w, h3, h4⟩ := addr_run patience
    (s := { s with trace := s.trace ++ [.S], mftState := .addr, ports := p, schedule := l }) (v := emit [.S] v)
    hu2 hl hq rfl he (by simp [emit, htr]) hpar hrx h (by
    intro s' v' p' l' hs' hu' e1 e2 e3 e4 h
    rw [hs'] at hu' e3 e4 ⊢
    simp only [hrw, reduceCtorEq, if_false] at hu' ⊢
    simp only [slotsWrite] at h
    obtain ⟨k, hk⟩ : ∃ k, s.fLen.toNat = k + 1 := ⟨s.fLen.toNat - 1, by omega⟩
    rw [hk] at h
    exact rx_run patience k hu' hl hq rfl hek (by simp only [hz]; simp; omega) (by show s.fLen.toNat ≤ 256; omega) e1
      e2 e3 e4 (by simpa [hz] using h))
  obtain ⟨w', h6, h7⟩ := h4.from (s := s) _ _ _ _ _ _ _ rfl
  exact ⟨n, w', Reaches.alike (Reaches.cons (busy_of_running hq) (h0.trans (by rw [ha])) (by rw [ha]; exact h3)) h7,
    h6⟩
end Sys2Proof.Machine
end

