-- ==== Sys2Proof/Laws/Invariant.lean ====
section
/-! SUPPORT. The pieces of the machine's invariant: what each operation and each move of the block keeps of it
(10_state.md R24, R25, R33; 20_memory.md R68, R71, R72). -/

namespace Sys2Proof.Machine

open Sys2Proof

/-! ### Reading a trace -/

theorem phase_run_append (p : Option BusPhase) (a b : List Event) :
    BusPhase.run p (a ++ b) = BusPhase.run (BusPhase.run p a) b := by
  induction a generalizing p with
  | nil => cases p <;> simp [BusPhase.run]
  | cons e a ih =>
    cases p with
    | none => simp only [List.cons_append, BusPhase.run]; cases b <;> simp [BusPhase.run]
    | some p => simp only [List.cons_append, BusPhase.run, ih]

theorem tracePhase_append (a b : List Event) : tracePhase (a ++ b) = BusPhase.run (tracePhase a) b :=
  phase_run_append _ a b

/-! ### What stands outside the invariant -/

/-- The invariant does not read the line-level counters. -/
theorem inv_withLine {s : State} (h : s.Inv) (b sh tm q k) : (withLine b sh tm q k s).Inv :=
  ⟨h.txbuf, h.rxbuf, ⟨h.status.1, h.status.2, h.status.3, h.status.4, h.status.5⟩,
   ⟨h.frame.1, h.frame.2, h.frame.3, h.frame.4, h.frame.5, h.frame.6, h.frame.7, h.frame.8, h.frame.9, h.frame.10, h.frame.11⟩, h.pc, h.trace⟩

theorem inv_env {s : State} (h : s.Inv) (e : Env) : State.Inv { s with env := e } :=
  ⟨h.txbuf, h.rxbuf, ⟨h.status.1, h.status.2, h.status.3, h.status.4, h.status.5⟩,
   ⟨h.frame.1, h.frame.2, h.frame.3, h.frame.4, h.frame.5, h.frame.6, h.frame.7, h.frame.8, h.frame.9, h.frame.10, h.frame.11⟩, h.pc, h.trace⟩

theorem inv_ports {s : State} (h : s.Inv) (p : Ports) (l : List Ports) : State.Inv
    { s with ports := p, schedule := l } :=
  ⟨h.txbuf, h.rxbuf, ⟨h.status.1, h.status.2, h.status.3, h.status.4, h.status.5⟩,
   ⟨h.frame.1, h.frame.2, h.frame.3, h.frame.4, h.frame.5, h.frame.6, h.frame.7, h.frame.8, h.frame.9, h.frame.10, h.frame.11⟩, h.pc, h.trace⟩

/-- A run that ends with an error. -/
theorem inv_abort {s : State} (h : s.Inv) (k : ErrKind) (pos : Count) (hk : k ≠ .none) (hp : pos.toNat ≤ 256)
    (hd : s.done = false) (tr : List Event) (ht : tracePhase tr = some .closed) :
    State.Inv (abortRun k pos { s with trace := tr }) := by
  refine ⟨h.txbuf, h.rxbuf, ⟨?_, ?_, ?_, ?_, ?_⟩,
    ⟨?_, ?_, ?_, ?_, ?_, ?_, ?_, ?_, ?_, ?_, ?_⟩, ?_, .closed, ht, ?_⟩ <;>
    simp [State.busy, State.PcInv, State.phaseOk, hd, hk, hp, h.frame.pendingPos]

theorem busy_of {s : State} (h : s.seqState = .xfer ∨ s.seqState = .direct) : s.busy = true := by
  rcases h with h | h <;> simp [State.busy, h]

theorem phase_of {s : State} (h : s.Inv) {p : BusPhase} (hp : ∀ q, s.phaseOk q → q = p) : tracePhase s.trace = some
    p := by
  obtain ⟨q, h1, h2⟩ := h.trace
  rw [h1, hp q h2]

theorem phase_X {s : State} (h : s.Inv) (hm : s.frameOpen = true)
    (hs : s.mftState ≠ .start := by simp_all [State.frameOpen]) :
    tracePhase (s.trace ++ [.X]) = some .closed := by
  obtain ⟨q, h1, h2⟩ := h.trace
  rw [tracePhase_append, h1]
  simp only [State.frameOpen, decide_eq_true_eq] at hm
  unfold State.phaseOk at h2
  split at h2 <;> first
    | (exfalso; tauto)
    | (subst h2; rfl)
    | (rcases h2 with rfl | rfl <;> rfl)

theorem idx_succ {s : State} (h : s.Inv)
    (hm : s.mftState = .tx ∨ s.mftState = .tack ∨ s.mftState = .rx ∨ s.mftState = .rack) :
    (s.byteIdx + 1#9).toNat = s.byteIdx.toNat + 1 ∧ s.byteIdx.toNat + 1 ≤ s.fLen.toNat ∧ s.fLen.toNat ≤ 256 := by
  have h1 := h.frame.idxInside hm
  have h2 := h.frame.lenRange (by rcases hm with h | h | h | h <;> simp [h])
  exact ⟨len_succ_toNat (by omega), by omega, h2.2⟩

theorem inv_stopFrame {s t : State} (h : s.Inv) (hm : s.mftState = .stop) (ht : stopFrame s = .next t) : t.Inv := by
  have hrun := (h.frame.running).1 (by simp [hm])
  have hb := h.status.busyClear (busy_of hrun)
  have hph : tracePhase (s.trace ++ [.P]) = some .closed := by
    obtain ⟨q, h1, h2⟩ := h.trace
    rw [tracePhase_append, h1]
    simp only [State.phaseOk, hm] at h2
    rcases h2 with rfl | rfl <;> rfl
  unfold stopFrame at ht
  rcases handOver_next ht with ⟨k, pos, hr, rfl⟩ | ⟨hr, hx, ht⟩ | ⟨hr, hx, rfl⟩
  · obtain ⟨hk, he, hp⟩ := pendingResult_err.1 hr
    refine ⟨h.txbuf, h.rxbuf, ⟨?_, ?_, ?_, ?_, ?_⟩,
      ⟨?_, ?_, ?_, ?_, ?_, ?_, ?_, ?_, ?_, ?_, ?_⟩, ?_, .closed, hph, ?_⟩ <;>
    simp [State.busy, State.PcInv, State.phaseOk, hb, hk, ← hp, h.frame.pendingPos]
  · obtain ⟨hpc, h1⟩ := stepDone_next ht
    simp only [emit_seqState] at hx
    have hpi := h.pc (.inr (.inl hx))
    have hpc' : s.pc ≠ 31#5 := hpc
    have hlt := s.pc.isLt
    have hne : s.pc.toNat ≠ 31 := fun h => hpc' (BitVec.eq_of_toNat_eq h)
    have hsucc : (s.pc + 1#5).toNat = s.pc.toNat + 1 := by
      rw [BitVec.toNat_add]; simp only [show (1#5 : BitVec 5).toNat = 1 from rfl, Nat.reducePow] at *; omega
    have hst := h.status.noError hb.2
    rcases h1 with ⟨-, rfl⟩ | ⟨-, rfl⟩
    · refine ⟨h.txbuf, h.rxbuf, ⟨?_, ?_, ?_, ?_, ?_⟩,
        ⟨?_, ?_, ?_, ?_, ?_, ?_, ?_, ?_, ?_, ?_, ?_⟩, ?_, .closed, hph, ?_⟩ <;>
      simp [State.busy, State.PcInv, State.phaseOk, hb, h.frame.pendingPos, hst, hsucc]
      omega
    · refine ⟨h.txbuf, h.rxbuf, ⟨?_, ?_, ?_, ?_, ?_⟩,
        ⟨?_, ?_, ?_, ?_, ?_, ?_, ?_, ?_, ?_, ?_, ?_⟩, ?_, .closed, ?_, ?_⟩ <;>
      simp [State.busy, State.PcInv, State.phaseOk, hb, h.frame.pendingPos, hst, hsucc]
      · omega
      · rw [show ∀ n, s.trace ++ [Event.P, Event.DLY n] = (s.trace ++ [.P]) ++ [.DLY n] from by simp, tracePhase_append, hph]; rfl
  · have hst := h.status.noError hb.2
    refine ⟨h.txbuf, h.rxbuf, ⟨?_, ?_, ?_, ?_, ?_⟩,
      ⟨?_, ?_, ?_, ?_, ?_, ?_, ?_, ?_, ?_, ?_, ?_⟩, ?_, .closed, hph, ?_⟩ <;>
      simp [State.busy, State.PcInv, State.phaseOk, hb, h.frame.pendingPos, hst]

theorem inv_abandon {s : State} (h : s.Inv) (k : ErrKind) (pos : Count) (hk : k ≠ .none) (hp : pos.toNat ≤ 256)
    (hm : s.slotOpen = true) : State.Inv (abandon k pos s) := by
  have hmi : s.mftState ≠ .idle := by intro h; simp [State.slotOpen, h] at hm
  have hmi2 : s.mftState ≠ .start := by intro h; simp [State.slotOpen, h] at hm
  have hrun := (h.frame.running).1 hmi
  have hb := h.status.busyClear (busy_of hrun)
  exact inv_abort h k pos hk hp hb.1 _ (phase_X h (by simp [State.frameOpen, hmi, hmi2]) hmi2)

theorem slotPos_le {s : State} (h : s.Inv) (hm : s.slotOpen = true) : s.slotPos.toNat ≤ 256 := by
  unfold State.slotPos
  split
  · simp
  · simp
  · next h1 h2 =>
    have : s.mftState = .tx ∨ s.mftState = .tack ∨ s.mftState = .rx ∨ s.mftState = .rack := by
      unfold State.slotOpen at hm
      split at hm <;> simp_all
    have := idx_succ h this
    omega

/-- MFT moves on within the running frame. -/
theorem inv_frame_step {s : State} (h : s.Inv) (hm : s.mftState ≠ .idle) (m : MftState) (tr : List Event)
    (ek : ErrKind) (ep : Count) (bi : Count) (rx : Memory)
    (hmi : m ≠ .idle) (hrx : Memory.wf rx)
    (h3 : m = .start ∨ m = .addr ∨ m = .aack → bi = 0#9)
    (h4 : m = .tx ∨ m = .tack ∨ m = .rx ∨ m = .rack → bi.toNat < s.fLen.toNat)
    (h5 : bi.toNat ≤ s.fLen.toNat)
    (h6 : ek = .none ∨ ek = .addressing) (h7 : ep.toNat ≤ 256)
    (h8 : m = .start ∨ m = .addr ∨ m = .tx ∨ m = .rx ∨ m = .rack → ek = .none)
    (h9 : m = .tx ∨ m = .tack → s.fRw = .write)
    (h10 : m = .rx ∨ m = .rack → s.fRw = .read)
    (h11 : s.level = .symbol → m ≠ .aack ∧ m ≠ .tack ∧ m ≠ .rack)
    (p : BusPhase) (ht : tracePhase tr = some p)
    (hp : State.phaseOk { s with mftState := m, byteIdx := bi } p) :
    State.Inv { s with mftState := m, trace := tr, mErrKind := ek, mErrPos := ep, byteIdx := bi, rxbuf := rx } := by
  refine ⟨h.txbuf, hrx, ⟨h.status.1, h.status.2, h.status.3, h.status.4, h.status.5⟩,
    ⟨?_, ?_, h3, h4, fun _ => h5, fun _ => h6, h7, h8, h9, h10, h11⟩, h.pc, p, ht, hp⟩
  · have := h.frame.running; simp only [hmi, ne_eq, not_false_eq_true, true_iff]; exact this.1 hm
  · intro _; exact h.frame.lenRange hm

theorem slot_symbol {s : State} (h : s.Inv) (hl : s.level = .symbol) {m m' : MftState}
    (hm : s.mftState = m ∨ s.mftState = m') (h' : m' = .aack ∨ m' = .tack ∨ m' = .rack) : s.mftState = m := by
  have := h.frame.symbolOnly hl
  rcases hm with hm | hm
  · exact hm
  · rcases h' with rfl | rfl | rfl <;> tauto

theorem inv_stall {s : State} (h : s.Inv) (pos : Count) (hp : pos.toNat ≤ 256) (hm : s.slotOpen = true) :
    (stallSlot pos s).Inv := by
  rcases stallSlot_cases pos s with ⟨-, h1⟩ | ⟨-, h1⟩
  · rw [h1]; exact h
  · rw [h1]; exact inv_abandon h _ _ (by simp) hp hm

theorem addressedDir_addrByte (a : BusAddr) (rw : Dir) : addressedDir (addrByte a rw) = rw := addrByte_dir a rw

theorem inv_address_ack {s : State} (h : s.Inv) (hm : s.mftState = .addr ∨ s.mftState = .aack)
    (hek : s.mErrKind = .none) :
    State.Inv (afterAddress s.fRw (emit [.TX s.frameAddrByte, .AI .ack] s)) := by
  have hmi : s.mftState ≠ .idle := by rcases hm with hm | hm <;> simp [hm]
  have hz : s.byteIdx = 0#9 := h.frame.idxZero (by tauto)
  have hlen := h.frame.lenRange hmi
  have hph : tracePhase s.trace = some .started := phase_of h
    (fun q hq => by rcases hm with hm | hm <;> simpa [State.phaseOk, hm] using hq)
  have hph2 : tracePhase (s.trace ++ [.TX s.frameAddrByte, .AI .ack]) = some
    (match s.fRw with | .write => .writing false | .read => .reading) := by
    rw [tracePhase_append, hph]
    simp only [BusPhase.run, BusPhase.next, State.frameAddrByte, addressedDir_addrByte]
    cases s.fRw <;> rfl
  have := inv_frame_step h hmi (match s.fRw with | .write => .tx | .read => .rx)
    (s.trace ++ [.TX s.frameAddrByte, .AI .ack]) s.mErrKind s.mErrPos s.byteIdx s.rxbuf
    (by cases s.fRw <;> simp) h.rxbuf (by cases s.fRw <;> simp) (by intro _; rw [hz]; simp; omega) (by rw [hz]; simp) (.inl hek) h.frame.pendingPos (by intro _; exact hek)
    (by cases s.fRw <;> simp) (by cases s.fRw <;> simp) (by intro _; cases s.fRw <;> simp) _ hph2
    (by cases hrw : s.fRw <;> simp [State.phaseOk, hz])
  exact this

theorem inv_address_nack {s : State} (h : s.Inv) (hm : s.mftState = .addr ∨ s.mftState = .aack) (ek : ErrKind)
    (ep : Count)
   (h6 : ek = .none ∨ ek = .addressing) (h7 : ep.toNat ≤ 256) :
    State.Inv { s with trace := s.trace ++ [.TX s.frameAddrByte, .AI .nack], mErrKind := ek, mErrPos := ep, mftState := .stop} := by
  have hmi : s.mftState ≠ .idle := by rcases hm with hm | hm <;> simp [hm]
  have hph : tracePhase s.trace = some .started := phase_of h
    (fun q hq => by rcases hm with hm | hm <;> simpa [State.phaseOk, hm] using hq)
  have hph2 : tracePhase (s.trace ++ [.TX s.frameAddrByte, .AI .nack]) = some .ending := by
    rw [tracePhase_append, hph]
    simp only [BusPhase.run, BusPhase.next, State.frameAddrByte, addressedDir_addrByte]
  exact inv_frame_step h hmi .stop _ ek ep s.byteIdx s.rxbuf (by simp) h.rxbuf (by simp) (by simp)
    (h.frame.idxRange hmi) h6 h7 (by simp) (by simp) (by simp) (by simp) _ hph2 (by simp [State.phaseOk])

theorem phase_tx {s : State} (h : s.Inv) (hm : s.mftState = .tx ∨ s.mftState = .tack) (b : Byte) (a : AckBit) :
    tracePhase (s.trace ++ [.TX b, .AI a]) = some (match a with | .ack => .writing true | .nack => .ending) := by
  have hph : tracePhase s.trace = some (.writing (decide (s.byteIdx ≠ 0#9))) := phase_of h
    (fun q hq => by rcases hm with hm | hm <;> simpa [State.phaseOk, hm] using hq)
  rw [tracePhase_append, hph]
  cases decide (s.byteIdx ≠ 0#9) <;> cases a <;> rfl

theorem inv_data_ack {s : State} (h : s.Inv) (hm : s.mftState = .tx ∨ s.mftState = .tack) (hek : s.mErrKind = .none)
    (b : Byte) :
    State.Inv (afterData (emit [.TX b, .AI .ack] s)) := by
  have hmi : s.mftState ≠ .idle := by rcases hm with hm | hm <;> simp [hm]
  have hi := idx_succ h (by tauto)
  have hw := h.frame.writing hm
  by_cases hl : s.byteIdx.toNat + 1 = s.fLen.toNat
  · have := inv_frame_step h hmi .stop _ s.mErrKind s.mErrPos (s.byteIdx + 1#9) s.rxbuf (by simp) h.rxbuf (by simp)
      (by simp) (by omega) (.inl hek) h.frame.pendingPos (by simp) (by simp) (by simp) (by simp) _
      (phase_tx h hm b .ack) (by simp [State.phaseOk])
    have e : afterData (emit [.TX b, .AI .ack] s) =
      { s with mftState := .stop, trace := s.trace ++ [.TX b, .AI .ack], mErrKind := s.mErrKind, mErrPos := s.mErrPos, byteIdx := s.byteIdx + 1#9, rxbuf := s.rxbuf } := by
      simp [afterData, State.lastByte, emit, hl]
    rw [e]; exact this
  · have hne : s.byteIdx + 1#9 ≠ 0#9 := by intro hc; rw [hc] at hi; simp at hi
    have := inv_frame_step h hmi .tx _ s.mErrKind s.mErrPos (s.byteIdx + 1#9) s.rxbuf (by simp) h.rxbuf (by simp)
      (by intro _; omega) (by omega) (.inl hek) h.frame.pendingPos (by simp [hek]) (by simp [hw]) (by simp) (by simp)
      _ (phase_tx h hm b .ack) (by simp only [State.phaseOk]; simp [hne])
    have e : afterData (emit [.TX b, .AI .ack] s) =
      { s with mftState := .tx, trace := s.trace ++ [.TX b, .AI .ack], mErrKind := s.mErrKind, mErrPos := s.mErrPos, byteIdx := s.byteIdx + 1#9, rxbuf := s.rxbuf } := by
      simp [afterData, State.lastByte, emit, hl]
    rw [e]; exact this

theorem inv_data_nack {s : State} (h : s.Inv) (hm : s.mftState = .tx ∨ s.mftState = .tack) (ek : ErrKind) (ep : Count)
   (h6 : ek = .none ∨ ek = .addressing) (h7 : ep.toNat ≤ 256) (b : Byte) :
    State.Inv { s with trace := s.trace ++ [.TX b, .AI .nack], mErrKind := ek, mErrPos := ep, mftState := .stop} := by
  have hmi : s.mftState ≠ .idle := by rcases hm with hm | hm <;> simp [hm]
  exact inv_frame_step h hmi .stop _ ek ep s.byteIdx s.rxbuf (by simp) h.rxbuf (by simp) (by simp)
    (h.frame.idxRange hmi) h6 h7 (by simp) (by simp) (by simp) (by simp) _ (phase_tx h hm b .nack)
    (by simp [State.phaseOk])

theorem inv_receive {s : State} (h : s.Inv) (hm : s.mftState = .rx ∨ s.mftState = .rack) (b : Byte) :
    (receiveByte b s).Inv := by
  have hmi : s.mftState ≠ .idle := by rcases hm with hm | hm <;> simp [hm]
  have hek : s.mErrKind = .none := h.frame.noPending (by tauto)
  have hi := idx_succ h (by tauto)
  have hr := h.frame.reading hm
  have hph : tracePhase s.trace = some .reading := phase_of h
    (fun q hq => by rcases hm with hm | hm <;> simpa [State.phaseOk, hm] using hq)
  have hwf : Memory.wf (Memory.write s.rxbuf s.byteIdx.toNat b) := write_wf h.rxbuf
    (by have : Config.bufCap = 256 := rfl; omega)
  by_cases hl : s.byteIdx.toNat + 1 = s.fLen.toNat
  · have e : receiveByte b s =
      { s with mftState := .stop, trace := s.trace ++ [.RX b, .AO .nack], mErrKind := s.mErrKind, mErrPos := s.mErrPos, byteIdx := s.byteIdx + 1#9, rxbuf := Memory.write s.rxbuf s.byteIdx.toNat b } := by
      simp [receiveByte, State.lastByte, emit, hl]
    rw [e]
    exact inv_frame_step h hmi .stop _ s.mErrKind s.mErrPos (s.byteIdx + 1#9) _ (by simp) hwf (by simp) (by simp)
      (by omega) (.inl hek) h.frame.pendingPos (by simp) (by simp) (by simp) (by simp) .ending
      (by rw [tracePhase_append, hph]; rfl) (by simp [State.phaseOk])
  · have e : receiveByte b s =
      { s with mftState := .rx, trace := s.trace ++ [.RX b, .AO .ack], mErrKind := s.mErrKind, mErrPos := s.mErrPos, byteIdx := s.byteIdx + 1#9, rxbuf := Memory.write s.rxbuf s.byteIdx.toNat b } := by
      simp [receiveByte, State.lastByte, emit, hl]
    rw [e]
    exact inv_frame_step h hmi .rx _ s.mErrKind s.mErrPos (s.byteIdx + 1#9) _ (by simp) hwf (by simp)
      (by intro _; omega) (by omega) (.inl hek) h.frame.pendingPos (by simp [hek]) (by simp) (by simp [hr]) (by simp)
      .reading (by rw [tracePhase_append, hph]; rfl) (by simp [State.phaseOk])

theorem inv_start {s : State} (h : s.Inv) (hm : s.mftState = .start) : (startFrame s).Inv := by
  have hmi : s.mftState ≠ .idle := by simp [hm]
  have hph : tracePhase s.trace = some .closed := phase_of h (fun q hq => by simpa [State.phaseOk, hm] using hq)
  exact inv_frame_step h hmi .addr (s.trace ++ [.S]) s.mErrKind s.mErrPos s.byteIdx s.rxbuf (by simp) h.rxbuf
    (by intro _; exact h.frame.idxZero (.inl hm)) (by simp) (h.frame.idxRange hmi) (h.frame.pending hmi) h.frame.pendingPos (by intro _; exact h.frame.noPending (.inl hm)) (by simp) (by simp) (by simp) .started (by rw [tracePhase_append, hph]; rfl) (by simp [State.phaseOk])

theorem mft_idle_of {s : State} (h : s.Inv) (hq : s.seqState ≠ .xfer ∧ s.seqState ≠ .direct) : s.mftState = .idle :=
    by
  by_contra hc
  have := h.frame.running.1 hc
  tauto

theorem closed_of_idle {s : State} (h : s.Inv) (hm : s.mftState = .idle) : tracePhase s.trace = some .closed :=
  phase_of h (fun q hq => by simpa [State.phaseOk, hm] using hq)

/-- MFT, idle, accepts a frame operation of a legal length. -/
theorem inv_accept {s : State} (h : s.Inv) (hm : s.mftState = .idle) (q : SeqState) (hq : q = .xfer ∨ q = .direct)
    (hst : State.StatusInv { s with seqState := q }) (hpc : State.PcInv { s with seqState := q })
    (tb : Memory) (htb : Memory.wf tb) (a : BusAddr) (rw : Dir) (n : Count) (h1 : 1 ≤ n.toNat) (h2 : n.toNat ≤ 256) (s' : State)
    (hs' : s' = { s with seqState := q, txbuf := tb }) : (startMft a rw n s').Inv := by
  subst hs'
  rw [startMft_ok _ _ _ h1 h2]
  refine ⟨htb, h.rxbuf, ⟨hst.1, hst.2, hst.3, hst.4, hst.5⟩, ⟨?_, ?_, ?_, ?_, ?_, ?_, ?_, ?_, ?_, ?_, ?_⟩, hpc, .closed, (show tracePhase s.trace = some .closed from closed_of_idle h hm), ?_⟩ <;>
    simp [State.phaseOk, hq, h1, h2]

/-- Every move of the block keeps the invariant. -/
theorem inv_block {s t : State} (h : s.Inv) (hb : BlockMove s t) : t.Inv := by
  cases hb with
  | rest _ => exact h
  | go hq _ ht =>
    have hm := mft_idle_of h (by simp [hq])
    refine ⟨h.txbuf, h.rxbuf, ⟨?_, ?_, ?_, ?_, ?_⟩,
      ⟨?_, ?_, ?_, ?_, ?_, ?_, ?_, ?_, ?_, ?_, ?_⟩,
      ?_, .closed, (show tracePhase s.trace = some .closed from closed_of_idle h hm), ?_⟩ <;>
      simp [State.busy, State.phaseOk, State.PcInv, hm, h.frame.pendingPos]
  | req hq _ _ =>
    have hm := mft_idle_of h (by simp [hq])
    unfold acceptReq
    rcases startMft_cases s.ports.reqAddr s.ports.reqRw s.ports.reqLen { clearStatus s with seqState := .direct }
      with ⟨h1, h2, h3⟩ | ⟨-, h3⟩
    · rw [h3]
      refine ⟨h.txbuf, h.rxbuf, ⟨?_, ?_, ?_, ?_, ?_⟩,
        ⟨?_, ?_, ?_, ?_, ?_, ?_, ?_, ?_, ?_, ?_, ?_⟩,
        ?_, .closed, (show tracePhase s.trace = some .closed from closed_of_idle h hm), ?_⟩ <;>
        simp [State.busy, State.phaseOk, State.PcInv, h1, h2, clearStatus]
    · rw [h3]
      refine ⟨h.txbuf, h.rxbuf, ⟨?_, ?_, ?_, ?_, ?_⟩,
        ⟨?_, ?_, ?_, ?_, ?_, ?_, ?_, ?_, ?_, ?_, ?_⟩,
        ?_, .closed, (show tracePhase s.trace = some .closed from closed_of_idle h hm), ?_⟩ <;>
        simp [State.busy, State.phaseOk, State.PcInv, clearStatus, h.frame.pendingPos, abortRun]
  | endRun hq _ =>
    have hm := mft_idle_of h (by simp [hq])
    have hb := h.status.busyClear (by simp [State.busy, hq])
    have hst := h.status.noError hb.2
    refine ⟨h.txbuf, h.rxbuf, ⟨?_, ?_, ?_, ?_, ?_⟩,
      ⟨?_, ?_, ?_, ?_, ?_, ?_, ?_, ?_, ?_, ?_, ?_⟩,
      ?_, .closed, (show tracePhase s.trace = some .closed from closed_of_idle h hm), ?_⟩ <;>
      simp [State.busy, State.phaseOk, State.PcInv, hm, h.frame.pendingPos, hb, hst]
  | send a n d hq h1 h2 hd =>
    have hm := mft_idle_of h (by simp [hq])
    have hb := h.status.busyClear (by simp [State.busy, hq])
    have hst := h.status.noError hb.2
    exact inv_accept h hm .xfer (.inl rfl) ⟨h.status.1, fun _ => hb, h.status.3, h.status.4, h.status.5⟩
      (fun _ => h.pc (.inl hq)) _ (writeFrom_wf d h.txbuf (by have : Config.bufCap = 256 := rfl; omega)) a .write n
      h1 h2 _ rfl
  | receive a n hq h1 h2 =>
    have hm := mft_idle_of h (by simp [hq])
    have hb := h.status.busyClear (by simp [State.busy, hq])
    exact inv_accept h hm .xfer (.inl rfl) ⟨h.status.1, fun _ => hb, h.status.3, h.status.4, h.status.5⟩
      (fun _ => h.pc (.inl hq)) _ h.txbuf a .read n h1 h2 _ rfl
  | start hl hq hm => exact inv_start h hm
  | address hl hq hm =>
    have hm' := slot_symbol h hl hm (by simp)
    have hek : s.mErrKind = .none := h.frame.noPending (by simp [hm'])
    have hso : s.slotOpen = true := by simp [State.slotOpen, hm']
    rcases addrSlot_cases s.fAddr s.fRw s _ rfl with ⟨-, h1⟩ | ⟨-, h1⟩ | ⟨-, h1⟩ | ⟨-, h1⟩ <;> rw [h1]
    · exact inv_address_ack (inv_env h (s.env.askWrite s.trace (addrByte s.fAddr s.fRw)).2) hm hek
    · exact inv_address_nack (inv_env h (s.env.askWrite s.trace (addrByte s.fAddr s.fRw)).2) hm .addressing 0#9
        (by simp) (by simp)
    · exact inv_abandon (inv_env h (s.env.askWrite s.trace (addrByte s.fAddr s.fRw)).2) _ _ (by simp) (by simp) hso
    · exact inv_stall (inv_env h (s.env.askWrite s.trace (addrByte s.fAddr s.fRw)).2) _ (by simp) hso
  | data b hl hq hm hrd =>
    have hm' := slot_symbol h hl hm (by simp)
    have hek : s.mErrKind = .none := h.frame.noPending (by simp [hm'])
    have hso : s.slotOpen = true := by simp [State.slotOpen, hm']
    have hi := idx_succ h (by tauto)
    rcases txSlot_cases b s _ rfl with ⟨-, h1⟩ | ⟨-, h1⟩ | ⟨-, h1⟩ | ⟨-, h1⟩ <;> rw [h1]
    · exact inv_data_ack (inv_env h (s.env.askWrite s.trace b).2) hm hek b
    · exact inv_data_nack (inv_env h (s.env.askWrite s.trace b).2) hm .addressing (s.byteIdx + 1#9) (by simp)
        (by omega) b
    · exact inv_abandon (inv_env h (s.env.askWrite s.trace b).2) _ _ (by simp) (by omega) hso
    · exact inv_stall (inv_env h (s.env.askWrite s.trace b).2) _ (by omega) hso
  | read hl hq hm =>
    have hm' := slot_symbol h hl hm (by simp)
    have hso : s.slotOpen = true := by simp [State.slotOpen, hm']
    have hi := idx_succ h (by tauto)
    rcases rxSlot_cases s _ rfl with ⟨b, -, h1⟩ | ⟨-, h1⟩ <;> rw [h1]
    · exact inv_receive (inv_env h (s.env.askRead s.trace).2) hm b
    · exact inv_stall (inv_env h (s.env.askRead s.trace).2) _ (by omega) hso
  | stop _ hl hq hm ht => exact inv_stopFrame h hm ht
  | delay hl hq =>
    have hm := mft_idle_of h (by simp [hq])
    have hb := h.status.busyClear (by simp [State.busy, hq])
    have hst := h.status.noError hb.2
    refine ⟨h.txbuf, h.rxbuf, ⟨?_, ?_, ?_, ?_, ?_⟩,
      ⟨?_, ?_, ?_, ?_, ?_, ?_, ?_, ?_, ?_, ?_, ?_⟩,
      fun _ => h.pc (by simp [hq]), .closed, (show tracePhase s.trace = some .closed from closed_of_idle h hm), ?_⟩ <;>
      simp [State.busy, State.phaseOk, hm, h.frame.pendingPos, hb, hst]
  | delayTick hl hq =>
    have hm := mft_idle_of h (by simp [hq])
    have hb := h.status.busyClear (by simp [State.busy, hq])
    have hst := h.status.noError hb.2
    unfold delayTick
    split
    · refine ⟨h.txbuf, h.rxbuf, ⟨?_, ?_, ?_, ?_, ?_⟩,
        ⟨?_, ?_, ?_, ?_, ?_, ?_, ?_, ?_, ?_, ?_, ?_⟩,
        fun _ => h.pc (by simp [hq]), .closed, (show tracePhase s.trace = some .closed from closed_of_idle h hm), ?_⟩ <;>
        simp [State.busy, State.phaseOk, hm, h.frame.pendingPos, hb, hst]
    · exact ⟨h.txbuf, h.rxbuf, ⟨h.status.1, h.status.2, h.status.3, h.status.4, h.status.5⟩,
        ⟨h.frame.1, h.frame.2, h.frame.3, h.frame.4, h.frame.5, h.frame.6, h.frame.7, h.frame.8, h.frame.9, h.frame.10, h.frame.11⟩, h.pc, h.trace⟩
  | tick _ hl hq hmi ht =>
    have hns : ¬ s.level = .symbol := by simp [hl]
    cases ht with
    | count b sh tm q k => exact inv_withLine h ..
    | timeout hso _ _ => exact inv_abandon (inv_withLine h ..) _ _ (by simp) (slotPos_le h hso) hso
    | arbitration tm k hm _ _ _ =>
      have hso : s.slotOpen = true := by rcases hm with hm | hm <;> simp [State.slotOpen, hm]
      exact inv_abandon (inv_withLine h ..) _ _ (by simp) (slotPos_le h hso) hso
    | sampleNack b sh tm q k hm =>
      have hso : s.slotOpen = true := by rcases hm with hm | hm <;> simp [State.slotOpen, hm]
      obtain ⟨p, h1, h2⟩ := h.trace
      exact inv_frame_step (inv_withLine h b sh tm q k) hmi s.mftState s.trace .addressing s.slotPos s.byteIdx
        s.rxbuf hmi h.rxbuf h.frame.idxZero h.frame.idxInside (h.frame.idxRange hmi) (by simp) (slotPos_le h hso)
        (by rcases hm with hm | hm <;> simp [hm]) h.frame.writing h.frame.reading (by intro h; exact absurd h hns) p
        h1 h2
    | start b sh tm q k hm => exact inv_start (inv_withLine h ..) hm
    | addrSent b sh tm q k hm =>
      obtain ⟨p, h1, h2⟩ := h.trace
      exact inv_frame_step (inv_withLine h b sh tm q k) hmi .aack s.trace s.mErrKind s.mErrPos s.byteIdx s.rxbuf
        (by simp) h.rxbuf
        (by intro _; exact h.frame.idxZero (by simp [hm])) (by simp) (h.frame.idxRange hmi) (h.frame.pending hmi) h.frame.pendingPos (by simp) (by simp) (by simp) (by intro h; exact absurd h hns) p h1 (by simpa [State.phaseOk, hm] using h2)
    | dataSent b sh tm q k hm =>
      obtain ⟨p, h1, h2⟩ := h.trace
      exact inv_frame_step (inv_withLine h b sh tm q k) hmi .tack s.trace s.mErrKind s.mErrPos s.byteIdx s.rxbuf
        (by simp) h.rxbuf (by simp)
        (by intro _; exact h.frame.idxInside (by simp [hm])) (h.frame.idxRange hmi) (h.frame.pending hmi) h.frame.pendingPos (by simp) (by intro _; exact h.frame.writing (by simp [hm])) (by simp) (by intro h; exact absurd h hns) p h1 (by simpa [State.phaseOk, hm] using h2)
    | dataReceived b sh tm q k hm =>
      obtain ⟨p, h1, h2⟩ := h.trace
      exact inv_frame_step (inv_withLine h b sh tm q k) hmi .rack s.trace s.mErrKind s.mErrPos s.byteIdx s.rxbuf
        (by simp) h.rxbuf (by simp)
        (by intro _; exact h.frame.idxInside (by simp [hm])) (h.frame.idxRange hmi) (h.frame.pending hmi) h.frame.pendingPos (by intro _; exact h.frame.noPending (by simp [hm])) (by simp) (by intro _; exact h.frame.reading (by simp [hm])) (by intro h; exact absurd h hns) p h1 (by simpa [State.phaseOk, hm] using h2)
    | addrAck b sh tm q k hm hek => exact inv_address_ack (inv_withLine h b sh tm q k) (.inr hm) hek
    | addrNack b sh tm q k hm _ => exact inv_address_nack (inv_withLine h b sh tm q k) (.inr hm) s.mErrKind s.mErrPos (h.frame.pending hmi) h.frame.pendingPos
    | dataAck b sh tm q k d hm hek _ => exact inv_data_ack (inv_withLine h b sh tm q k) (.inr hm) hek d
    | dataNack b sh tm q k d hm _ _ => exact inv_data_nack (inv_withLine h b sh tm q k) (.inr hm) s.mErrKind s.mErrPos (h.frame.pending hmi) h.frame.pendingPos d
    | readAck b sh tm q k d hm => exact inv_receive (inv_withLine h b sh tm q k) (.inr hm) d
    | stop tm q k _ hm ht => exact inv_stopFrame (inv_withLine h s.bitCnt s.shreg tm q k) hm ht

theorem inv_resetEdge {s : State} (h : s.Inv) : (resetEdge s).Inv := by
  refine ⟨by show Memory.wf []; decide, by show Memory.wf []; decide, ⟨?_, ?_, ?_, ?_, ?_⟩,
    ⟨?_, ?_, ?_, ?_, ?_, ?_, ?_, ?_, ?_, ?_, ?_⟩,
    ?_, .closed, ?_, rfl⟩ <;> try simp [State.reset, State.busy, State.PcInv]
  · simp only [resetEdge]
    split
    · next ho => exact phase_X h ho
    · next ho =>
      obtain ⟨q, h1, h2⟩ := h.trace
      rw [h1]
      have : s.mftState = .idle ∨ s.mftState = .start := by simp [State.frameOpen] at ho; tauto
      rcases this with hm | hm <;> simp [State.phaseOk, hm] at h2 <;> rw [h2]

theorem inv_advance {s : State} (h : s.Inv) : (advancePorts s).Inv := by
  unfold advancePorts
  split
  · exact h
  · exact inv_ports h _ _

theorem inv_hostWrite {s : State} (h : s.Inv) : (hostWrite s).Inv := by
  unfold hostWrite
  split
  · exact ⟨write_wf h.txbuf (by have := s.ports.txIdx.isLt; exact this), h.rxbuf, ⟨h.status.1, h.status.2, h.status.3, h.status.4, h.status.5⟩,
        ⟨h.frame.1, h.frame.2, h.frame.3, h.frame.4, h.frame.5, h.frame.6, h.frame.7, h.frame.8, h.frame.9, h.frame.10, h.frame.11⟩, h.pc, h.trace⟩
  · exact h

end Sys2Proof.Machine
end

