-- ==== Sys2Proof/Laws/Line.lean ====
section
/-! SUPPORT. A tick of the line level as later proofs use it (40_frame_transceiver.md R150, R153): a step in `ticking` is
`countTick` with the tick counted, and `countTick` ends the frame, waits, counts or ends a quarter, each under a condition
on the state before the tick. -/

namespace Sys2Proof.Machine

open Sys2Proof

/-- The state with the coming tick counted by the timer. -/
def timed (s : State) : State := { s with tmoCnt := s.tmoCnt + 1#32 }

/-- A step of a frame operation at line level is a tick of MFT. -/
theorem step_of_ticking {s : State} (h : s.ticking) : step s = mapNext advancePorts (countTick (timed s)) := by
  obtain ⟨⟨h1, h2⟩, h3, h4, h5, h6⟩ := h
  have hw : hostWrite s = s := by unfold hostWrite; rcases h5 with h5 | h5 <;> simp [State.busy, h5]
  have hm : mftTick s = countTick (timed s) := by
    unfold mftTick
    split
    · next h => exact absurd h h6
    · rfl
  show mapNext advancePorts (if s.ports.rst then _ else runStep s) = _
  simp only [h1, runStep, h2, hw, blockStep, h3, h4, lineStep]
  rcases h5 with h5 | h5 <;> simp [h5, hm]

theorem timed_late {s : State} (h : timeoutTicks s.params ≠ 0) (hle : timeoutTicks s.params ≤ (s.tmoCnt + 1#32).toNat) :
    (timed s).timedOut = true := decide_eq_true ⟨h, hle⟩

theorem timed_inTime {s : State} (h : s.inTime) : ((timed s).slotOpen && (timed s).timedOut) = false := by
  rcases h with h | h | h
  · have h' : (timed s).slotOpen = false := h
    rw [h', Bool.false_and]
  · have h' : (timed s).timedOut = false := decide_eq_false fun hc => hc.1 h
    rw [h', Bool.and_false]
  · have h' : (timed s).timedOut = false := decide_eq_false fun hc => Nat.not_le.2 h hc.2
    rw [h', Bool.and_false]

theorem timed_held {s : State} (hm : s.mftState ≠ .idle) (hq : s.quarter = .second) (hk : s.qTick = 0)
    (hs : s.mftState ≠ .start) (hc : s.sclIn = false) : (timed s).stretched = true := by
  have h1 : (timed s).sclIn = false := hc
  unfold State.stretched
  rw [h1]
  exact (Bool.and_true _).trans (decide_eq_true ⟨hq, hk, hs, hm⟩)

theorem timed_clockUp {s : State} (h : s.clockUp) : (timed s).stretched = false := by
  unfold State.stretched
  by_cases hp : s.quarter = .second ∧ s.qTick = 0
  · rcases h hp.1 hp.2 with h | h
    · exact (congrArg (· && _) (decide_eq_false fun hc => hc.2.2.1 h)).trans (Bool.false_and _)
    · have h' : (timed s).sclIn = true := h
      rw [h']
      exact Bool.and_false _
  · exact (congrArg (· && _) (decide_eq_false fun hc => hp ⟨hc.1, hc.2.1⟩)).trans (Bool.false_and _)

/-- The four things a tick can be: a timeout, a wait for the clock line, a count within a quarter, a quarter's end. -/
theorem countTick_cases (s : State) :
    (s.slotOpen = true → timeoutTicks s.params ≠ 0 → timeoutTicks s.params ≤ (s.tmoCnt + 1#32).toNat →
      countTick (timed s) = .next (abandon .timeout s.slotPos (timed s))) ∧
    (s.inTime → s.mftState ≠ .idle → s.quarter = .second → s.qTick = 0 → s.mftState ≠ .start → s.sclIn = false →
      countTick (timed s) = .next (timed s)) ∧
    (s.inTime → s.clockUp → s.qTick + 1 < qbitTicks s.params →
      countTick (timed s) = .next { timed s with qTick := s.qTick + 1 }) ∧
    (s.inTime → s.clockUp → qbitTicks s.params ≤ s.qTick + 1 →
      countTick (timed s) = quarterEnd { timed s with qTick := 0 }) := by
  unfold countTick
  refine ⟨fun h1 h2 h3 => ?_, fun h1 hm h2 h3 h4 h5 => ?_, fun h1 h2 h3 => ?_, fun h1 h2 h3 => ?_⟩
  · have h1' : (timed s).slotOpen = true := h1
    rw [h1', timed_late h2 h3]
    rfl
  · rw [timed_inTime h1, timed_held hm h2 h3 h4 h5]
    rfl
  · rw [timed_inTime h1, timed_clockUp h2]
    exact if_pos h3
  · rw [timed_inTime h1, timed_clockUp h2]
    exact if_neg (Nat.not_lt.2 h3)

/-- The last tick of a quarter. -/
theorem step_quarterEnd {s : State} (h : s.ticking) (hi : s.inTime) (hc : s.clockUp)
    (hq : qbitTicks s.params ≤ s.qTick + 1) :
    step s = mapNext advancePorts (quarterEnd { timed s with qTick := 0 }) := by
  rw [step_of_ticking h, (countTick_cases s).2.2.2 hi hc hq]

/-! ### Sampling -/

/-- A sent bit is checked for arbitration (R154). -/
theorem sampleBit_sent {s : State} (h : s.mftState = .addr ∨ s.mftState = .tx) :
    sampleBit s =
      if s.sendingBit && !s.sdaIn then abandon .arbitration s.slotPos s else { s with quarter := .third } := by
  unfold sampleBit
  rcases h with h | h <;> simp only [h]

/-- A released acknowledge bit is read (R152). -/
theorem sampleBit_answer {s : State} (h : s.mftState = .aack ∨ s.mftState = .tack) :
    sampleBit s =
      if s.sdaIn then { s with mErrKind := .addressing, mErrPos := s.slotPos, quarter := .third }
      else { s with quarter := .third } := by
  unfold sampleBit
  rcases h with h | h <;> simp only [h]

/-- A received bit is shifted in (R150). -/
theorem sampleBit_received {s : State} (h : s.mftState = .rx) :
    sampleBit s = { s with shreg := (s.shreg <<< 1) ||| (if s.sdaIn then 1#8 else 0#8), quarter := .third } := by
  unfold sampleBit
  simp only [h]

/-- Nothing is sampled in the master's acknowledge bit and in the start and stop conditions (R150, R154). -/
theorem sampleBit_unread {s : State} (h : s.mftState = .rack ∨ s.mftState = .start ∨ s.mftState = .stop) :
    sampleBit s = { s with quarter := .third } := by
  unfold sampleBit
  rcases h with h | h | h <;> simp only [h]

end Sys2Proof.Machine
end

