-- ==== Sys2Proof/Laws/Moves.lean ====
section
/-! SUPPORT. What a move of the block does to the registers, said once by register: `Moved` for the tables, `pc`, the
bus trace and the buffers (10_state.md R26, R27, R31, R34), `StatusMove` for the status registers (R24). -/

namespace Sys2Proof.Machine

open Sys2Proof

/-! ### Tables, step counter, trace, buffers -/

/-- What a move of the block may do beside the status registers. -/
structure Moved (s t : State) : Prop where
  tables : t.scriptRom = s.scriptRom ∧ t.byteRom = s.byteRom ∧ t.params = s.params ∧ t.level = s.level
  pc : t.pc = s.pc ∨
    (s.seqState = .idle ∧ s.ports.go = true ∧ t.pc = scriptBase s.params s.ports.goSel) ∨
    (s.seqState = .xfer ∧ s.mftState = .stop ∧ s.mErrKind = .none ∧ s.pc ≠ 31#5 ∧ t.pc = s.pc + 1#5)
  trace : ∃ es : List Event, t.trace = s.trace ++ es ∧ es.length ≤ 2 ∧
    (es ≠ [] → s.seqState = .xfer ∨ s.seqState = .direct)
  txbuf : t.txbuf = s.txbuf ∨
    (s.seqState = .fetch ∧ t.fRw = .write ∧
      ∃ d : List Byte, d.length = t.fLen.toNat ∧ t.txbuf = Memory.writeFrom s.txbuf 0 d)
  rxbuf : t.rxbuf = s.rxbuf ∨
    ((s.mftState = .rx ∨ s.mftState = .rack) ∧
      ∃ b a, t.trace = s.trace ++ [.RX b, .AO a] ∧ t.rxbuf = Memory.write s.rxbuf s.byteIdx.toNat b)

/-- Accepting a frame operation leaves these alone. -/
theorem startMft_same (a rw n s) : (startMft a rw n s).scriptRom = s.scriptRom ∧ (startMft a rw n s).byteRom =
    s.byteRom ∧ (startMft a rw n s).params = s.params ∧ (startMft a rw n s).level = s.level ∧ (startMft a rw n s).pc
    = s.pc ∧ (startMft a rw n s).trace = s.trace ∧ (startMft a rw n s).txbuf = s.txbuf ∧ (startMft a rw n s).rxbuf =
    s.rxbuf := by
  unfold startMft; split <;> exact ⟨rfl, rfl, rfl, rfl, rfl, rfl, rfl, rfl⟩

/-- The end of a frame. -/
theorem stopFrame_same {s t : State} (h : stopFrame s = .next t) :
   (t.scriptRom = s.scriptRom ∧ t.byteRom = s.byteRom ∧ t.params = s.params ∧ t.level = s.level) ∧ (t.pc = s.pc ∨ (s.seqState = .xfer ∧ s.mErrKind = .none ∧ s.pc ≠ 31#5 ∧ t.pc = s.pc + 1#5)) ∧ (t.trace = s.trace ++ [.P] ∨ ∃ n, t.trace = s.trace ++ [.P, .DLY n]) ∧ t.txbuf = s.txbuf ∧ t.rxbuf = s.rxbuf := by
  unfold stopFrame at h
  rcases handOver_next h with ⟨k, pos, hr, rfl⟩ | ⟨hr, hx, h⟩ | ⟨hr, hx, rfl⟩
  · exact ⟨⟨rfl, rfl, rfl, rfl⟩, .inl rfl, .inl rfl, rfl, rfl⟩
  · obtain ⟨hp, ⟨-, rfl⟩ | ⟨-, rfl⟩⟩ := stepDone_next h
    · exact ⟨⟨rfl, rfl, rfl, rfl⟩, .inr ⟨hx, pendingResult_ok.1 hr, hp, rfl⟩, .inl rfl, rfl, rfl⟩
    · refine ⟨⟨rfl, rfl, rfl, rfl⟩, .inr ⟨hx, pendingResult_ok.1 hr, hp, rfl⟩, .inr ⟨s.stepDelayMs, ?_⟩, rfl, rfl⟩
      simp only [emit, List.append_assoc, List.cons_append, List.nil_append]; rfl
  · exact ⟨⟨rfl, rfl, rfl, rfl⟩, .inl rfl, .inl rfl, rfl, rfl⟩

/-- Every move of the block. -/
theorem block_moved {s t : State} (hr : blockStep s = .next t) : Moved s t := by
  have hb := blockStep_move hr
  have nil : ∀ (tr : List Event), tr = s.trace → ∃ es : List Event, tr = s.trace ++ es ∧ es.length ≤ 2 ∧
    (es ≠ [] → s.seqState = .xfer ∨ s.seqState = .direct) := fun tr h => ⟨[], by simp [h], by simp, by simp⟩
  cases hb with
  | rest _ => exact ⟨⟨rfl, rfl, rfl, rfl⟩, .inl rfl, nil _ rfl, .inl rfl, .inl rfl⟩
  | go hq h1 ht => 
    exact ⟨⟨rfl, rfl, rfl, rfl⟩, .inr (.inl ⟨hq, h1, rfl⟩), nil _ rfl, .inl rfl, .inl rfl⟩
  | req hq _ _ =>
    have := startMft_same s.ports.reqAddr s.ports.reqRw s.ports.reqLen { clearStatus s with seqState := .direct }
    exact ⟨⟨this.1, this.2.1, this.2.2.1, this.2.2.2.1⟩, .inl this.2.2.2.2.1, nil _ this.2.2.2.2.2.1, .inl this.2.2.2.2.2.2.1, .inl this.2.2.2.2.2.2.2⟩
  | endRun hq _ => exact ⟨⟨rfl, rfl, rfl, rfl⟩, .inl rfl, nil _ rfl, .inl rfl, .inl rfl⟩
  | send a n d hq h1 h2 hd => 
    unfold sendFrame
    rw [startMft_ok _ _ _ h1 h2]
    exact ⟨⟨rfl, rfl, rfl, rfl⟩, .inl rfl, nil _ rfl, .inr ⟨hq, rfl, d, hd, rfl⟩, .inl rfl⟩
  | receive a n hq h1 h2 => 
    rw [startMft_ok _ _ _ h1 h2]
    exact ⟨⟨rfl, rfl, rfl, rfl⟩, .inl rfl, nil _ rfl, .inl rfl, .inl rfl⟩
  | start hl hq hm => exact ⟨⟨rfl, rfl, rfl, rfl⟩, .inl rfl, ⟨_, rfl, by simp, fun _ => hq⟩, .inl rfl, .inl rfl⟩
  | address hl hq hm =>
    rcases addrSlot_cases s.fAddr s.fRw s _ rfl with ⟨-, h1⟩ | ⟨-, h1⟩ | ⟨-, h1⟩ | ⟨-, h1⟩ <;> rw [h1]
    · exact ⟨⟨rfl, rfl, rfl, rfl⟩, .inl rfl, ⟨_, rfl, by simp, fun _ => hq⟩, .inl rfl, .inl rfl⟩
    · exact ⟨⟨rfl, rfl, rfl, rfl⟩, .inl rfl, ⟨_, rfl, by simp, fun _ => hq⟩, .inl rfl, .inl rfl⟩
    · exact ⟨⟨rfl, rfl, rfl, rfl⟩, .inl rfl, ⟨_, rfl, by simp, fun _ => hq⟩, .inl rfl, .inl rfl⟩
    · rcases stallSlot_cases 0#9 { s with env := (s.env.askWrite s.trace (addrByte s.fAddr s.fRw)).2 } with ⟨-, h⟩ |
        ⟨-, h⟩ <;> rw [h]
      · exact ⟨⟨rfl, rfl, rfl, rfl⟩, .inl rfl, nil _ rfl, .inl rfl, .inl rfl⟩
      · exact ⟨⟨rfl, rfl, rfl, rfl⟩, .inl rfl, ⟨_, rfl, by simp, fun _ => hq⟩, .inl rfl, .inl rfl⟩
  | data b hl hq hm hrd =>
    rcases txSlot_cases b s _ rfl with ⟨-, h1⟩ | ⟨-, h1⟩ | ⟨-, h1⟩ | ⟨-, h1⟩ <;> rw [h1]
    · exact ⟨⟨rfl, rfl, rfl, rfl⟩, .inl rfl, ⟨_, rfl, by simp, fun _ => hq⟩, .inl rfl, .inl rfl⟩
    · exact ⟨⟨rfl, rfl, rfl, rfl⟩, .inl rfl, ⟨_, rfl, by simp, fun _ => hq⟩, .inl rfl, .inl rfl⟩
    · exact ⟨⟨rfl, rfl, rfl, rfl⟩, .inl rfl, ⟨_, rfl, by simp, fun _ => hq⟩, .inl rfl, .inl rfl⟩
    · rcases stallSlot_cases (s.byteIdx + 1#9) { s with env := (s.env.askWrite s.trace b).2 } with ⟨-, h⟩ |
        ⟨-, h⟩ <;> rw [h]
      · exact ⟨⟨rfl, rfl, rfl, rfl⟩, .inl rfl, nil _ rfl, .inl rfl, .inl rfl⟩
      · exact ⟨⟨rfl, rfl, rfl, rfl⟩, .inl rfl, ⟨_, rfl, by simp, fun _ => hq⟩, .inl rfl, .inl rfl⟩
  | read hl hq hm =>
    rcases rxSlot_cases s _ rfl with ⟨b, -, h1⟩ | ⟨-, h1⟩ <;> rw [h1]
    · exact ⟨⟨rfl, rfl, rfl, rfl⟩, .inl rfl, ⟨_, rfl, by simp, fun _ => hq⟩, .inl rfl, .inr ⟨hm, b, _, rfl, rfl⟩⟩
    · rcases stallSlot_cases (s.byteIdx + 1#9) { s with env := (s.env.askRead s.trace).2 } with ⟨-, h⟩ | ⟨-, h⟩ <;>
        rw [h]
      · exact ⟨⟨rfl, rfl, rfl, rfl⟩, .inl rfl, nil _ rfl, .inl rfl, .inl rfl⟩
      · exact ⟨⟨rfl, rfl, rfl, rfl⟩, .inl rfl, ⟨_, rfl, by simp, fun _ => hq⟩, .inl rfl, .inl rfl⟩
  | stop _ hl hq hm ht =>
    obtain ⟨h1, h2, h3, h4, h5⟩ := stopFrame_same ht
    refine ⟨h1, ?_, ?_, .inl h4, .inl h5⟩
    · tauto
    · rcases h3 with h3 | ⟨n, h3⟩ <;> exact ⟨_, h3, by simp, fun _ => hq⟩
  | delay hl hq => exact ⟨⟨rfl, rfl, rfl, rfl⟩, .inl rfl, nil _ rfl, .inl rfl, .inl rfl⟩
  | delayTick hl hq => 
    unfold delayTick
    split <;> exact ⟨⟨rfl, rfl, rfl, rfl⟩, .inl rfl, nil _ rfl, .inl rfl, .inl rfl⟩
  | tick _ hl hq hmi ht =>
    cases ht with
    | stop tm q k _ hm ht =>
      obtain ⟨h1, h2, h3, h4, h5⟩ := stopFrame_same ht
      refine ⟨h1, ?_, ?_, .inl h4, .inl h5⟩
      · rcases h2 with h2 | h2
        · exact .inl h2
        · exact .inr (.inr ⟨h2.1, hm, h2.2⟩)
      · rcases h3 with h3 | ⟨n, h3⟩ <;> exact ⟨_, h3, by simp, fun _ => hq⟩
    | readAck b sh tm q k d hm => exact ⟨⟨rfl, rfl, rfl, rfl⟩, .inl rfl, ⟨_, rfl, by simp, fun _ => hq⟩, .inl rfl, .inr ⟨.inr hm, d, _, rfl, rfl⟩⟩
    | count => exact ⟨⟨rfl, rfl, rfl, rfl⟩, .inl rfl, nil _ rfl, .inl rfl, .inl rfl⟩
    | sampleNack => exact ⟨⟨rfl, rfl, rfl, rfl⟩, .inl rfl, nil _ rfl, .inl rfl, .inl rfl⟩
    | addrSent => exact ⟨⟨rfl, rfl, rfl, rfl⟩, .inl rfl, nil _ rfl, .inl rfl, .inl rfl⟩
    | dataSent => exact ⟨⟨rfl, rfl, rfl, rfl⟩, .inl rfl, nil _ rfl, .inl rfl, .inl rfl⟩
    | dataReceived => exact ⟨⟨rfl, rfl, rfl, rfl⟩, .inl rfl, nil _ rfl, .inl rfl, .inl rfl⟩
    | timeout => exact ⟨⟨rfl, rfl, rfl, rfl⟩, .inl rfl, ⟨_, rfl, by simp, fun _ => hq⟩, .inl rfl, .inl rfl⟩
    | arbitration => exact ⟨⟨rfl, rfl, rfl, rfl⟩, .inl rfl, ⟨_, rfl, by simp, fun _ => hq⟩, .inl rfl, .inl rfl⟩
    | start => exact ⟨⟨rfl, rfl, rfl, rfl⟩, .inl rfl, ⟨_, rfl, by simp, fun _ => hq⟩, .inl rfl, .inl rfl⟩
    | addrAck => exact ⟨⟨rfl, rfl, rfl, rfl⟩, .inl rfl, ⟨_, rfl, by simp, fun _ => hq⟩, .inl rfl, .inl rfl⟩
    | addrNack => exact ⟨⟨rfl, rfl, rfl, rfl⟩, .inl rfl, ⟨_, rfl, by simp, fun _ => hq⟩, .inl rfl, .inl rfl⟩
    | dataAck => exact ⟨⟨rfl, rfl, rfl, rfl⟩, .inl rfl, ⟨_, rfl, by simp, fun _ => hq⟩, .inl rfl, .inl rfl⟩
    | dataNack => exact ⟨⟨rfl, rfl, rfl, rfl⟩, .inl rfl, ⟨_, rfl, by simp, fun _ => hq⟩, .inl rfl, .inl rfl⟩

/-! ### The status registers -/

/-- The line-level counters after a step: at symbol level they stay as they are. -/
def CountersOk (s : State) (tm : Ticks) (q : Quarter) (k : Nat) : Prop :=
  s.level = .symbol → tm = s.tmoCnt ∧ q = s.quarter ∧ k = s.qTick

/-- The cause of an error in an open byte slot, at either level (R137, R138, R153, R154). -/
def AbandonCause (s : State) : ErrKind → Prop
  | .timeout => s.params.timeoutMs ≠ 0 ∧
      (s.level = .symbol → s.mftState ≠ .aack ∧ s.mftState ≠ .tack ∧ s.mftState ≠ .rack →
        s.writeAnswer = some .stall ∨ s.readAnswer = some .stall) ∧
      (s.level = .line → s.slotOpen = true ∧ timeoutTicks s.params ≠ 0 ∧
        timeoutTicks s.params ≤ (s.tmoCnt + 1#32).toNat)
  | .arbitration =>
      (s.level = .symbol → s.mftState ≠ .aack ∧ s.mftState ≠ .tack ∧ s.mftState ≠ .rack →
        s.writeAnswer = some .arbLost) ∧
      (s.level = .line → (s.mftState = .addr ∨ s.mftState = .tx) ∧ s.quarter = .second ∧ s.sendingBit = true ∧
        s.sdaIn = false)
  | _ => False

/-- What a move of the block may do to the status registers: nothing, clear them as it accepts a run, or end a run. A
run that ends with an error is written out whole, so that it says what the error leaves alone. -/
inductive StatusMove (s : State) (t : State) : Prop where
  | same : t.done = s.done → t.failed = s.failed → t.errKind = s.errKind → t.errPos = s.errPos →
      t.failStep = s.failStep → (s.seqState = .idle ↔ t.seqState = .idle) → StatusMove s t
  | accept : s.seqState = .idle → (s.ports.go = true ∨ s.ports.reqValid = true) → t.done = false →
      t.failed = false → t.seqState ≠ .idle → StatusMove s t
  | capacity : s.seqState = .idle → s.ports.go = false → s.ports.reqValid = true →
      (s.ports.reqLen.toNat = 0 ∨ 256 < s.ports.reqLen.toNat) →
      t = abortRun .capacity 0#9 { clearStatus s with seqState := .direct } → StatusMove s t
  | success : s.seqState = .fetch ∨ s.seqState = .direct → t.done = true → t.failed = s.failed →
      t.errKind = s.errKind → t.seqState = .idle → StatusMove s t
  | stopErr (tm q k) : (s.seqState = .xfer ∨ s.seqState = .direct) → s.mftState = .stop → s.mErrKind ≠ .none →
      CountersOk s tm q k →
      t = abortRun s.mErrKind s.mErrPos
        { emit [.P] (withLine s.bitCnt s.shreg tm q k s) with mftState := .idle } → StatusMove s t
  | abandoned (e : ErrKind) (tm q k) (env : Env) : (s.seqState = .xfer ∨ s.seqState = .direct) →
      AbandonCause s e → CountersOk s tm q k →
      t = abandon e s.slotPos { withLine s.bitCnt s.shreg tm q k s with env := env } → StatusMove s t

/-- The end of a frame. -/
theorem stop_status {s t : State} (tm q k) (hq : s.seqState = .xfer ∨ s.seqState = .direct)
    (hm : s.mftState = .stop) (hc : CountersOk s tm q k)
    (h : stopFrame (withLine s.bitCnt s.shreg tm q k s) = .next t) : StatusMove s t := by
  unfold stopFrame at h
  rcases handOver_next h with ⟨e, pos, hr, rfl⟩ | ⟨hr, hx, h⟩ | ⟨hr, hx, rfl⟩
  · obtain ⟨h1, h2, h3⟩ := pendingResult_err.1 hr
    have h2' : s.mErrKind = e := h2
    have h3' : s.mErrPos = pos := h3
    subst h2' h3'
    exact .stopErr tm q k hq hm h1 hc rfl
  · have hx' : s.seqState = .xfer := hx
    obtain ⟨hp, ⟨-, rfl⟩ | ⟨-, rfl⟩⟩ := stepDone_next h <;> exact .same rfl rfl rfl rfl rfl (by simp [hx'])
  · have hd : s.seqState = .direct := by rcases hq with h | h; exact absurd h hx; exact h
    exact .success (.inr hd) rfl rfl rfl rfl

/-- Every move of the block. -/
theorem block_status {s t : State} (hb : BlockMove s t) : StatusMove s t := by
  have hc : CountersOk s s.tmoCnt s.quarter s.qTick := fun _ => ⟨rfl, rfl, rfl⟩
  cases hb with
  | rest _ => exact .same rfl rfl rfl rfl rfl Iff.rfl
  | go hq h1 ht => exact .accept hq (.inl h1) rfl rfl (by simp [acceptGo])
  | req hq hg hv =>
    unfold acceptReq
    rcases startMft_cases s.ports.reqAddr s.ports.reqRw s.ports.reqLen { clearStatus s with seqState := .direct }
      with ⟨h1, h2, h3⟩ | ⟨h1, h3⟩ <;> rw [h3]
    · exact .accept hq (.inr hv) rfl rfl (by simp)
    · exact .capacity hq hg hv h1 rfl
  | endRun hq _ => exact .success (.inl hq) rfl rfl rfl rfl
  | send a n d hq h1 h2 hd =>
    unfold sendFrame; rw [startMft_ok _ _ _ h1 h2]; exact .same rfl rfl rfl rfl rfl (by simp [hq])
  | receive a n hq h1 h2 =>
    rw [startMft_ok _ _ _ h1 h2]; exact .same rfl rfl rfl rfl rfl (by simp [hq])
  | start hl hq hm => exact .same rfl rfl rfl rfl rfl Iff.rfl
  | address hl hq hm =>
    have hwa : s.mftState ≠ .aack ∧ s.mftState ≠ .tack ∧ s.mftState ≠ .rack →
        s.writeAnswer = some (s.env.askWrite s.trace (addrByte s.fAddr s.fRw)).1 := by
      intro hx; have : s.mftState = .addr := by tauto
      simp [State.writeAnswer, State.driven, this, State.frameAddrByte]
    have hp : s.slotPos = 0#9 := by rcases hm with hm | hm <;> simp [State.slotPos, hm]
    rcases addrSlot_cases s.fAddr s.fRw s _ rfl with ⟨ha, h1⟩ | ⟨ha, h1⟩ | ⟨ha, h1⟩ | ⟨ha, h1⟩ <;> rw [h1]
    · exact .same rfl rfl rfl rfl rfl Iff.rfl
    · exact .same rfl rfl rfl rfl rfl Iff.rfl
    · exact .abandoned .arbitration s.tmoCnt s.quarter s.qTick (s.env.askWrite s.trace (addrByte s.fAddr s.fRw)).2 hq
          ⟨fun _ hx => by rw [hwa hx, ha], by simp [hl]⟩ hc (by rw [hp]; rfl)
    · rcases stallSlot_cases 0#9 { s with env := (s.env.askWrite s.trace (addrByte s.fAddr s.fRw)).2 } with ⟨-, h⟩ |
        ⟨ht, h⟩ <;> rw [h]
      · exact .same rfl rfl rfl rfl rfl Iff.rfl
      · exact .abandoned .timeout s.tmoCnt s.quarter s.qTick (s.env.askWrite s.trace (addrByte s.fAddr s.fRw)).2 hq
          ⟨ht, fun _ hx => .inl (by rw [hwa hx, ha]), by simp [hl]⟩ hc
          (by rw [hp]; rfl)
  | data b hl hq hm hrd =>
    have hwa : s.mftState ≠ .aack ∧ s.mftState ≠ .tack ∧ s.mftState ≠ .rack →
        s.writeAnswer = some (s.env.askWrite s.trace b).1 := by
      intro hx; have : s.mftState = .tx := by tauto
      simp [State.writeAnswer, State.driven, this, hrd]
    have hp : s.slotPos = s.byteIdx + 1#9 := by rcases hm with hm | hm <;> simp [State.slotPos, hm]
    rcases txSlot_cases b s _ rfl with ⟨ha, h1⟩ | ⟨ha, h1⟩ | ⟨ha, h1⟩ | ⟨ha, h1⟩ <;> rw [h1]
    · exact .same rfl rfl rfl rfl rfl Iff.rfl
    · exact .same rfl rfl rfl rfl rfl Iff.rfl
    · exact .abandoned .arbitration s.tmoCnt s.quarter s.qTick (s.env.askWrite s.trace b).2 hq
          ⟨fun _ hx => by rw [hwa hx, ha], by simp [hl]⟩ hc (by rw [hp]; rfl)
    · rcases stallSlot_cases (s.byteIdx + 1#9) { s with env := (s.env.askWrite s.trace b).2 } with ⟨-, h⟩ |
        ⟨ht, h⟩ <;> rw [h]
      · exact .same rfl rfl rfl rfl rfl Iff.rfl
      · exact .abandoned .timeout s.tmoCnt s.quarter s.qTick (s.env.askWrite s.trace b).2 hq
          ⟨ht, fun _ hx => .inl (by rw [hwa hx, ha]), by simp [hl]⟩ hc
          (by rw [hp]; rfl)
  | read hl hq hm =>
    have hp : s.slotPos = s.byteIdx + 1#9 := by rcases hm with hm | hm <;> simp [State.slotPos, hm]
    rcases rxSlot_cases s _ rfl with ⟨b, -, h1⟩ | ⟨ha, h1⟩ <;> rw [h1]
    · exact .same rfl rfl rfl rfl rfl Iff.rfl
    · rcases stallSlot_cases (s.byteIdx + 1#9) { s with env := (s.env.askRead s.trace).2 } with ⟨-, h⟩ | ⟨ht, h⟩ <;>
        rw [h]
      · exact .same rfl rfl rfl rfl rfl Iff.rfl
      · exact .abandoned .timeout s.tmoCnt s.quarter s.qTick (s.env.askRead s.trace).2 hq
          ⟨ht, fun _ hx => .inr (by simp [State.readAnswer, (show s.mftState = .rx by tauto), ha]), by simp [hl]⟩ hc
          (by rw [hp]; rfl)
  | stop _ hl hq hm ht => exact stop_status s.tmoCnt s.quarter s.qTick hq hm hc ht
  | delay hl hq => exact .same rfl rfl rfl rfl rfl (by simp [hq])
  | delayTick hl hq => unfold delayTick; split <;> exact .same rfl rfl rfl rfl rfl (by simp [hq])
  | tick _ hl hq hmi ht =>
    have hn : ∀ tm q k, CountersOk s tm q k := fun _ _ _ h => absurd (hl.symm.trans h) (by simp)
    cases ht with
    | stop tm q k _ hm ht => exact stop_status tm q k hq hm (hn _ _ _) ht
    | timeout hso hto hle =>
      exact .abandoned .timeout (s.tmoCnt + 1#32) s.quarter s.qTick s.env hq
        ⟨by intro h0; simp [timeoutTicks, h0] at hto, by simp [hl], fun _ => ⟨hso, hto, hle⟩⟩ (hn _ _ _) rfl
    | arbitration tm k hm h2 hs hd =>
      exact .abandoned .arbitration tm s.quarter k s.env hq ⟨by simp [hl], fun _ => ⟨hm, h2, hs, hd⟩⟩ (hn _ _ _) rfl
    | _ => exact .same rfl rfl rfl rfl rfl Iff.rfl

end Sys2Proof.Machine
end

