-- ==== Sys2Proof/Laws/PerInstr.lean ====
section
/-! SUPPORT. The family `TableRow`: the word of an instruction has the format and the fixed bits that its row of
spec/opcode_table.json gives it (30_encoding.md R91, R94, R97, R99; 41_script_steps.md R161). One lemma per
instruction. -/

namespace Sys2Proof.Laws.TableRow

open Sys2Proof

/-- The instruction's word has the fixed bits of its row, in the row's format. -/
def Statement : Instr → Prop
  | .endScript => ∃ w, encode .endScript = .step w ∧ w.extractLsb' 28 4 = 0#4
  | .wrc a n p d => ∃ w, encode (.wrc a n p d) = .step w ∧ w.extractLsb' 28 4 = 1#4
  | .wrd a n d => ∃ w, encode (.wrd a n d) = .step w ∧ w.extractLsb' 28 4 = 2#4
  | .wrr a n p d => ∃ w, encode (.wrr a n p d) = .step w ∧ w.extractLsb' 28 4 = 3#4
  | .rdr a n d => ∃ w, encode (.rdr a n d) = .step w ∧ w.extractLsb' 28 4 = 4#4
  | .write a => ∃ b, encode (.write a) = .addr b ∧ b.extractLsb' 0 1 = 0#1
  | .read a => ∃ b, encode (.read a) = .addr b ∧ b.extractLsb' 0 1 = 1#1
  | .ctrlCmd => encode .ctrlCmd = .ctrl 0x00#8
  | .ctrlData => encode .ctrlData = .ctrl 0x40#8
  | .go sel => ∃ w, encode (.go sel) = .go w ∧ w.extractLsb' 1 1 = 1#1
  | .reqWrite a n => ∃ w, encode (.reqWrite a n) = .req w ∧ w.extractLsb' 16 1 = 0#1
  | .reqRead a n => ∃ w, encode (.reqRead a n) = .req w ∧ w.extractLsb' 16 1 = 1#1

theorem endScript : Statement .endScript := ⟨_, rfl, stepKind_stepWord ..⟩

theorem wrc (addr : BusAddr) (len : Count) (ptr : Byte) (delay : BitVec 4) : Statement (.wrc addr len ptr delay) :=
  ⟨_, rfl, stepKind_stepWord ..⟩

theorem wrd (addr : BusAddr) (len : Count) (delay : BitVec 4) : Statement (.wrd addr len delay) :=
  ⟨_, rfl, stepKind_stepWord ..⟩

theorem wrr (addr : BusAddr) (len : Count) (ptr : Byte) (delay : BitVec 4) : Statement (.wrr addr len ptr delay) :=
  ⟨_, rfl, stepKind_stepWord ..⟩

theorem rdr (addr : BusAddr) (len : Count) (delay : BitVec 4) : Statement (.rdr addr len delay) :=
  ⟨_, rfl, stepKind_stepWord ..⟩

theorem write (addr : BusAddr) : Statement (.write addr) := ⟨_, rfl, addrByte_bit addr .write⟩

theorem read (addr : BusAddr) : Statement (.read addr) := ⟨_, rfl, addrByte_bit addr .read⟩

theorem ctrlCmd : Statement .ctrlCmd := rfl

theorem ctrlData : Statement .ctrlData := rfl

theorem go (sel : Script) : Statement (.go sel) := ⟨_, rfl, by cases sel <;> rfl⟩

theorem reqWrite (addr : BusAddr) (len : Count) : Statement (.reqWrite addr len) :=
  ⟨_, rfl, reqWord_bit .write addr len⟩

theorem reqRead (addr : BusAddr) (len : Count) : Statement (.reqRead addr len) :=
  ⟨_, rfl, reqWord_bit .read addr len⟩

end Sys2Proof.Laws.TableRow
end

