-- ==== Sys2Proof/Machine/Text.lean ====
section
/-! DEFINITION. The text forms of the spec: a bus trace (30_encoding.md R112) and the assembler syntax of steps (R110).
They are notation: no meaning depends on them. -/

namespace Sys2Proof.Machine

open Sys2Proof

/-- A hexadecimal digit. -/
def hexDigit (n : Nat) : String :=
  ["0", "1", "2", "3", "4", "5", "6", "7", "8", "9", "A", "B", "C", "D", "E", "F"].getD n ""

/-- Two hexadecimal digits. -/
def hexByte (b : Byte) : String := hexDigit (b.toNat / 16) ++ hexDigit (b.toNat % 16)

/-- The token of an event (R112). -/
def eventToken : Event → String
  | .S => "S"
  | .TX b => hexByte b
  | .AI .ack => "a"
  | .AI .nack => "n"
  | .RX b => "[" ++ hexByte b ++ "]"
  | .AO .ack => "A"
  | .AO .nack => "N"
  | .P => "P"
  | .X => "X"
  | .DLY n => "D" ++ toString n

/-- The text form of a bus trace (R112). -/
def traceText (tr : List Event) : String := String.intercalate " " (tr.map eventToken)

/-- The assembler syntax of a step (R110); the other instructions have none. -/
def stepText : Instr → Option String
  | .endScript => some "END"
  | .wrc addr len ptr delay =>
    some ("WRC " ++ toString addr.toNat ++ ", " ++ toString ptr.toNat ++ ", " ++ toString len.toNat ++ ", "
      ++ toString delay.toNat)
  | .wrd addr len delay =>
    some ("WRD " ++ toString addr.toNat ++ ", " ++ toString len.toNat ++ ", " ++ toString delay.toNat)
  | .wrr addr len ptr delay =>
    some ("WRR " ++ toString addr.toNat ++ ", " ++ toString ptr.toNat ++ ", " ++ toString len.toNat ++ ", "
      ++ toString delay.toNat)
  | .rdr addr len delay =>
    some ("RDR " ++ toString addr.toNat ++ ", " ++ toString len.toNat ++ ", " ++ toString delay.toNat)
  | .write _ => none
  | .read _ => none
  | .ctrlCmd => none
  | .ctrlData => none
  | .go _ => none
  | .reqWrite _ _ => none
  | .reqRead _ _ => none

end Sys2Proof.Machine
end

