-- ==== Sys2Proof/Tests/Slice0.lean ====
section
/-! SUPPORT. Tests of the model against the spec's own words and worked examples (95_test_vectors.md V1 to V83), and
for each obligation with hypotheses a witness: concrete states and operands that meet all of them together. -/

namespace Sys2Proof.Tests

open Sys2Proof Sys2Proof.Machine

/-! ### Small states -/

/-- The default `INIT_ROM` (42_display_script.md R193). -/
def rom (k : Fin 25) : Byte := Config.defaultInitRom.getD k.val 0#8

/-- The state after reset with `TIMEOUT_MS` = 50, `CLK_HZ` = 400000 and the default `INIT_ROM`. -/
def base : State :=
  { State.reset with
    byteRom := byteRomOf rom
    params := { timeoutMs := 50, clkHz := 400000, displayBase := 0#5, loopBase := 29#5 } }

/-- The environment's next answers. -/
def answered (ws : List WriteAnswer) (rs : List ReadAnswer) (s : State) : State :=
  { s with env := { sim := .oracle ws rs, asks := 0, inject := none } }

/-- `TIMEOUT_MS` = 0. -/
def untimed (s : State) : State := { s with params := { s.params with timeoutMs := 0 } }

/-- A write frame of the two bytes `00 AF` to the display, with MFT about to make the symbol `m`. -/
def sending (q : SeqState) (m : MftState) : State :=
  { base with
    seqState := q, mftState := m, fAddr := 0x3C#7, fRw := .write, fLen := 2#9
    txbuf := [(0, 0x00#8), (1, 0xAF#8)] }

/-- The same frame with `n` data bytes acknowledged and its trace so far. -/
def sendingAt (q : SeqState) (m : MftState) (n : Count) (tr : List Event) : State :=
  { sending q m with byteIdx := n, trace := tr }

/-- A read frame of two bytes from 0x22, after its address byte. -/
def receiving (q : SeqState) (n : Count) : State :=
  { base with
    seqState := q, mftState := .rx, fAddr := 0x22#7, fRw := .read, fLen := 2#9, byteIdx := n
    trace := [.S, .TX 0x45#8, .AI .ack] }

/-- The step at `pc` is about to be fetched. -/
def fetching (pc : StepIdx) (sel : Script) : State := { base with seqState := .fetch, pc := pc, sel := sel }

/-- The host gives a REQ. -/
def asking (rw : Dir) (a : BusAddr) (n : Count) (s : State) : State :=
  { s with ports := { Ports.quiet with reqValid := true, reqRw := rw, reqAddr := a, reqLen := n } }

/-- The host gives a GO for one cycle. -/
def going (sel : Script) (s : State) : State :=
  { s with ports := { Ports.quiet with go := true, goSel := sel }, schedule := [Ports.quiet] }

/-- The line level, `QBIT_TICKS` being 1. -/
def onLines (s : State) : State := { s with level := .line }

/-- The step answers a next state, and the check holds of it. -/
def after (o : Host.Outcome State Fault Refusal) (p : State → Bool) : Bool :=
  match o with
  | .next t => p t
  | .fault _ => false
  | .refused _ => false

/-! ### Well-formedness: each check refuses an ill-formed term -/

theorem test_wf_len_zero :
    (Instr.wrc 0x3C#7 0#9 0#8 0#4).wf = false ∧ (Instr.wrd 0x3C#7 0#9 0#4).wf = false ∧
      (Instr.wrr 0x22#7 0#9 0#8 0#4).wf = false ∧ (Instr.rdr 0x22#7 0#9 0#4).wf = false := by decide

theorem test_wf_len_above :
    (Instr.wrd 0x3C#7 256#9 0#4).wf = false ∧ (Instr.rdr 0x22#7 257#9 0#4).wf = false ∧
      (Instr.wrd 0x3C#7 255#9 0#4).wf = true ∧ (Instr.rdr 0x22#7 256#9 0#4).wf = true := by decide

theorem test_wf_payload :
    (Instr.wrc 0x3C#7 2#9 36#8 0#4).wf = false ∧ (Instr.wrr 0x22#7 9#9 29#8 0#4).wf = false ∧
      (Instr.wrc 0x3C#7 256#9 0#8 0#4).wf = false ∧ (Instr.wrr 0x22#7 257#9 0#8 0#4).wf = false ∧
      (Instr.wrr 0x22#7 37#9 0#8 0#4).wf = true := by decide

/-! ### Decoding: words written out from the spec's encodings -/

theorem test_decode_end : decodeStep 0b0000_0000000_000000000_00000000_0000#32 = .ok .endScript := by decide
theorem test_decode_wrc :
    decodeStep 0b0001_0111100_000000001_00011000_1010#32 = .ok (.wrc 0x3C#7 1#9 24#8 10#4) := by decide
theorem test_decode_wrd :
    decodeStep 0b0010_0111100_010000000_00000000_0000#32 = .ok (.wrd 0x3C#7 128#9 0#4) := by decide
theorem test_decode_wrr :
    decodeStep 0b0011_0100010_000001000_00011101_0000#32 = .ok (.wrr 0x22#7 8#9 29#8 0#4) := by decide
theorem test_decode_rdr :
    decodeStep 0b0100_0100010_000001000_00000000_0000#32 = .ok (.rdr 0x22#7 8#9 0#4) := by decide
theorem test_decode_reserved : decodeStep 0x50000000#32 = .error (.reservedKind 5#4) := by decide
theorem test_decode_write : decodeAddr 0x78#8 = .write 0x3C#7 ∧ decodeAddr 0xFE#8 = .write 0x7F#7 := by decide
theorem test_decode_read : decodeAddr 0x45#8 = .read 0x22#7 ∧ decodeAddr 0x01#8 = .read 0x00#7 := by decide
theorem test_decode_ctrl :
    decodeCtrl 0x00#8 = .ok .ctrlCmd ∧ decodeCtrl 0x40#8 = .ok .ctrlData ∧
      decodeCtrl 0x80#8 = .error (.notControlByte 0x80#8) := by decide
theorem test_decode_go :
    decodeGo 0b11#2 = .ok (.go .loopback) ∧ decodeGo 0b10#2 = .ok (.go .display) ∧
      decodeGo 0b01#2 = .error .noCommand := by decide
theorem test_decode_req_write : decodeReq 0b0_0111100_000000010#17 = .reqWrite 0x3C#7 2#9 := by decide
theorem test_decode_req_read : decodeReq 0b1_0100010_100000000#17 = .reqRead 0x22#7 256#9 := by decide

/-- A word of each format, as the opcode table numbers it. -/
theorem test_table_words :
    decodeTableWord 32 0x1780118A = some (.wrc 0x3C#7 1#9 24#8 10#4) ∧
      decodeTableWord 8 0x78 = some (.write 0x3C#7) ∧ decodeTableWord 8 0x45 = some (.read 0x22#7) ∧
      decodeTableWord 8 0x40 = some .ctrlData ∧ decodeTableWord 8 3 = some (.go .loopback) ∧
      decodeTableWord 24 0x14408 = some (.reqRead 0x22#7 8#9) ∧ decodeTableWord 32 0x50000000 = none := by decide

/-! ### One step of each instruction, against the spec's examples -/

/-- P1, end state. -/
theorem test_end :
    after (step (fetching 28#5 .display)) (fun t => t.done && !t.busy && !t.failed && t.pc == 28#5) = true := by decide

/-- V5, V52: step 25. -/
theorem test_wrc :
    after (step (fetching 25#5 .display))
      (fun t => t.txbuf == [(0, 0x00#8), (1, 0x00#8), (2, 0x7F#8)] && t.fLen == 3#9 && t.fAddr == 0x3C#7
        && t.fRw == .write && t.mftState == .start) = true := by decide

/-- V52: `WRD 0x3C, 4, 0`. -/
theorem test_wrd :
    after (exec (.wrd 0x3C#7 4#9 0#4) (fetching 27#5 .display))
      (fun t => t.txbuf == [(0, 0x40#8), (1, 0x55#8), (2, 0xAA#8), (3, 0x55#8), (4, 0xAA#8)] && t.fLen == 5#9)
      = true := by decide

/-- V5: step 29. -/
theorem test_wrr :
    after (step (fetching 29#5 .loopback))
      (fun t => t.txbuf.map Prod.snd == [0x01#8, 0x23#8, 0x45#8, 0x67#8, 0x89#8, 0xAB#8, 0xCD#8, 0xEF#8]
        && t.fLen == 8#9 && t.fAddr == 0x22#7) = true := by decide

/-- R170. -/
theorem test_rdr :
    after (step (fetching 30#5 .loopback))
      (fun t => t.fRw == .read && t.fLen == 8#9 && t.txbuf == [] && t.seqState == .xfer) = true := by decide

/-- V10, the address slot. -/
theorem test_write_ack :
    after (step (answered [.ack] [] (sending .direct .addr)))
      (fun t => t.trace == [.TX 0x78#8, .AI .ack] && t.mftState == .tx) = true := by decide

/-- V12, the address slot. -/
theorem test_write_nack :
    after (step (answered [.nack] [] (sending .direct .addr)))
      (fun t => t.trace == [.TX 0x78#8, .AI .nack] && t.mftState == .stop && t.mErrKind == .addressing
        && t.mErrPos == 0#9) = true := by decide

/-- V25, the address slot. -/
theorem test_read_ack :
    after (exec (.read 0x22#7) (answered [.ack] [] (receiving .direct 0#9)))
      (fun t => t.trace.drop 3 == [.TX 0x45#8, .AI .ack] && t.mftState == .rx) = true := by decide

/-- V32. -/
theorem test_read_arbitration :
    after (exec (.read 0x22#7) (answered [.arbLost] [] (receiving .direct 0#9)))
      (fun t => t.trace.drop 3 == [.X] && t.failed && t.errKind == .arbitration && t.errPos == 0#9 && !t.busy)
      = true := by decide

/-- V42: NACK to the control byte. -/
theorem test_ctrl_cmd :
    after (step (answered [.nack] [] (sending .xfer .tx)))
      (fun t => t.trace == [.TX 0x00#8, .AI .nack] && t.mErrPos == 1#9) = true := by decide

/-- V50, the control byte acknowledged. -/
theorem test_ctrl_data :
    after (exec .ctrlData (answered [.ack] [] (sending .xfer .tx)))
      (fun t => t.trace == [.TX 0x40#8, .AI .ack] && t.byteIdx == 1#9 && t.mftState == .tx) = true := by decide

/-- V35. -/
theorem test_go :
    after (step (going .loopback base))
      (fun t => t.sel == .loopback && t.pc == 29#5 && t.busy && !t.done && !t.failed) = true := by decide

/-- V36: GO before REQ at one edge. -/
theorem test_go_before_req :
    after (step { base with ports := { Ports.quiet with go := true, reqValid := true, reqLen := 1#9 } })
      (fun t => t.seqState == .fetch && t.pc == 0#5) = true := by decide

/-- V19. -/
theorem test_req_write :
    after (step (asking .write 0x22#7 257#9 base))
      (fun t => t.failed && t.errKind == .capacity && t.errPos == 0#9 && t.trace == []) = true := by decide

/-- R163. -/
theorem test_req_read :
    after (step (asking .read 0x22#7 256#9 base))
      (fun t => t.seqState == .direct && t.fLen == 256#9 && t.fRw == .read && t.mftState == .start) = true := by decide

/-! ### Other single steps -/

/-- V26, the last byte of a read. -/
theorem test_receive_last :
    after (step (answered [] [.byte 0x23#8] (receiving .direct 1#9)))
      (fun t => t.trace.drop 3 == [.RX 0x23#8, .AO .nack] && t.rxbuf == [(1, 0x23#8)] && t.mftState == .stop)
      = true := by decide

/-- V52: the end of step 7's frame, with its delay. -/
theorem test_delay :
    after (step { sending .xfer .stop with pc := 7#5 })
      (fun t => t.trace == [.P, .DLY 10] && t.pc == 8#5 && t.dlyCnt == 4000#32 && t.seqState == .delay)
      = true := by decide

/-- V17: a stall with no timeout waits. -/
theorem test_stall_waits :
    after (step (answered [.stall] [] (untimed (sending .direct .tx))))
      (fun t => t.trace == [] && t.busy && t.mftState == .tx) = true := by decide

/-- V39a. -/
theorem test_reset :
    after (step { sendingAt .xfer .tx 0#9 [.S, .TX 0x78#8, .AI .ack] with ports := { Ports.quiet with rst := true } })
      (fun t => t.trace == [.S, .TX 0x78#8, .AI .ack, .X] && !t.busy && t.txbuf == [] && t.fAddr == 0#7)
      = true := by decide

/-- V80, V81: the levels of the second bit of 0x78. -/
theorem test_bit_levels :
    ([Quarter.first, .second, .third, .fourth].map fun q =>
      State.lineLevels { onLines (sending .direct .addr) with shreg := 0xF0#8, quarter := q })
      = [(false, true), (true, true), (true, true), (false, true)] := by decide

/-- V83. -/
theorem test_durations :
    [2, 3, 8, 129, 256].map frameMicros = [290, 380, 830, 11720, 23150] ∧ settleTicks base.params = 4000 := by decide

/-- The trace text of V12 (R112). -/
theorem test_trace_text : traceText [.S, .TX 0x78#8, .AI .nack, .P] = "S 78 n P" := by decide

/-! ### Witnesses: the hypotheses of each obligation hold together somewhere -/

theorem calm_base : base.calm := ⟨rfl, by decide⟩

theorem undisturbed_base : base.undisturbed := ⟨rfl, rfl, by simp [base, State.reset]⟩

theorem base_steps : step base = .next base := by rfl

theorem witness_EncodeInvertsDecode :
    (decodeStep 0#32 = .ok .endScript ∧ decodeStep 0x1780118A#32 = .ok (.wrc 0x3C#7 1#9 24#8 10#4) ∧
      decodeStep 0x27880000#32 = .ok (.wrd 0x3C#7 128#9 0#4) ∧ stepPtr 0x27880000#32 = 0#8 ∧
      decodeStep 0x44408000#32 = .ok (.rdr 0x22#7 8#9 0#4) ∧ stepPtr 0x44408000#32 = 0#8) ∧
    decodeCtrl 0x40#8 = .ok .ctrlData ∧ decodeGo 2#2 = .ok (.go .display) := by decide

theorem witness_PatternOfTheDataFrame : 2 % 2 = 0 ∧ 1 % 2 = 1 ∧ 1 ≤ 128 ∧ 128 ≤ (128#9 : Count).toNat := by decide

theorem witness_StepFieldBounds :
    (Instr.wrd 0x3C#7 255#9 0#4).wf = true ∧ (Instr.rdr 0x22#7 256#9 0#4).wf = true ∧
    ((stepKind 0x1780100A#32).toNat = 1 ∧ (stepKind 0x344081D0#32).toNat = 3 ∧ (stepKind 0x44408000#32).toNat = 4) ∧
    (Instr.wrc 0x3C#7 37#9 0#8 0#4).wf = true ∧ (Instr.wrc 0x3C#7 1#9 36#8 0#4).wf = true ∧
    (Instr.wrr 0x22#7 37#9 0#8 0#4).wf = true ∧ (Instr.wrr 0x22#7 1#9 36#8 0#4).wf = true ∧
    ((stepKind 0#32).toNat = 0 ∧ stepKind 0x0FFFFFFF#32 = stepKind 0#32) ∧
    ((stepKind 0x27880000#32).toNat = 2 ∧ stepKind 0x27880FF0#32 = stepKind 0x27880000#32 ∧
      stepAddr 0x27880FF0#32 = stepAddr 0x27880000#32 ∧ stepLen 0x27880FF0#32 = stepLen 0x27880000#32 ∧
      stepDelay 0x27880FF0#32 = stepDelay 0x27880000#32) ∧
    0x1780100A#32 ∈ State.reset.scriptRom.toList := by decide

theorem witness_TableContents :
    decodeStep State.reset.scriptRom[0] = .ok (.wrc 0x3C#7 1#9 0#8 10#4) ∧
      decodeStep State.reset.scriptRom[29] = .ok (.wrr 0x22#7 8#9 29#8 0#4) := by decide

/-- For ParametersNeverWritten, TraceOnlyGrows and PcWrittenThreeWays; the second also for BufferWriters. -/
theorem witness_next_state :
    (∃ t, step base = .next t) ∧ (base.ports.rst = false ∧ ∃ t, step (going .display base) = .next t) :=
  ⟨⟨base, base_steps⟩, rfl, _, rfl⟩

theorem witness_MalformedScriptsRefused :
    (Instr.wrd 0x3C#7 256#9 0#4).wf = false ∧
    (∃ s : State, s.calm ∧ s.paramsOk ∧ s.seqState = .fetch ∧ (stepKind s.stepWordAt).toNat = 5) ∧
    (∃ s : State, s.calm ∧ s.paramsOk ∧ s.seqState = .fetch ∧ (stepKind s.stepWordAt).toNat = 15) ∧
    (∃ s : State, s.busy = false ∧ s.tableOk = false) ∧
    ∃ s : State, s.calm ∧ s.level = .symbol ∧ s.seqState = .xfer ∧ s.mftState = .stop ∧ s.mErrKind = .none ∧
      s.pc = 31#5 := by
  refine ⟨by decide, ⟨{ fetching 0#5 .display with scriptRom := Vector.replicate 32 0x50000000#32 }, ?_⟩,
    ⟨{ fetching 0#5 .display with scriptRom := Vector.replicate 32 0xF0000000#32 }, ?_⟩,
    ⟨{ base with scriptRom := Vector.replicate 32 0x1780100A#32 }, by decide, by decide⟩,
    { sending .xfer .stop with pc := 31#5 }, ⟨rfl, by decide⟩, rfl, rfl, rfl, rfl, rfl⟩
  · exact ⟨⟨rfl, by decide⟩, fun _ => by decide, rfl, by decide⟩
  · exact ⟨⟨rfl, by decide⟩, fun _ => by decide, rfl, by decide⟩

/-- Every kind of step, each at an index of the reset table. -/
theorem witness_StepRunsFetchedStep :
    (∀ pc l, let s := { fetching pc .display with level := l }
      s.calm ∧ s.paramsOk ∧ s.seqState = .fetch ∧ s.stepWordAt = (fetching pc .display).stepWordAt) ∧
    decodeStep (fetching 0#5 .display).stepWordAt = .ok (.wrc 0x3C#7 1#9 0#8 10#4) ∧
    decodeStep (fetching 27#5 .display).stepWordAt = .ok (.wrd 0x3C#7 128#9 0#4) ∧
    decodeStep (fetching 28#5 .display).stepWordAt = .ok .endScript ∧
    decodeStep (fetching 29#5 .display).stepWordAt = .ok (.wrr 0x22#7 8#9 29#8 0#4) ∧
    decodeStep (fetching 30#5 .display).stepWordAt = .ok (.rdr 0x22#7 8#9 0#4) := by
  have hp : lineParamsOk base.params = true := by decide
  exact ⟨fun _ _ => ⟨⟨rfl, rfl⟩, fun _ => hp, rfl, rfl⟩, by decide⟩

theorem witness_StepRunsHostCommand :
    (∀ l, let s := { going .loopback base with level := l }
      s.calm ∧ s.paramsOk ∧ s.seqState = .idle ∧ s.ports.go = true) ∧
    (∀ l rw, let s := { asking rw 0x22#7 0#9 base with level := l }
      s.calm ∧ s.paramsOk ∧ s.seqState = .idle ∧ s.ports.go = false ∧ s.ports.reqValid = true ∧ s.ports.reqRw = rw) ∧
    (base.calm ∧ base.paramsOk ∧ base.seqState = .idle ∧ base.ports.go = false ∧ base.ports.reqValid = false) := by
  have hp : lineParamsOk base.params = true := by decide
  refine ⟨fun l => ⟨⟨rfl, rfl⟩, fun _ => hp, rfl, rfl⟩, fun l rw => ⟨⟨rfl, rfl⟩, fun _ => hp, rfl, rfl, rfl, rfl⟩,
    calm_base, fun _ => hp, rfl, rfl, rfl⟩

theorem witness_StepRunsFrameBytes :
    ∀ q, q = .xfer ∨ q = .direct →
      ((sending q .addr).calm ∧ (sending q .addr).level = .symbol ∧ (sending q .addr).mftState = .addr) ∧
      ((sending q .tx).calm ∧ (sending q .tx).level = .symbol ∧ (sending q .tx).mftState = .tx ∧
        (sending q .tx).byteIdx = 0#9 ∧ Memory.read (sending q .tx).txbuf 0 = some 0x00#8 ∧
        decodeCtrl 0x00#8 = .ok .ctrlCmd) :=
  fun _ _ => ⟨⟨⟨rfl, rfl⟩, rfl, rfl⟩, ⟨rfl, rfl⟩, rfl, rfl, rfl, rfl, by decide⟩

/-- For WrcBuildsItsFrame, WrdBuildsItsFrame, WrrBuildsItsFrame and RdrStartsARead, at both ends of `len`. -/
theorem witness_step_bounds :
    (Instr.wrc 0x3C#7 1#9 36#8 15#4).wf = true ∧ (Instr.wrc 0x3C#7 37#9 0#8 0#4).wf = true ∧
    (Instr.wrd 0x3C#7 1#9 0#4).wf = true ∧ (Instr.wrd 0x3C#7 255#9 0#4).wf = true ∧
    (Instr.wrr 0x22#7 1#9 36#8 0#4).wf = true ∧ (Instr.wrr 0x22#7 37#9 0#8 0#4).wf = true ∧
    (Instr.rdr 0x22#7 1#9 0#4).wf = true ∧ (Instr.rdr 0x22#7 256#9 0#4).wf = true := by decide

theorem witness_GoStartsAScript :
    (base.busy = false ∧ base.tableOk = true) ∧ (sending .xfer .tx).busy = true := by decide

theorem witness_ReqStartsAFrame :
    (base.busy = false ∧ 1 ≤ (1#9 : Count).toNat ∧ (256#9 : Count).toNat ≤ 256) ∧ (sending .direct .tx).busy = true := by
  decide

theorem witness_IllegalLengthIsCapacityError :
    (base.busy = false ∧ (0#9 : Count).toNat = 0 ∧ 256 < (257#9 : Count).toNat ∧ 256 < (511#9 : Count).toNat) ∧
    ∃ t, (fetching 0#5 .display).calm ∧ (fetching 0#5 .display).paramsOk ∧
      decodeStep (fetching 0#5 .display).stepWordAt = .ok (.wrc 0x3C#7 1#9 0#8 10#4) ∧
      step (fetching 0#5 .display) = .next t :=
  ⟨by decide, _, ⟨rfl, by decide⟩, fun _ => by decide, rfl, rfl⟩

theorem witness_CommandsWhileBusyHaveNoEffect :
    let s := sending .xfer .tx
    let q := { s.ports with go := true, reqValid := true, txWe := true }
    s.busy = true ∧ q.rst = s.ports.rst ∧ q.rxIdx = s.ports.rxIdx ∧ q.rxRead = s.ports.rxRead ∧
      q.sclEnv = s.ports.sclEnv ∧ q.sdaEnv = s.ports.sdaEnv := by decide

/-- For AddressSlotByAnswer and ControlByteSlotByAnswer: every answer is some environment's. -/
theorem witness_write_answers :
    ∀ (x : WriteAnswer) (b : Byte) (tr : List Event),
      (answered [x] [] base).env.askWrite tr b = (x, { sim := .oracle [] [], asks := 1, inject := none }) :=
  fun _ _ _ => rfl

theorem witness_DataSlotByAnswer :
    ∀ (q : SeqState) (x : WriteAnswer), q = .xfer ∨ q = .direct →
      let s := answered [x] [] (sendingAt q .tx 1#9 [.S, .TX 0x78#8, .AI .ack, .TX 0x00#8, .AI .ack])
      s.calm ∧ s.level = .symbol ∧ s.mftState = .tx ∧ Memory.read s.txbuf s.byteIdx.toNat = some 0xAF#8 ∧
        (s.env.askWrite s.trace 0xAF#8).1 = x :=
  fun _ _ _ => ⟨⟨rfl, rfl⟩, rfl, rfl, rfl, rfl⟩

/-- Both answers, in the first and in the last byte of a frame. -/
theorem witness_ReadSlotByAnswer :
    ∀ (q : SeqState) (x : ReadAnswer) (n : Count), q = .xfer ∨ q = .direct → n = 0#9 ∨ n = 1#9 →
      let s := answered [] [x] (receiving q n)
      s.calm ∧ s.level = .symbol ∧ s.mftState = .rx ∧ (s.env.askRead s.trace).1 = x :=
  fun _ _ _ _ _ => ⟨⟨rfl, rfl⟩, rfl, rfl, rfl⟩

theorem witness_UnwrittenBytesFault :
    (∃ s : State, s.calm ∧ s.level = .symbol ∧ s.seqState = .xfer ∧ s.mftState = .tx ∧
      Memory.read s.txbuf s.byteIdx.toNat = none) ∧
    ∃ s : State, s.ports.rst = false ∧ s.ports.rxRead = true ∧ Memory.read s.rxbuf s.ports.rxIdx.toNat = none :=
  ⟨⟨{ sending .xfer .tx with txbuf := [] }, ⟨rfl, rfl⟩, rfl, rfl, rfl, rfl⟩,
    { base with ports := { Ports.quiet with rxRead := true, rxIdx := 255#8 } }, rfl, rfl, rfl⟩

theorem witness_StartConditionStep :
    ∀ q, q = .xfer ∨ q = .direct →
      (sending q .start).calm ∧ (sending q .start).level = .symbol ∧ (sending q .start).mftState = .start :=
  fun _ _ => ⟨⟨rfl, rfl⟩, rfl, rfl⟩

theorem witness_HostFrameEnds :
    ∀ k : ErrKind, let s := { sending .direct .stop with mErrKind := k }
      s.calm ∧ s.level = .symbol ∧ s.seqState = .direct ∧ s.mftState = .stop ∧ s.mErrKind = k :=
  fun _ => ⟨⟨rfl, rfl⟩, rfl, rfl, rfl, rfl⟩

/-- A step with a delay, one without, and any pending error. -/
theorem witness_ScriptFrameEnds :
    (∀ (k : ErrKind) (pc : StepIdx), let s := { sending .xfer .stop with mErrKind := k, pc := pc }
      s.calm ∧ s.level = .symbol ∧ s.seqState = .xfer ∧ s.mftState = .stop ∧ s.mErrKind = k) ∧
    stepDelay (State.stepWordAt { sending .xfer .stop with pc := 0#5 }) = 10#4 ∧
    stepDelay (State.stepWordAt { sending .xfer .stop with pc := 25#5 }) = 0#4 :=
  ⟨fun _ _ => ⟨⟨rfl, rfl⟩, rfl, rfl, rfl, rfl⟩, by decide, by decide⟩

theorem witness_PostDelayIsWaitedOut :
    ∀ (d : Ticks) (l : Level), let s := { base with seqState := .delay, dlyCnt := d, level := l }
      s.calm ∧ s.undisturbed ∧ lineParamsOk s.params = true ∧ s.seqState = .delay ∧ s.mftState = .idle ∧
        (d = 1#32 → s.dlyCnt.toNat = 0 + 1) ∧ (d = 4000#32 → s.dlyCnt.toNat = 3999 + 1) := by
  intro d l
  refine ⟨⟨rfl, rfl⟩, ⟨rfl, rfl, undisturbed_base.2.2⟩, (by decide : lineParamsOk base.params = true), rfl, rfl, ?_, ?_⟩
  · rintro rfl; rfl
  · rintro rfl; rfl

theorem witness_ResetEdge :
    ({ sending .xfer .tx with ports := { Ports.quiet with rst := true } } : State).ports.rst = true := rfl

theorem witness_NothingRunsWithoutCommand : base.seqState = .idle ∧ base.paramsOk ∧ base.leftAlone :=
  ⟨rfl, fun _ => by decide, by simp [State.leftAlone, base, State.reset, Ports.quiet]⟩

/-! #### States that meet the invariant -/

/-- The invariant from its parts, each of them decidable on a concrete state. -/
theorem inv_of_parts {s : State} {p : BusPhase} (h1 : Memory.wf s.txbuf ∧ Memory.wf s.rxbuf)
    (h2 : ¬(s.done = true ∧ s.failed = true) ∧ (s.busy = true → s.done = false ∧ s.failed = false) ∧
      (s.failed = false → s.errKind = .none ∧ s.errPos = 0#9 ∧ s.failStep = 0#5) ∧
      (s.failed = true → s.errKind ≠ .none) ∧ s.errPos.toNat ≤ 256)
    (h3 : (s.mftState ≠ .idle ↔ s.seqState = .xfer ∨ s.seqState = .direct) ∧
      (1 ≤ s.fLen.toNat ∧ s.fLen.toNat ≤ 256 ∨ s.mftState = .idle) ∧
      (s.mftState = .start ∨ s.mftState = .addr ∨ s.mftState = .aack → s.byteIdx = 0#9) ∧
      (s.mftState = .tx ∨ s.mftState = .tack ∨ s.mftState = .rx ∨ s.mftState = .rack →
        s.byteIdx.toNat < s.fLen.toNat) ∧ s.byteIdx.toNat ≤ s.fLen.toNat)
    (h4 : (s.mErrKind = .none ∨ s.mErrKind = .addressing) ∧ s.mErrPos.toNat ≤ 256 ∧
      (s.mftState = .start ∨ s.mftState = .addr ∨ s.mftState = .tx ∨ s.mftState = .rx ∨ s.mftState = .rack →
        s.mErrKind = .none) ∧
      (s.mftState = .tx ∨ s.mftState = .tack → s.fRw = .write) ∧
      (s.mftState = .rx ∨ s.mftState = .rack → s.fRw = .read) ∧
      s.mftState ≠ .aack ∧ s.mftState ≠ .tack ∧ s.mftState ≠ .rack)
    (h5 : (scriptBase s.params s.sel).toNat ≤ s.pc.toNat) (h6 : tracePhase s.trace = some p) (h7 : s.phaseOk p) :
    s.Inv :=
  ⟨h1.1, h1.2, ⟨h2.1, h2.2.1, h2.2.2.1, h2.2.2.2.1, h2.2.2.2.2⟩,
    ⟨h3.1, fun hm => h3.2.1.resolve_right hm, h3.2.2.1, h3.2.2.2.1, fun _ => h3.2.2.2.2, fun _ => h4.1, h4.2.1,
      h4.2.2.1, h4.2.2.2.1, h4.2.2.2.2.1, fun _ => h4.2.2.2.2.2⟩,
    fun _ => h5, p, h6, h7⟩

theorem base_inv : base.Inv :=
  inv_of_parts (p := .closed) (by decide) (by decide) (by decide) (by decide) (by decide) rfl rfl

/-- After a run with success. -/
def finished : State := { base with done := true }

/-- After a run with AddressingError. -/
def broken : State := { base with failed := true, errKind := .addressing }

theorem finished_inv : finished.Inv :=
  inv_of_parts (p := .closed) (by decide) (by decide) (by decide) (by decide) (by decide) rfl rfl

theorem broken_inv : broken.Inv :=
  inv_of_parts (p := .closed) (by decide) (by decide) (by decide) (by decide) (by decide) rfl rfl

/-- In the address slot, the environment about to give `x`. -/
def addressing (q : SeqState) (x : WriteAnswer) : State := answered [x] [] (sendingAt q .addr 0#9 [.S])

theorem addressing_inv (q : SeqState) (x : WriteAnswer) (hq : q = .xfer ∨ q = .direct) : (addressing q x).Inv := by
  have h : (sendingAt q .addr 0#9 [.S]).Inv := by
    rcases hq with rfl | rfl <;>
      exact inv_of_parts (p := .started) (by decide) (by decide) (by decide) (by decide) (by decide) rfl rfl
  exact inv_env h _

/-- At the stop condition after a NACK to the address byte. -/
def refusedAddress (q : SeqState) : State :=
  { sendingAt q .stop 0#9 [.S, .TX 0x78#8, .AI .nack] with mErrKind := .addressing }

theorem refusedAddress_inv (q : SeqState) (hq : q = .xfer ∨ q = .direct) : (refusedAddress q).Inv := by
  rcases hq with rfl | rfl <;>
    exact inv_of_parts (p := .ending) (by decide) (by decide) (by decide) (by decide) (by decide) rfl (.inl rfl)

/-- At the stop condition of a frame whose two bytes have been acknowledged. -/
def acknowledged : State :=
  sendingAt .direct .stop 2#9 [.S, .TX 0x78#8, .AI .ack, .TX 0x00#8, .AI .ack, .TX 0xAF#8, .AI .ack]

theorem acknowledged_inv : acknowledged.Inv :=
  inv_of_parts (p := .writing true) (by decide) (by decide) (by decide) (by decide) (by decide) rfl (.inr rfl)

theorem asking_inv (rw : Dir) (a : BusAddr) (n : Count) {s : State} (h : s.Inv) : (asking rw a n s).Inv :=
  inv_ports h _ _

theorem witness_InvariantKept : base.Inv ∧ step base = .next base := ⟨base_inv, base_steps⟩

/-- At the start condition. -/
def starting : State := sending .xfer .start

theorem starting_inv : starting.Inv :=
  inv_of_parts (p := .closed) (by decide) (by decide) (by decide) (by decide) (by decide) rfl rfl

/-- Past the address byte; and into `M_ADDR`. -/
theorem witness_RunningFrameIsFixed :
    (∃ t, (addressing .xfer .ack).Inv ∧ (addressing .xfer .ack).ports.rst = false ∧
      (addressing .xfer .ack).mftState ≠ .idle ∧ (addressing .xfer .ack).mftState ≠ .start ∧
      step (addressing .xfer .ack) = .next t) ∧
    ∃ t, starting.Inv ∧ starting.ports.rst = false ∧ starting.mftState ≠ .idle ∧ step starting = .next t ∧
      t.mftState = .addr :=
  ⟨⟨_, addressing_inv _ _ (.inl rfl), rfl, by decide, by decide, rfl⟩, _, starting_inv, rfl, by decide, rfl, rfl⟩

/-- One step for each clause; `busy` falls in the first with success and in the third with an error. -/
theorem witness_StatusChangesWithRuns :
    (∃ t, acknowledged.Inv ∧ step acknowledged = .next t ∧ acknowledged.done = false ∧ t.done = true ∧
      acknowledged.busy = true ∧ t.busy = false ∧ acknowledged.ports.rst = false) ∧
    (∃ s t : State, s.Inv ∧ step s = .next t ∧ s.done = true ∧ t.done = false ∧ t.busy = true ∧ s.busy = false) ∧
    (∃ t, (refusedAddress .xfer).Inv ∧ step (refusedAddress .xfer) = .next t ∧
      (refusedAddress .xfer).failed = false ∧ t.failed = true ∧ (refusedAddress .xfer).busy = true ∧
      t.busy = false ∧ (refusedAddress .xfer).ports.rst = false) ∧
    ∃ s t : State, s.Inv ∧ step s = .next t ∧ s.failed = true ∧ t.failed = false :=
  ⟨⟨_, acknowledged_inv, rfl, rfl, rfl, rfl, rfl, rfl⟩,
    ⟨going .display finished, _, inv_ports finished_inv _ _, rfl, rfl, rfl, rfl, rfl⟩,
    ⟨_, refusedAddress_inv _ (.inl rfl), rfl, rfl, rfl, rfl, rfl, rfl⟩,
    ⟨asking .read 0x22#7 1#9 broken, _, asking_inv _ _ _ broken_inv, rfl, rfl, rfl⟩⟩

/-- For EveryErrorEndsTheRun and ErrorsHaveTheirCause: a step into each kind of error. -/
theorem witness_errors :
    (∀ q : SeqState, q = .xfer ∨ q = .direct → ∃ s t : State, s.Inv ∧ step s = .next t ∧ s.failed = false ∧ t.failed = true ∧
      t.errKind = .addressing) ∧
    (∀ q : SeqState, q = .xfer ∨ q = .direct → ∃ s t : State, s.Inv ∧ step s = .next t ∧ s.failed = false ∧ t.failed = true ∧
      t.errKind = .timeout ∧ s.level = .symbol) ∧
    (∀ q : SeqState, q = .xfer ∨ q = .direct → ∃ s t : State, s.Inv ∧ step s = .next t ∧ s.failed = false ∧ t.failed = true ∧
      t.errKind = .arbitration ∧ s.level = .symbol) ∧
    ∀ n : Count, n = 0#9 ∨ n = 257#9 → ∃ s t : State, s.Inv ∧ step s = .next t ∧ s.failed = false ∧ t.failed = true ∧
      t.errKind = .capacity := by
  refine ⟨fun q hq => ⟨refusedAddress q, ?_⟩, fun q hq => ⟨addressing q .stall, ?_⟩,
    fun q hq => ⟨addressing q .arbLost, ?_⟩, fun n hn => ⟨asking .write 0x22#7 n base, ?_⟩⟩
  · have h := refusedAddress_inv q hq
    rcases hq with rfl | rfl <;> exact ⟨_, h, rfl, rfl, rfl, rfl⟩
  · have h := addressing_inv q .stall hq
    rcases hq with rfl | rfl <;> exact ⟨_, h, rfl, rfl, rfl, rfl, rfl⟩
  · have h := addressing_inv q .arbLost hq
    rcases hq with rfl | rfl <;> exact ⟨_, h, rfl, rfl, rfl, rfl, rfl⟩
  · rcases hn with rfl | rfl <;> exact ⟨_, asking_inv _ _ _ base_inv, rfl, rfl, rfl, rfl⟩

theorem onLines_inv {s : State} (h : s.Inv) : (onLines s).Inv :=
  ⟨h.txbuf, h.rxbuf, ⟨h.status.1, h.status.2, h.status.3, h.status.4, h.status.5⟩,
    ⟨h.frame.1, h.frame.2, h.frame.3, h.frame.4, h.frame.5, h.frame.6, h.frame.7, h.frame.8, h.frame.9, h.frame.10,
      fun hl => by cases hl⟩, h.pc, h.trace⟩

/-- The address slot at line level, `tmo_cnt` about to reach the 20000 ticks of `TIMEOUT_MS` = 50. -/
def lateOnLines (q : SeqState) : State := { onLines (addressing q .ack) with tmoCnt := 19999#32 }

/-- The address slot at line level, a sent 1 about to be read back as 0. -/
def contested (q : SeqState) : State :=
  { onLines (addressing q .ack) with shreg := 0x80#8, quarter := .second, ports := { Ports.quiet with sdaEnv := false } }

/-- For the line-level clauses of ErrorsHaveTheirCause: a timeout and a lost arbitration. -/
theorem witness_line_errors :
    ∀ q : SeqState, q = .xfer ∨ q = .direct →
      (∃ t, (lateOnLines q).Inv ∧ step (lateOnLines q) = .next t ∧ (lateOnLines q).failed = false ∧
        t.failed = true ∧ t.errKind = .timeout ∧ (lateOnLines q).level = .line) ∧
      ∃ t, (contested q).Inv ∧ step (contested q) = .next t ∧ (contested q).failed = false ∧ t.failed = true ∧
        t.errKind = .arbitration ∧ (contested q).level = .line := by
  intro q hq
  have h := onLines_inv (addressing_inv q .ack hq)
  have h1 : (lateOnLines q).Inv := inv_withLine h _ _ 19999#32 _ _
  have h2 : (contested q).Inv := inv_ports (inv_withLine h _ 0x80#8 _ .second _) _ _
  rcases hq with rfl | rfl <;> exact ⟨⟨_, h1, rfl, rfl, rfl, rfl, rfl⟩, _, h2, rfl, rfl, rfl, rfl, rfl⟩

/-! #### Runs -/

/-- A premise holds of the first `n` states of a run, by computation. -/
def alongCheck : Nat → (State → Bool) → State → Bool
  | 0, _, _ => true
  | n + 1, p, s =>
    p s &&
      match step s with
      | .next t => alongCheck n p t
      | .fault _ => true
      | .refused _ => true

theorem along_of_check {p : State → Bool} {P : State → Prop} (hp : ∀ t, p t = true → P t) :
    ∀ (n : Nat) (s : State), alongCheck n p s = true → Along n P s
  | 0, _, _, _, _, hk, _ => absurd hk (by omega)
  | n + 1, s, h, k, t, hk, ht => by
    simp only [alongCheck, Bool.and_eq_true] at h
    cases k with
    | zero => injection ht with ht; exact ht ▸ hp s h.1
    | succ k =>
      simp only [run] at ht
      cases hs : step s with
      | next u => rw [hs] at ht h; exact along_of_check hp n u h.2 k t (by omega) ht
      | fault r => rw [hs] at ht; cases ht
      | refused r => rw [hs] at ht; cases ht

/-- Checks `Present(a)`. -/
def presentCheck (a : BusAddr) (s : State) : Bool := s.fAddr != a || s.writeAnswer.all (· == .ack)

theorem present_of_check {a : BusAddr} {s : State} (h : presentCheck a s = true) : s.Present a := by
  intro ha x hx
  simpa [presentCheck, ha, hx] using h

/-- Checks `Echo(a, P)` and `NoStall`. -/
def echoCheck (a : BusAddr) (p : List Byte) (s : State) : Bool :=
  presentCheck a s && (s.fAddr != a || (p[s.byteIdx.toNat]?.all fun b => s.readAnswer.all (· == .byte b)))
    && s.writeAnswer.all (· != .stall) && s.readAnswer.all (· != .stall)

theorem echo_of_check {a : BusAddr} {p : List Byte} {s : State} (h : echoCheck a p s = true) :
    s.Echo a p ∧ s.NoStall := by
  simp only [echoCheck, Bool.and_eq_true] at h
  obtain ⟨⟨⟨h1, h2⟩, h3⟩, h4⟩ := h
  refine ⟨⟨present_of_check h1, fun ha b x hb hx => ?_⟩, fun hx => ?_, fun hx => ?_⟩
  · simpa [ha, hb, hx] using h2
  · simp [hx] at h3
  · simp [hx] at h4

/-- The host's REQ WRITE of the bytes `00 AF` to the display (V10). -/
def writing (ws : List WriteAnswer) : State :=
  { answered ws [] (asking .write 0x3C#7 2#9 base) with txbuf := [(0, 0x00#8), (1, 0xAF#8)], schedule := [Ports.quiet] }

/-- The host's REQ READ of two bytes from 0x22 (V26). -/
def reading (rs : List ReadAnswer) : State :=
  { answered [.ack] rs (asking .read 0x22#7 2#9 base) with schedule := [Ports.quiet] }

theorem writing_undisturbed (ws : List WriteAnswer) : (writing ws).undisturbed :=
  ⟨rfl, rfl, by simp [writing, Ports.quiet]⟩

theorem reading_undisturbed (rs : List ReadAnswer) : (reading rs).undisturbed :=
  ⟨rfl, rfl, by simp [reading, Ports.quiet]⟩

theorem going_undisturbed (sel : Script) (ws : List WriteAnswer) (rs : List ReadAnswer) :
    (answered ws rs (going sel base)).undisturbed := ⟨rfl, rfl, by simp [answered, going, Ports.quiet]⟩

theorem witness_StallWithoutTimeoutWaits :
    let s := answered (List.replicate 3 .stall) [] (untimed (sendingAt .direct .tx 1#9 [.S, .TX 0x78#8, .AI .ack, .TX 0x00#8, .AI .ack]))
    s.undisturbed ∧ s.level = .symbol ∧ s.seqState = .direct ∧ s.params.timeoutMs = 0 ∧ s.driven ≠ none ∧
      Along 3 State.Stalls s := by
  refine ⟨⟨rfl, rfl, undisturbed_base.2.2⟩, rfl, rfl, rfl, by decide, ?_⟩
  refine along_of_check (p := fun t => t.writeAnswer.all (· == .stall) && t.readAnswer.all (· == .stall)) ?_ 3 _ (by decide)
  intro t ht
  simp only [Bool.and_eq_true] at ht
  exact ⟨fun x hx => by simpa [hx] using ht.1, fun x hx => by simpa [hx] using ht.2⟩

/-- With every answer, at the last data byte. -/
theorem witness_HostWriteIsBusWrite :
    ∀ x : WriteAnswer, let s := writing [.ack, .ack, x]
      s.undisturbed ∧ s.level = .symbol ∧ s.seqState = .idle ∧ s.ports.go = false ∧ s.ports.reqValid = true ∧
      s.ports.reqRw = .write ∧ [0x00#8, 0xAF#8].length = s.ports.reqLen.toNat ∧
      (∀ j, j < 2 → Memory.read (hostWrite s).txbuf j = [0x00#8, 0xAF#8][j]?) ∧
      ∃ r u, busWrite 0 s.ports.reqAddr [0x00#8, 0xAF#8] s = (some r, u) := by
  intro x
  refine ⟨writing_undisturbed _, rfl, rfl, rfl, rfl, rfl, rfl, ?_, ?_⟩
  · intro j hj
    obtain rfl | rfl : j = 0 ∨ j = 1 := by omega
    · rfl
    · rfl
  · cases x <;> exact ⟨_, _, rfl⟩

theorem witness_HostReadIsBusRead :
    ∀ x : ReadAnswer, let s := reading [.byte 0x01#8, x]
      s.undisturbed ∧ s.level = .symbol ∧ s.seqState = .idle ∧ s.ports.go = false ∧ s.ports.reqValid = true ∧
      s.ports.reqRw = .read ∧ ∃ r u, busRead 0 s.ports.reqAddr s.ports.reqLen.toNat s = (some r, u) := by
  intro x
  refine ⟨reading_undisturbed _, rfl, rfl, rfl, rfl, rfl, ?_⟩
  cases x <;> exact ⟨_, _, rfl⟩

/-- A step of each kind, with success and with an error. -/
theorem witness_ScriptStepIsItsOperation :
    ∀ x : WriteAnswer, let s := answered [.ack, .ack, .ack, x] [] (fetching 25#5 .display)
      s.undisturbed ∧ s.level = .symbol ∧ s.seqState = .fetch ∧
      decodeStep s.stepWordAt = .ok (.wrc 0x3C#7 2#9 25#8 0#4) ∧ (Instr.wrc 0x3C#7 2#9 25#8 0#4).wf = true ∧
      s.pc ≠ 31#5 ∧ ∃ r u, stepOperation 0 (.wrc 0x3C#7 2#9 25#8 0#4) s = some (some r, u) := by
  intro x
  refine ⟨⟨rfl, rfl, undisturbed_base.2.2⟩, rfl, rfl,
    (by decide : decodeStep (fetching 25#5 .display).stepWordAt = .ok (.wrc 0x3C#7 2#9 25#8 0#4)), by decide,
    (by decide : 25#5 ≠ 31#5), ?_⟩
  cases x <;> exact ⟨_, _, rfl⟩

theorem witness_HostWriteWhenPresent :
    let s := writing (List.replicate 3 .ack)
    s.undisturbed ∧ s.level = .symbol ∧ s.seqState = .idle ∧ s.ports.go = false ∧ s.ports.reqValid = true ∧
      s.ports.reqRw = .write ∧ [0x00#8, 0xAF#8].length = s.ports.reqLen.toNat ∧
      (∀ j, j < 2 → Memory.read (hostWrite s).txbuf j = [0x00#8, 0xAF#8][j]?) ∧
      Along 6 (State.Present s.ports.reqAddr) s := by
  refine ⟨writing_undisturbed _, rfl, rfl, rfl, rfl, rfl, rfl, ?_,
    along_of_check (fun _ => present_of_check (a := 0x3C#7)) 6 _ (by decide)⟩
  intro j hj
  obtain rfl | rfl : j = 0 ∨ j = 1 := by omega
  · rfl
  · rfl

theorem witness_HostReadWhenEcho :
    let s := reading [.byte 0x01#8, .byte 0x23#8]
    s.undisturbed ∧ s.level = .symbol ∧ s.seqState = .idle ∧ s.ports.go = false ∧ s.ports.reqValid = true ∧
      s.ports.reqRw = .read ∧ [0x01#8, 0x23#8].length = s.ports.reqLen.toNat ∧
      Along 6 (fun t => t.Echo s.ports.reqAddr [0x01#8, 0x23#8] ∧ t.NoStall) s :=
  ⟨reading_undisturbed _, rfl, rfl, rfl, rfl, rfl, rfl,
    along_of_check (fun _ => echo_of_check (a := 0x22#7)) 6 _ (by decide)⟩

set_option maxRecDepth 100000 in
theorem witness_DisplayRun :
    let s := answered (List.replicate 213 .ack) [] (going .display base)
    s.undisturbed ∧ s.level = .symbol ∧ s.seqState = .idle ∧ s.ports.go = true ∧ s.ports.goSel = .display ∧
      s.scriptRom = scriptRomReset ∧ s.byteRom = byteRomOf rom ∧ s.params.displayBase = 0#5 ∧
      s.params.loopBase = 29#5 ∧ Along 324 (State.Present Config.displayAddr) s :=
  ⟨going_undisturbed _ _ _, rfl, rfl, rfl, rfl, rfl, rfl, rfl, rfl,
    along_of_check (fun _ => present_of_check) 324 _ (by decide)⟩

theorem witness_LoopbackRun :
    let s := answered (List.replicate 10 .ack) (Config.loopPayload.map .byte) (going .loopback base)
    s.undisturbed ∧ s.level = .symbol ∧ s.seqState = .idle ∧ s.ports.go = true ∧ s.ports.goSel = .loopback ∧
      s.scriptRom = scriptRomReset ∧ s.byteRom = byteRomOf rom ∧ s.params.displayBase = 0#5 ∧
      s.params.loopBase = 29#5 ∧
      Along 26 (fun t => t.Echo Config.loopAddr Config.loopPayload ∧ t.NoStall) s :=
  ⟨going_undisturbed _ _ _, rfl, rfl, rfl, rfl, rfl, rfl, rfl, rfl,
    along_of_check (fun _ => echo_of_check) 26 _ (by decide)⟩

theorem witness_DisplayRunOnEnvDisp :
    let s := { going .display base with env := { sim := .envDisp .fresh, asks := 0, inject := none } }
    s.undisturbed ∧ s.level = .symbol ∧ s.seqState = .idle ∧ s.ports.go = true ∧ s.ports.goSel = .display ∧
      s.scriptRom = scriptRomReset ∧ s.byteRom = byteRomOf rom ∧ s.params.displayBase = 0#5 ∧
      s.params.loopBase = 29#5 ∧ s.env.sim = .envDisp .fresh ∧ s.env.inject = none :=
  ⟨⟨rfl, rfl, by simp [going, Ports.quiet]⟩, rfl, rfl, rfl, rfl, rfl, rfl, rfl, rfl, rfl, rfl⟩

theorem witness_LoopbackOnEnvLoop :
    ∃ l, LoopSim.fresh.pWrite Config.loopPayload = some l ∧
      let s := { going .loopback base with env := { sim := .envLoop l, asks := 0, inject := none } }
      s.undisturbed ∧ s.level = .symbol ∧ s.seqState = .idle ∧ s.ports.go = true ∧ s.ports.goSel = .loopback ∧
      s.scriptRom = scriptRomReset ∧ s.byteRom = byteRomOf rom ∧ s.params.displayBase = 0#5 ∧
      s.params.loopBase = 29#5 ∧ s.env.sim = .envLoop l ∧ s.env.inject = none :=
  ⟨_, rfl, ⟨rfl, rfl, by simp [going, Ports.quiet]⟩, rfl, rfl, rfl, rfl, rfl, rfl, rfl, rfl, rfl, rfl⟩

theorem witness_EveryScriptRunEnds :
    ∀ sel, let s := going sel base
      s.undisturbed ∧ s.level = .symbol ∧ s.seqState = .idle ∧ s.ports.go = true ∧ s.scriptRom = scriptRomReset ∧
      s.byteRom = byteRomOf rom ∧ s.params.displayBase = 0#5 ∧ s.params.loopBase = 29#5 ∧ s.params.timeoutMs ≠ 0 :=
  fun sel => ⟨going_undisturbed sel [] [], rfl, rfl, rfl, rfl, rfl, rfl, rfl, (by decide : (50 : Nat) ≠ 0)⟩

/-! #### The line level -/

theorem witness_LineLevelTable :
    ∀ m, (sending .xfer m).mftState = m := fun _ => rfl

/-- At line level about to make the symbol `m` in the quarter `q`, the other devices leaving the lines at `scl`, `sda`. -/
def atQuarter (m : MftState) (q : Quarter) (scl sda : Bool) : State :=
  onLines { sending .xfer m with quarter := q, ports := { Ports.quiet with sclEnv := scl, sdaEnv := sda } }

theorem ticking_of {s : State} (h1 : s.calm) (h2 : s.level = .line) (h3 : s.params = base.params)
    (h4 : s.seqState = .xfer ∨ s.seqState = .direct) (h5 : s.mftState ≠ .idle) : s.ticking :=
  ⟨h1, h2, h3 ▸ by decide, h4, h5⟩

theorem inTime_of {s : State} (h1 : s.tmoCnt = 0#32) (h2 : s.params = base.params) : s.inTime :=
  .inr (.inr (by rw [h1, h2]; decide))

/-- The timeout; a held clock line; a tick within a quarter (`QBIT_TICKS` = 2); the end of a quarter; a 1 read back as 0
and as 1, a 0, a NACK and an ACK, a received bit, and a symbol in which nothing is read. -/
theorem witness_LineSampling :
    (∀ s : State, s = onLines { sending .direct .tx with tmoCnt := 19999#32 } →
      s.ticking ∧ s.slotOpen = true ∧ timeoutTicks s.params ≠ 0 ∧
        timeoutTicks s.params ≤ (s.tmoCnt + 1#32).toNat) ∧
    (∀ m, m ≠ .idle → m ≠ .start → ∀ s : State, s = atQuarter m .second false true →
      s.ticking ∧ s.inTime ∧ s.quarter = .second ∧ s.qTick = 0 ∧ s.mftState ≠ .start ∧ s.sclIn = false) ∧
    (∀ s : State, s = onLines { sending .xfer .rx with params := { base.params with clkHz := 800000 } } →
      s.ticking ∧ s.inTime ∧ s.clockUp ∧ s.qTick + 1 < qbitTicks s.params) ∧
    ∀ (m : MftState) (q : Quarter) (sda : Bool), m ≠ .idle → ∀ (sh : Byte) (s : State),
      s = { atQuarter m q true sda with shreg := sh } →
      s.ticking ∧ s.inTime ∧ s.clockUp ∧ s.quarter = q ∧ s.mftState = m ∧ qbitTicks s.params ≤ s.qTick + 1 ∧
        (q = .second → m = .tx → sh = 0x80#8 → sda = false → s.shreg.getLsbD 7 = true ∧ s.sdaIn = false) ∧
        (q = .second → m = .addr → sh = 0x80#8 → sda = true → s.sdaIn = true) ∧
        (q = .second → m = .tx → sh = 0x00#8 → s.shreg.getLsbD 7 = false) ∧
        (q = .second → m = .aack → s.sdaIn = sda) := by
  refine ⟨?_, ?_, ?_, ?_⟩
  · rintro s rfl
    exact ⟨ticking_of ⟨rfl, rfl⟩ rfl rfl (.inr rfl) (by decide), rfl, by decide, by decide⟩
  · rintro m h1 h2 s rfl
    exact ⟨ticking_of ⟨rfl, rfl⟩ rfl rfl (.inl rfl) h1, inTime_of rfl rfl, rfl, rfl, h2, Bool.and_false _⟩
  · rintro s rfl
    exact ⟨⟨⟨rfl, rfl⟩, rfl, (by decide), .inl rfl, (by decide)⟩, .inr (.inr (by decide)), (by rintro ⟨⟩), (by decide)⟩
  · rintro m q sda hm sh s rfl
    refine ⟨ticking_of ⟨rfl, rfl⟩ rfl rfl (.inl rfl) hm, inTime_of rfl rfl, fun hq _ => ?_, rfl, rfl,
      (by decide : qbitTicks base.params ≤ 1), ?_, ?_, ?_, ?_⟩
    · cases (show q = .second from hq)
      cases m <;> first | exact absurd rfl hm | exact .inl rfl | exact .inr rfl
    · rintro rfl rfl rfl rfl; exact ⟨rfl, rfl⟩
    · rintro rfl rfl rfl rfl; rfl
    · rintro rfl rfl rfl; exact (by decide : (0x00#8 : Byte).getLsbD 7 = false)
    · rintro rfl rfl; exact Bool.true_and _

/-- A bit that is not the last and the last one; and the last tick of every symbol, for both directions, with and without
a pending NACK, in the first and in the last data byte, with a byte missing, and at the end of either kind of run. -/
theorem witness_BitTakesFourQuarters :
    (∀ (n : BitVec 4) (s : State),
      s = onLines (untimed { sending .direct .tx with shreg := 0xAF#8, bitCnt := n }) →
      s.level = .line ∧ lineParamsOk s.params = true ∧ s.seqState = .direct ∧ s.mftState = .tx ∧ s.quarter = .first ∧
        s.qTick = 0 ∧ s.params.timeoutMs = 0 ∧ s.undisturbed ∧ s.schedule = [] ∧ s.ports.sclEnv = true ∧
        s.ports.sdaEnv = true) ∧
    (∀ (m : MftState) (rw : Dir) (k : ErrKind) (n : Count) (tb : Memory), m ≠ .idle → ∀ s : State,
      s = { atQuarter m .fourth true true with fRw := rw, mErrKind := k, byteIdx := n, txbuf := tb } →
      s.ticking ∧ s.inTime ∧ s.quarter = .fourth ∧ qbitTicks s.params ≤ s.qTick + 1 ∧ s.mftState = m ∧
        s.fRw = rw ∧ s.mErrKind = k ∧ s.seqState = .xfer ∧ s.pc ≠ 31#5 ∧
        (n = 0#9 → s.byteIdx.toNat + 1 ≠ s.fLen.toNat) ∧ (n = 1#9 → s.byteIdx.toNat + 1 = s.fLen.toNat) ∧
        (tb = [(0, 0x00#8), (1, 0xAF#8)] → n = 0#9 → Memory.read s.txbuf s.byteIdx.toNat = some 0x00#8 ∧
          Memory.read s.txbuf (s.byteIdx + 1#9).toNat = some 0xAF#8) ∧
        (tb = [] → Memory.read s.txbuf s.byteIdx.toNat = none)) ∧
    (∀ s : State, s = { atQuarter .stop .fourth true true with seqState := .direct } →
      s.ticking ∧ s.inTime ∧ s.seqState = .direct) ∧
    (∀ pc : StepIdx, ∀ s : State, s = { atQuarter .stop .fourth true true with pc := pc } →
      s.ticking ∧ (pc = 0#5 → stepDelay s.stepWordAt = 10#4) ∧ (pc = 25#5 → stepDelay s.stepWordAt = 0#4)) := by
  refine ⟨?_, ?_, ?_, ?_⟩
  · rintro n s rfl
    exact ⟨rfl, (by decide : lineParamsOk (untimed base).params = true), rfl, rfl, rfl, rfl, rfl,
      ⟨rfl, rfl, undisturbed_base.2.2⟩, rfl, rfl, rfl⟩
  · rintro m rw k n tb hm s rfl
    refine ⟨ticking_of ⟨rfl, rfl⟩ rfl rfl (.inl rfl) hm, inTime_of rfl rfl, rfl, (by decide : qbitTicks base.params ≤ 1), rfl,
      rfl, rfl, rfl, (by decide : base.pc ≠ 31#5), ?_, ?_, ?_, ?_⟩
    · rintro rfl; exact (by decide : (0#9 : Count).toNat + 1 ≠ (2#9 : Count).toNat)
    · rintro rfl; rfl
    · rintro rfl rfl; exact ⟨rfl, rfl⟩
    · rintro rfl; rfl
  · rintro s rfl
    exact ⟨ticking_of ⟨rfl, rfl⟩ rfl rfl (.inr rfl) (by rintro ⟨⟩), inTime_of rfl rfl, rfl⟩
  · rintro pc s rfl
    refine ⟨ticking_of ⟨rfl, rfl⟩ rfl rfl (.inl rfl) (by rintro ⟨⟩), ?_, ?_⟩
    · rintro rfl; rfl
    · rintro rfl; rfl

/-! #### Frames -/

theorem witness_FrameOfControlInstructions :
    ∃ t u v w x, exec .endScript base = .next t ∧ exec (.go .loopback) base = .next u ∧
      exec (.reqWrite 0x22#7 0#9) base = .next v ∧ exec (.reqRead 0x22#7 256#9) base = .next w ∧
      exec (.rdr 0x22#7 256#9 0#4) base = .next x := ⟨_, _, _, _, _, rfl, rfl, rfl, rfl, rfl⟩

theorem witness_FrameOfWriteSteps :
    ∃ t u v, exec (.wrc 0x3C#7 1#9 36#8 0#4) base = .next t ∧ exec (.wrd 0x3C#7 4#9 0#4) base = .next u ∧
      exec (.wrr 0x22#7 8#9 29#8 0#4) base = .next v := ⟨_, _, _, rfl, rfl, rfl⟩

theorem witness_FrameOfByteSlots :
    ∀ x, let s := answered [x] [] (sending .direct .tx)
      ∃ t u v w, exec (.write 0x3C#7) s = .next t ∧ exec (.read 0x3C#7) s = .next u ∧
        exec .ctrlCmd s = .next v ∧ exec .ctrlData s = .next w := fun _ => ⟨_, _, _, _, rfl, rfl, rfl, rfl⟩

end Sys2Proof.Tests
end

section
/-! PROOFS. The statements of 00_scope.md: the bus trace (R9, R31), the status registers (R12, R24) and the end of every
script run (R12, R173, R175). -/

namespace Sys2Proof.Machine

open Sys2Proof

/-! ### The bus trace -/

/-- A reset edge keeps the trace and adds at most the `X` of the frame it cuts off (R270; log entry 25). -/
theorem resetEdge_trace (s : State) :
    ∃ es : List Event, (resetEdge s).trace = s.trace ++ es ∧ es.length ≤ 2 := by
  by_cases ho : s.frameOpen = true
  · exact ⟨[.X], by simp [resetEdge, ho], by simp⟩
  · exact ⟨[], by simp [resetEdge, ho], by simp⟩

/-- Settles O37: a reset adds at most `X`, and a move of the block what `Moved` lists. -/
theorem traceOnlyGrows : Obligations.TraceOnlyGrows := by
  intro s t h
  rcases step_next h with ⟨hr, rfl⟩ | ⟨-, -, u, hu, rfl⟩
  · obtain ⟨es, he, hlen⟩ := resetEdge_trace s
    exact ⟨es, by rw [advancePorts_trace, he], hlen, fun _ => .inl hr⟩
  · obtain ⟨es, he, hlen, hrun⟩ := (block_moved hu).trace
    simp only [hostWrite_trace, hostWrite_seqState] at he hrun
    exact ⟨es, by rw [advancePorts_trace, he], hlen, fun hne => .inr (hrun hne)⟩

/-! ### The status registers -/

/-- What a step may do to the status registers: a reset clears them, and otherwise the move of the block after the host's
write does what `StatusMove` lists. -/
theorem step_status {s t : State} (h : step s = .next t) :
    (s.ports.rst = true ∧ t = advancePorts (resetEdge s)) ∨
    (s.ports.rst = false ∧ ∃ u, StatusMove (hostWrite s) u ∧ t = advancePorts u) := by
  rcases step_next h with ⟨hr, ht⟩ | ⟨hr, -, u, hu, ht⟩
  · exact .inl ⟨hr, ht⟩
  · exact .inr ⟨hr, u, block_status (blockStep_move hu), ht⟩

@[simp] theorem hostWrite_busy (s : State) : (hostWrite s).busy = s.busy := by simp [State.busy]

@[simp] theorem advancePorts_busy (s : State) : (advancePorts s).busy = s.busy := by simp [State.busy]

theorem busy_eq_false {s : State} : s.busy = false ↔ s.seqState = .idle := by simp [State.busy]

/-- Settles O41: the end of a run sets one of the two bits, both 0 while `busy` = 1 by the invariant, and a command's
acceptance or reset clears both. -/
theorem statusChangesWithRuns : Obligations.StatusChangesWithRuns := by
  intro s t hi h
  have hclear := hi.status.busyClear
  rcases step_status h with ⟨hr, rfl⟩ | ⟨hr, u, hu, rfl⟩
  · simp [State.busy, State.reset, hr]
  · simp only [advancePorts_done, advancePorts_failed, advancePorts_busy]
    cases hu with
    | same hd hf _ _ _ hq =>
      have hbusy : u.busy = s.busy := by simp [State.busy, ← hq]
      simp only [hostWrite_done, hostWrite_failed] at hd hf
      simp +contextual [hd, hf, hbusy]
    | accept hq hcmd hd hf hq' =>
      have hs : s.busy = false := busy_eq_false.2 (by simpa using hq)
      simp only [hostWrite_ports] at hcmd
      simp [hs, hcmd, hd, hf]
    | capacity hq _ hreq _ ht =>
      have hs : s.busy = false := busy_eq_false.2 (by simpa using hq)
      have hs' : u.busy = false := busy_eq_false.2 (by rw [ht]; rfl)
      have hd : u.done = false := by rw [ht]; rfl
      have hf : u.failed = true := by rw [ht]; rfl
      simp only [hostWrite_ports] at hreq
      simp [hs, hreq, hs', hd, hf]
    | success hq hd hf _ hq' =>
      have hs : s.busy = true := by rcases hq with hq | hq <;> simp_all [State.busy]
      obtain ⟨-, hsf⟩ := hclear hs
      simp only [hostWrite_failed] at hf
      simp [hs, hd, hf, hsf, busy_eq_false.2 hq']
    | stopErr tm q k hq _ _ _ ht =>
      have hs : s.busy = true := busy_of_running (by simpa using hq)
      have hs' : u.busy = false := busy_eq_false.2 (by rw [ht]; rfl)
      obtain ⟨hsd, hsf⟩ := hclear hs
      have hd : u.done = false := by simp [ht, withLine, hsd]
      have hf : u.failed = true := by rw [ht]; rfl
      simp [hs, hs', hsd, hsf, hd, hf]
    | abandoned e tm q k env hq _ _ ht =>
      have hs : s.busy = true := busy_of_running (by simpa using hq)
      have hs' : u.busy = false := busy_eq_false.2 (by rw [ht]; rfl)
      obtain ⟨hsd, hsf⟩ := hclear hs
      have hd : u.done = false := by simp [ht, withLine, abandon, hsd]
      have hf : u.failed = true := by rw [ht]; rfl
      simp [hs, hs', hsd, hsf, hd, hf]

/-! ### With a timeout every frame operation has a result (R124, R131, R138) -/

/-- With a timeout a stalled slot ends the frame. -/
theorem stalled_answers {s : State} (h : s.params.timeoutMs ≠ 0) (pos : Count) :
    ∃ r u, stalled pos s = (some r, u) := ⟨_, _, by simp only [stalled, if_neg h]; rfl⟩

/-- The slots of driven bytes end with a result if what follows the last of them does. -/
theorem slotsWrite_answers (patience : Nat) {rest : State → Option FrameResult × State}
    (hrest : ∀ s : State, s.params.timeoutMs ≠ 0 → ∃ r u, rest s = (some r, u)) (bs : List Byte) :
    ∀ (pos : Count) (s : State), s.params.timeoutMs ≠ 0 → ∃ r u, slotsWrite patience rest bs pos s = (some r, u) := by
  induction bs with
  | nil => exact fun _ s h => hrest s h
  | cons b bs ih =>
    intro pos s h
    obtain ⟨-, f, -, -, hask⟩ := patient_write patience b s
    simp only [slotsWrite, hask]
    cases (f.askWrite s.trace b).1 with
    | ack => exact ih _ _ h
    | nack => exact ⟨_, _, rfl⟩
    | arbLost => exact ⟨_, _, rfl⟩
    | stall => exact stalled_answers (s := { s with env := (f.askWrite s.trace b).2 }) h pos

/-- The slots of received bytes end with a result. -/
theorem slotsRead_answers (patience n : Nat) :
    ∀ (j : Nat) (s : State), s.params.timeoutMs ≠ 0 → ∃ r u, slotsRead patience n j s = (some r, u) := by
  induction n with
  | zero => exact fun _ _ _ => ⟨_, _, rfl⟩
  | succ n ih =>
    intro j s h
    obtain ⟨-, f, -, -, hask⟩ := patient_read patience s
    simp only [slotsRead, hask]
    cases (f.askRead s.trace).1 with
    | byte b => exact ih _ _ h
    | stall => exact stalled_answers (s := { s with env := (f.askRead s.trace).2 }) h _

theorem busWrite_answers (patience : Nat) (a : BusAddr) (bs : List Byte) {s : State} (h : s.params.timeoutMs ≠ 0) :
    ∃ r u, busWrite patience a bs s = (some r, u) := by
  unfold busWrite
  split
  · exact ⟨_, _, rfl⟩
  · exact slotsWrite_answers patience (fun _ _ => ⟨_, _, rfl⟩) _ _ _ h

theorem busRead_answers (patience : Nat) (a : BusAddr) (n : Nat) {s : State} (h : s.params.timeoutMs ≠ 0) :
    ∃ r u, busRead patience a n s = (some r, u) := by
  unfold busRead
  split
  · exact ⟨_, _, rfl⟩
  · exact slotsWrite_answers patience (slotsRead_answers patience n 0) _ _ _ h

/-! ### Paths to a state of a kind -/

/-- A path goes on, whatever the ports show where it has led. -/
theorem Reaches.followed {m : Nat} {s u : State} {P : State → Prop} (h : Reaches m s u)
    (k : ∀ t, Alike t u → t.undisturbed → ∃ n v, Reaches n t v ∧ P v) : ∃ n v, Reaches (m + n) s v ∧ P v := by
  obtain ⟨t, hrun, ha, hu, hb⟩ := h
  obtain ⟨n, v, hr, hp⟩ := k t ha hu
  exact ⟨n, v, .from_run hrun hb hr, hp⟩

/-- An undisturbed symbol-level step in `Q_FETCH` performs the step word at `pc` (R164). -/
theorem step_of_fetch {s : State} (h : s.calm) (hl : s.level = .symbol) (hq : s.seqState = .fetch) :
    step s = mapNext advancePorts (fetchStep s) := by
  rw [step_of_calm_busy h (by simp [State.busy, hq])]
  simp only [blockStep, symbolStep, hl, hq]

/-- An undisturbed symbol-level step in `Q_DELAY` is the whole post-delay (R171). -/
theorem step_of_delay {s : State} (h : s.calm) (hl : s.level = .symbol) (hq : s.seqState = .delay) :
    step s = .next (advancePorts (leaveDelay s)) := by
  rw [step_of_calm_busy h (by simp [State.busy, hq])]
  simp only [blockStep, symbolStep, hl, hq, mapNext]

/-! ### From a step's fetch to the end of its frame -/

/-- MFT has accepted a frame operation, and the data bytes of a write stand in `txbuf` (R121, R165). -/
structure FrameReady (s : State) : Prop where
  mft : s.mftState = .start
  pending : s.mErrKind = .none
  first : s.byteIdx = 0#9
  low : 1 ≤ s.fLen.toNat
  high : s.fLen.toNat ≤ 256
  loaded : s.fRw = .write →
    ∃ bs : List Byte, bs.length = s.fLen.toNat ∧ ∀ j, j < bs.length → Memory.read s.txbuf j = bs[j]?

/-- With a timeout the slots of a frame that MFT has accepted come to their end. -/
theorem FrameReady.slots_end {s : State} (h : FrameReady s) (hu : s.undisturbed) (hl : s.level = .symbol)
    (hq : s.seqState = .xfer ∨ s.seqState = .direct) (ht : s.params.timeoutMs ≠ 0) :
    ∃ n w, Reaches n s w ∧ ∃ r u, SlotsEnd r u s w := by
  cases hrw : s.fRw with
  | write =>
    obtain ⟨bs, hlen, hmem⟩ := h.loaded hrw
    obtain ⟨r, u, hr⟩ := busWrite_answers 0 s.fAddr bs ht
    obtain ⟨n, w, hw, he⟩ := frame_write 0 hu hl hq h.mft h.pending hrw h.first hlen (hlen ▸ h.low) (hlen ▸ h.high)
      hmem rfl rfl rfl rfl hr
    exact ⟨n + 2, w, hw, r, u, he⟩
  | read =>
    obtain ⟨r, u, hr⟩ := busRead_answers 0 s.fAddr s.fLen.toNat ht
    obtain ⟨n, w, hw, he⟩ := frame_read 0 hu hl hq h.mft h.pending hrw h.first h.low h.high rfl rfl rfl rfl hr
    exact ⟨n + 2, w, hw, r, u, he⟩

/-- A run of the script `sel` of the table `rom`, at symbol level, in which no error has arisen. -/
structure InRun (rom : Vector StepWord 32) (p : Params) (sel : Script) (s : State) : Prop where
  level : s.level = .symbol
  script : s.sel = sel
  table : s.scriptRom = rom
  params : s.params = p
  done : s.done = false
  failed : s.failed = false
  errKind : s.errKind = .none
  errPos : s.errPos = 0#9
  failStep : s.failStep = 0#5

/-- What `InRun` reads of a state. -/
def State.runView (s : State) :=
  (s.level, s.sel, s.scriptRom, s.params, s.done, s.failed, s.errKind, s.errPos, s.failStep)

/-- The step at `pc` is about to be fetched. -/
structure AtFetch (rom : Vector StepWord 32) (p : Params) (sel : Script) (pc : StepIdx) (s : State) : Prop
    extends InRun rom p sel s where
  fetch : s.seqState = .fetch
  pc : s.pc = pc

/-- MFT has accepted the frame of the step at `pc` and is about to begin it. -/
structure FrameStarted (rom : Vector StepWord 32) (p : Params) (sel : Script) (pc : StepIdx) (s : State) : Prop
    extends InRun rom p sel s, FrameReady s where
  undisturbed : s.undisturbed
  xfer : s.seqState = .xfer
  pc : s.pc = pc

/-- The run has ended with an error, in the step at `pc` (R235, R237). -/
structure FailedRun (p : Params) (sel : Script) (s : State) : Prop where
  idle : s.seqState = .idle
  script : s.sel = sel
  done : s.done = false
  failed : s.failed = true
  errKind : s.errKind ≠ .none
  failStep : s.failStep = s.pc - scriptBase p sel

/-- The run has ended with success, at the END step at `pc` (R166). -/
structure FinishedRun (sel : Script) (pc : StepIdx) (s : State) : Prop where
  idle : s.seqState = .idle
  script : s.sel = sel
  done : s.done = true
  failed : s.failed = false
  errKind : s.errKind = .none
  errPos : s.errPos = 0#9
  failStep : s.failStep = 0#5
  pc : s.pc = pc

section
variable {rom : Vector StepWord 32} {p : Params} {sel : Script} {pc : StepIdx} {s t u w : State}

theorem InRun.congr (h : InRun rom p sel s) (hv : t.runView = s.runView) : InRun rom p sel t := by
  simp only [State.runView, Prod.mk.injEq] at hv
  obtain ⟨hl, hs, hr, hp, hd, hf, hk, he, hi⟩ := hv
  exact ⟨hl.trans h.level, hs.trans h.script, hr.trans h.table, hp.trans h.params, hd.trans h.done,
    hf.trans h.failed, hk.trans h.errKind, he.trans h.errPos, hi.trans h.failStep⟩

theorem InRun.alike (h : InRun rom p sel s) (ha : Alike t s) : InRun rom p sel t :=
  h.congr (by rw [ha]; rfl)

theorem AtFetch.alike (h : AtFetch rom p sel pc s) (ha : Alike t s) : AtFetch rom p sel pc t :=
  ⟨h.toInRun.alike ha, by rw [ha]; exact h.fetch, by rw [ha]; exact h.pc⟩

theorem FailedRun.alike (h : FailedRun p sel s) (ha : Alike t s) : FailedRun p sel t := by
  rw [ha]
  exact ⟨h.idle, h.script, h.done, h.failed, h.errKind, h.failStep⟩

theorem FinishedRun.alike (h : FinishedRun sel pc s) (ha : Alike t s) : FinishedRun sel pc t := by
  rw [ha]
  exact ⟨h.idle, h.script, h.done, h.failed, h.errKind, h.errPos, h.failStep, h.pc⟩

theorem FrameReady.alike (h : FrameReady s) (ha : Alike t s) : FrameReady t := by
  rw [ha]
  exact ⟨h.mft, h.pending, h.first, h.low, h.high, h.loaded⟩

theorem FrameStarted.alike (h : FrameStarted rom p sel pc s) (ha : Alike t s) (hu : t.undisturbed) :
    FrameStarted rom p sel pc t :=
  ⟨h.toInRun.alike ha, h.toFrameReady.alike ha, hu, by rw [ha]; exact h.xfer, by rw [ha]; exact h.pc⟩

theorem AtFetch.stepWordAt (h : AtFetch rom p sel pc s) : s.stepWordAt = rom[pc.toNat] := by
  simp only [State.stepWordAt, h.table, h.pc]

theorem AtFetch.sendFrame (h : AtFetch rom p sel pc s) (hu : s.undisturbed) (a : BusAddr) {n : Count} {d : List Byte}
    (h1 : 1 ≤ n.toNat) (h2 : n.toNat ≤ 256) (hd : d.length = n.toNat) :
    FrameStarted rom p sel pc (sendFrame a n d s) := by
  rw [Machine.sendFrame, startMft_ok _ _ _ h1 h2]
  refine ⟨h.toInRun.congr rfl, ⟨rfl, rfl, rfl, h1, h2, fun _ => ⟨d, hd, fun j hj => ?_⟩⟩, hu, rfl, h.pc⟩
  simp [read_writeFrom, hj]

theorem AtFetch.receiveFrame (h : AtFetch rom p sel pc s) (hu : s.undisturbed) (a : BusAddr) {n : Count}
    (h1 : 1 ≤ n.toNat) (h2 : n.toNat ≤ 256) :
    FrameStarted rom p sel pc (startMft a .read n { s with seqState := .xfer }) := by
  rw [startMft_ok _ _ _ h1 h2]
  exact ⟨h.toInRun.congr rfl, ⟨rfl, rfl, rfl, h1, h2, nofun⟩, hu, rfl, h.pc⟩

/-- A step inside the bounds of R98 that is no END starts its frame (R165, R167 to R170). -/
theorem AtFetch.starts_frame (h : AtFetch rom p sel pc s) (hu : s.undisturbed) (hok : wordOk rom[pc.toNat] = true)
    (hend : isEnd rom[pc.toNat] = false) : ∃ t, fetchStep s = .next t ∧ FrameStarted rom p sel pc t := by
  rw [← h.stepWordAt] at hok hend
  have hkind : (stepKind s.stepWordAt).toNat ≠ 0 := by simpa [isEnd] using hend
  rcases decodeStep_cases s.stepWordAt with ⟨h0, -⟩ | ⟨-, he⟩ | ⟨-, he⟩ | ⟨-, he⟩ | ⟨-, he⟩ | ⟨-, he⟩
  · exact absurd h0 hkind
  all_goals simp only [wordOk, he, Instr.wf, Bool.false_eq_true] at hok
  all_goals simp only [fetchStep, he, exec]
  · rw [execWrc, if_pos hok]
    rw [Bool.and_eq_true, commandLenOk_iff, payloadOk_iff] at hok
    have hl := len_succ_toNat hok.1.2
    exact ⟨_, rfl, h.sendFrame hu _ (by omega) (by omega) (by rw [commandFrame_length _ _ _ hok.2, hl])⟩
  · rw [execWrd, if_pos hok]
    rw [commandLenOk_iff] at hok
    have hl := len_succ_toNat hok.2
    exact ⟨_, rfl, h.sendFrame hu _ (by omega) (by omega) (by rw [patternFrame_length, hl])⟩
  · rw [execWrr, if_pos hok]
    rw [Bool.and_eq_true, rawLenOk_iff, payloadOk_iff] at hok
    exact ⟨_, rfl, h.sendFrame hu _ hok.1.1 hok.1.2 (rawFrame_length _ _ _ hok.2)⟩
  · rw [execRdr, if_pos hok]
    rw [rawLenOk_iff] at hok
    exact ⟨_, rfl, h.receiveFrame hu _ hok.1 hok.2⟩

/-! ### From the end of a frame to the next fetch -/

/-- The frame of the step at `pc` has only its stop condition left. -/
structure AtStop (rom : Vector StepWord 32) (p : Params) (sel : Script) (pc : StepIdx) (s : State) : Prop
    extends InRun rom p sel s where
  xfer : s.seqState = .xfer
  stop : s.mftState = .stop
  pc : s.pc = pc

theorem AtStop.alike (h : AtStop rom p sel pc s) (ha : Alike t s) : AtStop rom p sel pc t :=
  ⟨h.toInRun.alike ha, by rw [ha]; exact h.xfer, by rw [ha]; exact h.stop, by rw [ha]; exact h.pc⟩

/-- The slots of a frame leave the stop condition, or have ended the run. -/
theorem FrameStarted.slots_leave {r : FrameResult} (h : FrameStarted rom p sel pc s) (he : SlotsEnd r u s w) :
    AtStop rom p sel pc w ∨ FailedRun p sel w := by
  have hin := h.toInRun
  unfold SlotsEnd at he
  cases r with
  | ok =>
    obtain ⟨-, tr, bi, -, rfl⟩ := he
    exact .inl ⟨hin.congr rfl, h.xfer, rfl, h.pc⟩
  | err k pos =>
    rcases he with ⟨-, tr, bi, -, rfl⟩ | ⟨hk, bi, rfl⟩
    · exact .inl ⟨hin.congr rfl, h.xfer, rfl, h.pc⟩
    · refine .inr ⟨rfl, hin.script, hin.done, rfl, hk, ?_⟩
      simp [failStepOf, h.xfer, State.localStep, hin.params, hin.script]

/-- A step that is not at index 31 goes on to the next one, at once or through its delay (R172). -/
theorem stepDone_cases {s : State} (h : s.pc ≠ 31#5) :
    (stepDone s = .next { s with pc := s.pc + 1#5, seqState := .fetch }) ∨
    (stepDone s =
      .next
        { s with
          pc := s.pc + 1#5, trace := s.trace ++ [.DLY s.stepDelayMs]
          dlyCnt := BitVec.ofNat 32 (s.stepDelayMs * ticksPerMs s.params), seqState := .delay }) := by
  rw [stepDone, if_neg h]
  split
  · exact .inl rfl
  · exact .inr rfl

/-- What the stop condition leads to in a step that is not at index 31: the next fetch, the delay before it, or the end
of the run with the pending error (R130, R140, R172). -/
theorem AtStop.stopFrame_cases (h : AtStop rom p sel pc s) (hpc : pc ≠ 31#5) :
    ∃ u, stopFrame s = .next u ∧ u.ports = s.ports ∧ u.schedule = s.schedule ∧
      (AtFetch rom p sel (pc + 1#5) u ∨
        (InRun rom p sel u ∧ u.seqState = .delay ∧ u.pc = pc + 1#5) ∨ FailedRun p sel u) := by
  have hin := h.toInRun
  rw [stopFrame]
  cases hr : pendingResult s with
  | ok =>
    simp only [handOver, emit_seqState, h.xfer]
    rcases stepDone_cases (s := { emit [.P] s with mftState := .idle }) (h.pc ▸ hpc) with hd | hd
    · exact ⟨_, hd, rfl, rfl, .inl ⟨hin.congr rfl, rfl, congrArg (· + 1#5) h.pc⟩⟩
    · exact ⟨_, hd, rfl, rfl, .inr (.inl ⟨hin.congr rfl, rfl, congrArg (· + 1#5) h.pc⟩)⟩
  | err k pos =>
    obtain ⟨hk, -, -⟩ := pendingResult_err.1 hr
    refine ⟨_, rfl, rfl, rfl, .inr (.inr ⟨rfl, hin.script, hin.done, rfl, hk, ?_⟩)⟩
    simp [failStepOf, h.xfer, State.localStep, hin.params, hin.script]

/-- From the stop condition of a step that is not at index 31 the run comes to the next fetch or has ended with an
error. -/
theorem AtStop.next_fetch (h : AtStop rom p sel pc s) (hu : s.undisturbed) (hpc : pc ≠ 31#5) :
    ∃ n w, Reaches n s w ∧ (AtFetch rom p sel (pc + 1#5) w ∨ FailedRun p sel w) := by
  obtain ⟨u, hstop, hports, hsched, hcases⟩ := h.stopFrame_cases hpc
  have hu' : u.undisturbed := by rwa [State.undisturbed, hports, hsched]
  have hreach : Reaches 1 s u := by
    refine .one (busy_of_running (.inl h.xfer)) hu' ?_
    rw [step_of_mft (undisturbed_calm hu) h.level (.inl h.xfer), mftStep, h.stop]
    simp only [hstop, mapNext]
  rcases hcases with hf | ⟨hin, hq, hpc'⟩ | hf
  · exact ⟨1, u, hreach, .inl hf⟩
  · obtain ⟨n, w, hw, hp⟩ := hreach.followed (P := AtFetch rom p sel (pc + 1#5)) fun t ha ht => by
      have hin' := hin.alike ha
      have hq' : t.seqState = .delay := by rw [ha]; exact hq
      refine ⟨1, leaveDelay t, .one (by simp [State.busy, hq']) ht
        (step_of_delay (undisturbed_calm ht) hin'.level hq'), ?_⟩
      exact ⟨hin'.congr rfl, rfl, by rw [ha]; exact hpc'⟩
    exact ⟨_, w, hw, .inl hp⟩
  · exact ⟨1, u, hreach, .inr hf⟩

/-- With a timeout the frame of a step that is not at index 31 comes to its end. -/
theorem FrameStarted.next_fetch (h : FrameStarted rom p sel pc s) (ht : p.timeoutMs ≠ 0) (hpc : pc ≠ 31#5) :
    ∃ n w, Reaches n s w ∧ (AtFetch rom p sel (pc + 1#5) w ∨ FailedRun p sel w) := by
  obtain ⟨n, w, hw, r, u, he⟩ := h.slots_end h.undisturbed h.level (.inl h.xfer) (h.params ▸ ht)
  rcases h.slots_leave he with hs | hf
  · obtain ⟨m, v, hv, hp⟩ := hw.followed fun t ha htu => (hs.alike ha).next_fetch htu hpc
    exact ⟨_, v, hv, hp⟩
  · exact ⟨n, w, hw, .inr hf⟩

/-- From the fetch of a step that is no END the run comes to the next fetch or has ended with an error. -/
theorem AtFetch.next_fetch (h : AtFetch rom p sel pc s) (hu : s.undisturbed) (ht : p.timeoutMs ≠ 0)
    (hok : wordOk rom[pc.toNat] = true) (hend : isEnd rom[pc.toNat] = false) (hpc : pc ≠ 31#5) :
    ∃ n w, Reaches n s w ∧ (AtFetch rom p sel (pc + 1#5) w ∨ FailedRun p sel w) := by
  obtain ⟨f, hf, hframe⟩ := h.starts_frame hu hok hend
  have hstart : step s = .next (advancePorts f) := by
    rw [step_of_fetch (undisturbed_calm hu) h.level h.fetch, hf]; rfl
  have hfirst : Reaches 1 s f := .one (by simp [State.busy, h.fetch]) hframe.undisturbed hstart
  obtain ⟨n, w, hw, hp⟩ := hfirst.followed
    (P := fun w => AtFetch rom p sel (pc + 1#5) w ∨ FailedRun p sel w) fun t ha htu =>
      (hframe.alike ha htu).next_fetch ht hpc
  exact ⟨_, w, hw, hp⟩

/-! ### The whole script -/

/-- The END step ends the run with success (R166). -/
theorem AtFetch.end_run (h : AtFetch rom p sel pc s) (hu : s.undisturbed) (hend : isEnd rom[pc.toNat] = true) :
    Reaches 1 s (runDone s) ∧ FinishedRun sel pc (runDone s) := by
  have hkind : (stepKind s.stepWordAt).toNat = 0 := by simpa [isEnd, h.stepWordAt] using hend
  have hdec : decodeStep s.stepWordAt = .ok .endScript := by simp only [decodeStep, hkind]
  refine ⟨.one (by simp [State.busy, h.fetch]) hu ?_,
    ⟨rfl, h.script, rfl, h.failed, h.errKind, h.errPos, h.failStep, h.pc⟩⟩
  rw [step_of_fetch (undisturbed_calm hu) h.level h.fetch, fetchStep, hdec]
  rfl

/-- With a timeout a run that is about to fetch a step ends: with success at the END step of its script, or with an error,
if every step before that END is inside the bounds of R98. By induction on the number of steps before END. -/
theorem AtFetch.run_ends (ht : p.timeoutMs ≠ 0) {e : StepIdx} (hend : isEnd rom[e.toNat] = true) (d : Nat) :
    ∀ {pc : StepIdx} {s : State}, AtFetch rom p sel pc s → s.undisturbed → pc.toNat + d = e.toNat →
      (∀ k : StepIdx, pc.toNat ≤ k.toNat → k.toNat < e.toNat →
        wordOk rom[k.toNat] = true ∧ isEnd rom[k.toNat] = false) →
      ∃ n w, Reaches n s w ∧ (FinishedRun sel e w ∨ FailedRun p sel w) := by
  induction d with
  | zero =>
    intro pc s h hu hd _
    obtain rfl : pc = e := BitVec.eq_of_toNat_eq hd
    obtain ⟨hr, hf⟩ := h.end_run hu hend
    exact ⟨1, _, hr, .inl hf⟩
  | succ d ih =>
    intro pc s h hu hd hsteps
    obtain ⟨hok, hne⟩ := hsteps pc le_rfl (by omega)
    have hlt : pc.toNat < 31 := by have := e.isLt; omega
    have hpc : pc ≠ 31#5 := fun h31 => absurd hlt (by rw [h31]; decide)
    have hsucc : (pc + 1#5).toNat = pc.toNat + 1 :=
      BitVec.toNat_add_of_lt (show pc.toNat + 1 < 32 by omega)
    obtain ⟨n, w, hw, hf | hf⟩ := h.next_fetch hu ht hok hne hpc
    · obtain ⟨m, v, hv, hover⟩ := hw.followed fun t ha htu =>
        ih (hf.alike ha) htu (by omega) fun k hk hke => hsteps k (by omega) hke
      exact ⟨_, v, hv, hover⟩
    · exact ⟨n, w, hw, .inr hf⟩

/-- GO, accepted by an idle block with a well-formed table, leads to the fetch of the first step of its script (R161). -/
theorem step_of_go (hu : s.undisturbed) (hl : s.level = .symbol) (hq : s.seqState = .idle) (hgo : s.ports.go = true)
    (hok : s.tableOk = true) : step s = .next (advancePorts (acceptGo s.ports.goSel (hostWrite s))) := by
  have hidle : idleStep (hostWrite s) = exec (.go s.ports.goSel) (hostWrite s) := by
    rcases idleStep_cases (hostWrite s) with ⟨h, -⟩ | ⟨-, h⟩ | ⟨h, -⟩ | ⟨h, -⟩ <;> simp_all
  have hok' : (hostWrite s).tableOk = true := by simpa [State.tableOk] using hok
  have hb : (hostWrite s).busy = false := by simp [State.busy, hq]
  rw [step_of_calm (undisturbed_calm hu)]
  simp only [blockStep, symbolStep, hostWrite_level, hl, hostWrite_seqState, hq, hidle, exec, execGo, hb, hok',
    Bool.false_eq_true, if_false, if_true, mapNext]

/-- The END step of each script of the reset table (R40). -/
def endStep : Script → StepIdx
  | .display => 28#5
  | .loopback => 31#5

/-- END stands at the end of each script of the reset table, and every step before it is inside the bounds of R98 and no
END (R40). -/
theorem scriptRomReset_script (sel : Script) : isEnd scriptRomReset[(endStep sel).toNat] = true ∧
    ∀ k : StepIdx, (scriptBase paramsReset sel).toNat ≤ k.toNat → k.toNat < (endStep sel).toNat →
      wordOk scriptRomReset[k.toNat] = true ∧ isEnd scriptRomReset[k.toNat] = false := by
  cases sel <;> decide

/-- The tables of R40 with the script bases of R34 are well-formed (R104). -/
theorem tableOk_of_reset (hrom : s.scriptRom = scriptRomReset) (hd : s.params.displayBase = 0#5)
    (hl : s.params.loopBase = 29#5) : s.tableOk = true := by
  simp only [State.tableOk, hrom, hd, hl]
  decide

/-- With a timeout a run of either script of the reset table ends, from its first fetch on. -/
theorem AtFetch.reset_run_ends (h : AtFetch scriptRomReset p sel (scriptBase p sel) s) (hu : s.undisturbed)
    (ht : p.timeoutMs ≠ 0) (hd : p.displayBase = 0#5) (hl : p.loopBase = 29#5) :
    ∃ n w, Reaches n s w ∧ (FinishedRun sel (endStep sel) w ∨ FailedRun p sel w) := by
  obtain ⟨hend, hsteps⟩ := scriptRomReset_script sel
  have hbase : scriptBase p sel = scriptBase paramsReset sel := by cases sel <;> assumption
  rw [hbase] at h
  exact h.run_ends ht hend ((endStep sel).toNat - (scriptBase paramsReset sel).toNat) hu (by cases sel <;> rfl) hsteps

end

/-- Settles O54: GO leads to the fetch of the script's first step, and from there every step comes to the next fetch or
ends the run with an error, until END. -/
theorem everyScriptRunEnds : Obligations.EveryScriptRunEnds := by
  intro s initRom hu hl hq hgo hrom _ hdisp hloop htime
  have hstep := step_of_go hu hl hq hgo (tableOk_of_reset hrom hdisp hloop)
  have hfetch : AtFetch scriptRomReset s.params s.ports.goSel (scriptBase s.params s.ports.goSel)
      (acceptGo s.ports.goSel (hostWrite s)) :=
    ⟨⟨by simpa [acceptGo] using hl, rfl, by simpa [acceptGo] using hrom, by simp [acceptGo], rfl, rfl, rfl, rfl, rfl⟩,
      rfl, by simp [acceptGo]⟩
  have hu' : (acceptGo s.ports.goSel (hostWrite s)).undisturbed := by
    simpa [State.undisturbed, acceptGo] using hu
  obtain ⟨n, w, ⟨t, hrun, ha, -, hbusy⟩, hover⟩ :=
    (hfetch.alike (advancePorts_alike _)).reset_run_ends (undisturbed_advance hu') htime hdisp hloop
  have hbetween : ∀ k v, 1 ≤ k → k ≤ n → run k s = .next v → v.busy = true := by
    intro k v hk hkn hv
    obtain ⟨j, rfl⟩ : ∃ j, k = j + 1 := ⟨k - 1, by omega⟩
    exact hbusy j v (by omega) (by rwa [run_succ j s _ hstep] at hv)
  refine ⟨n, t, by rw [run_succ n s _ hstep, hrun], ?_⟩
  rcases hover with hw | hw
  · have ht := hw.alike ha
    refine ⟨busy_eq_false.2 ht.idle, hbetween, ht.script,
      .inl ⟨ht.done, ht.failed, ht.errKind, ht.errPos, ht.failStep, ?_⟩⟩
    rw [ht.pc]
    cases s.ports.goSel <;> rfl
  · have ht := hw.alike ha
    exact ⟨busy_eq_false.2 ht.idle, hbetween, ht.script, .inr ⟨ht.done, ht.failed, ht.errKind, ht.failStep⟩⟩

end Sys2Proof.Machine
end

section
/-! PROOFS. The statements of 10_state.md: the invariant (R24, R25, R33), the tables and parameters (R31, R40, R41), the
step counter (R34), the buffers (R26 to R28), reset (R35), the host's ports (R20, R26, R70, R162) and the levels of the
two lines (R21, R150). -/

namespace Sys2Proof.Machine

open Sys2Proof

/-! ### The invariant (R24, R25, R33, R35) -/

/-- Settles O35: a reset edge keeps the invariant, its trace closed by the `X` of a frame it cuts off, and otherwise the
host's write, the move of the block and the host's next levels each keep it. -/
theorem invariantKept : Obligations.InvariantKept := by
  intro s t hinv h
  rcases step_next h with ⟨-, rfl⟩ | ⟨-, -, u, hu, rfl⟩
  · exact inv_advance (inv_resetEdge hinv)
  · exact inv_advance (inv_block (inv_hostWrite hinv) (blockStep_move hu))

/-- Settles O36: nothing runs, the buffers are empty, no error is latched and the trace is empty. -/
theorem invariantAtReset : Obligations.InvariantAtReset := by
  refine ⟨reset_memory_wf.1, reset_memory_wf.2, ?status, ?frame, ?pc, .closed, rfl, rfl⟩
  case status => constructor <;> decide
  case frame => constructor <;> decide
  case pc => simp [State.PcInv, State.reset]

/-! ### Tables and parameters (R31, R40, R41, R76) -/

/-- Settles O9: a reset edge keeps them, and so does every move of the block. -/
theorem parametersNeverWritten : Obligations.ParametersNeverWritten := by
  intro s t h
  rcases step_next h with ⟨-, rfl⟩ | ⟨-, -, u, hu, rfl⟩
  · simp
  · simpa using (block_moved hu).tables

/-! ### The contents of the tables (R40, R41) -/

/-- `BYTE_ROM` begins with `INIT_ROM` (R41). -/
theorem byteRomOf_init (i : Fin 25 → Byte) (k : Fin 25) : (byteRomOf i)[k.val] = i k := by
  fin_cases k <;> rfl

/-- A command frame of one payload byte is the control byte 0x00 and `BYTE_ROM[ptr]` (R100, R167). -/
theorem commandFrame_one (rom : Vector Byte 37) (ptr : Byte) (h : ptr.toNat < 37) :
    commandFrame rom ptr 1#9 = [0x00#8, rom[ptr.toNat]] := by
  have hlen : ptr.toNat < rom.toList.length := by simpa using h
  have hone : romBytes rom ptr 1#9 = [rom.toList[ptr.toNat]] := List.take_one_drop_eq_of_lt_length hlen
  rw [commandFrame, hone, Vector.getElem_toList]
  rfl

/-- Words 0 to 24 of `SCRIPT_ROM` are the initialization writes (R40). -/
theorem scriptRomReset_init : ∀ k : Fin 25,
    decodeStep scriptRomReset[k.val] = .ok (.wrc 0x3C#7 1#9 (BitVec.ofNat 8 k.val) 10#4) := by decide

/-- Every word of `SCRIPT_ROM` is inside the bounds of R98 (R40). -/
theorem scriptRomReset_wordOk : ∀ k : Fin 32, wordOk scriptRomReset[k.val] = true := by decide

theorem wf_of_wordOk {w : StepWord} {i : Instr} (h : wordOk w = true) (hi : decodeStep w = .ok i) : i.wf = true := by
  simpa [wordOk, hi] using h

/-- The payload of a step inside the bounds of R98 does not reach beyond index 36 (R41). -/
theorem payload_inside {w : StepWord} {a : BusAddr} {len : Count} {ptr : Byte} {d : BitVec 4} (h : wordOk w = true)
    (hw : decodeStep w = .ok (.wrc a len ptr d) ∨ decodeStep w = .ok (.wrr a len ptr d)) :
    ptr.toNat + len.toNat - 1 ≤ 36 := by
  have hp : payloadOk ptr len = true := by
    rcases hw with hw | hw
    · exact (Bool.and_eq_true _ _ ▸ wf_of_wordOk h hw).2
    · exact (Bool.and_eq_true _ _ ▸ wf_of_wordOk h hw).2
  rw [payloadOk_iff] at hp
  omega

/-- The frame of initialization write `k` is the control byte 0x00 and `INIT_ROM[k]` (R40, R41). -/
theorem commandFrame_init (i : Fin 25 → Byte) (k : Fin 25) :
    commandFrame (byteRomOf i) (BitVec.ofNat 8 k.val) 1#9 = [0x00#8, i k] := by
  have hk : (BitVec.ofNat 8 k.val).toNat = k.val := by simp; omega
  rw [commandFrame_one _ _ (by omega)]
  simp only [hk, byteRomOf_init]

/-- Settles O8: rows 0 to 24 by the lemmas on the initialization writes, the other rows by evaluation, the bound of the
payloads from the well-formedness of every word, and that no step writes a table from O9. -/
theorem tableContents : Obligations.TableContents := by
  refine ⟨fun k => ⟨scriptRomReset_init k, commandFrame_init _ k, byteRomOf_init _ k⟩, rfl, rfl, rfl, rfl, rfl, rfl,
    rfl, rfl, rfl, rfl, rfl, rfl, rfl, rfl, fun _ => rfl,
    fun k _ _ _ _ h => payload_inside (scriptRomReset_wordOk k) h, fun s t h => ?_⟩
  obtain ⟨hscript, hbytes, -, -⟩ := parametersNeverWritten s t h
  exact ⟨hscript, hbytes⟩

/-! ### The step counter (R34, R173) -/

/-- Settles O38: the ways are those that `Moved` lists of the block, and reset. -/
theorem pcWrittenThreeWays : Obligations.PcWrittenThreeWays := by
  intro s t h
  rcases step_next h with ⟨hr, rfl⟩ | ⟨hr, -, u, hu, rfl⟩
  · exact .inr (.inl ⟨hr, by simp [State.reset]⟩)
  · have hpc := (block_moved hu).pc
    simp only [hostWrite_pc, hostWrite_seqState, hostWrite_ports, hostWrite_params, hostWrite_mftState,
      hostWrite_mErrKind] at hpc
    rw [advancePorts_pc]
    rcases hpc with hpc | hgo | hstop
    · exact .inl hpc
    · exact .inr (.inr (.inl ⟨hr, hgo⟩))
    · exact .inr (.inr (.inr ⟨hr, hstop⟩))

/-! ### The buffers (R26 to R28, R70, R134, R139) -/

/-- A byte of a buffer after a write. -/
theorem read_write (m : Memory) (a : Nat) (b : Byte) (j : Nat) :
    Memory.read (Memory.write m a b) j = if j = a then some b else Memory.read m j := by
  split
  · next h => rw [h, read_write_same]
  · next h => exact read_write_other m a j b h

/-- A byte of `txbuf` after a frame has been built from index 0 on (R165). -/
theorem read_writeFrom_zero (m : Memory) (d : List Byte) (j : Nat) :
    Memory.read (Memory.writeFrom m 0 d) j = if j < d.length then d[j]? else Memory.read m j := by
  simp [read_writeFrom]

/-- The host's write changes `txbuf[tx_idx]` at an edge with `tx_we` = 1 and `busy` = 0, and no other byte (R26, R70). -/
theorem hostWrite_txbuf_cases (s : State) :
    (hostWrite s).txbuf = s.txbuf ∨
    (s.busy = false ∧ s.ports.txWe = true ∧
      (hostWrite s).txbuf = Memory.write s.txbuf s.ports.txIdx.toNat s.ports.txData) := by
  unfold hostWrite
  split
  · next hw =>
    rw [Bool.and_eq_true, Bool.not_eq_true'] at hw
    exact .inr ⟨hw.2, hw.1, rfl⟩
  · exact .inl rfl

/-- Settles O39: of the block's moves only the building of a frame writes `txbuf`, in `Q_FETCH` and so while the host's
write is ignored, and only a received byte is stored in `rxbuf`. -/
theorem bufferWriters : Obligations.BufferWriters := by
  intro s t h hr
  rcases step_next h with ⟨hr', -⟩ | ⟨-, -, u, hu, rfl⟩
  · simp [hr] at hr'
  · have htx := (block_moved hu).txbuf
    have hrx := (block_moved hu).rxbuf
    simp only [hostWrite_seqState, hostWrite_mftState, hostWrite_trace, hostWrite_rxbuf, hostWrite_byteIdx] at htx hrx
    simp only [advancePorts_txbuf, advancePorts_rxbuf, advancePorts_fRw, advancePorts_fLen, advancePorts_trace]
    constructor
    · rcases htx with htx | ⟨hq, hrw, d, hd, htx⟩
      · rw [htx]
        rcases hostWrite_txbuf_cases s with hw | ⟨hb, hwe, hw⟩ <;> rw [hw]
        · exact .inl fun _ => rfl
        · exact .inr (.inl ⟨hb, hwe, read_write _ _ _⟩)
      · rw [htx, hostWrite_of_busy (by simp [State.busy, hq])]
        exact .inr (.inr ⟨hq, hrw, d, hd, read_writeFrom_zero _ _⟩)
    · rcases hrx with hrx | ⟨hm, b, a, htr, hrx⟩ <;> rw [hrx]
      · exact .inl fun _ => rfl
      · exact .inr ⟨hm, b, a, htr, read_write _ _ _⟩

/-- Settles O27: a data slot and a host read both look the byte up first. -/
theorem unwrittenBytesFault : Obligations.UnwrittenBytesFault := by
  refine ⟨fun _ => ⟨rfl, rfl⟩, fun s hc hl hq hm hb => ?_, fun s hr hread hb => ?_⟩
  · rw [step_of_mft hc hl hq]
    simp only [mftStep, hm, dataStep_eq, hb, mapNext]
  · have hbad : s.badHostRead = true := by simp [State.badHostRead, State.rxData, hread, hb]
    simp [step, cycle, runStep, hr, hbad, mapNext]

/-! ### The state after reset (R35) -/

/-- Settles O33: every row of R35 is read off `State.reset`, and `rx_data` is `rxbuf[rx_idx]` by definition. -/
theorem resetValues : Obligations.ResetValues :=
  ⟨rfl, rfl, rfl, rfl, rfl, rfl, rfl, rfl, rfl, rfl, rfl, rfl, rfl, rfl, rfl, rfl, rfl, rfl, rfl, rfl, rfl, rfl, rfl,
    fun _ => rfl, fun _ => rfl, rfl, fun _ => rfl, rfl, rfl⟩

/-! ### The host's command (R26, R160 to R163) -/

/-- In `Q_IDLE` a calm step is the host's write and then what `Q_IDLE` does, at either level (R160). -/
theorem step_of_idle {s : State} (hc : s.calm) (hp : s.paramsOk) (hq : s.seqState = .idle) :
    step s = mapNext advancePorts (idleStep (hostWrite s)) := by
  rw [step_of_calm hc, blockStep]
  cases hl : s.level with
  | symbol => simp only [hostWrite_level, hl, symbolStep, hostWrite_seqState, hq]
  | line => simp only [hostWrite_level, hl, hostWrite_params, hp hl, if_true, lineStep, hostWrite_seqState, hq]

/-- Settles O12: the four cases are those of `idleStep_cases`, and the ports tell which one holds. -/
theorem stepRunsHostCommand : Obligations.StepRunsHostCommand := by
  intro s hc hp hq
  rw [step_of_idle hc hp hq]
  have hcases := idleStep_cases (hostWrite s)
  simp only [hostWrite_ports] at hcases
  rcases hcases with ⟨hg, hv, he⟩ | ⟨hg, he⟩ | ⟨hg, hv, hd, he⟩ | ⟨hg, hv, hd, he⟩
  · simp [hg, hv, he, mapNext]
  · simp [hg, he]
  · simp [hg, hv, hd, he]
  · simp [hg, hv, hd, he]

/-! ### Operations that do not look at the ports -/

/-- The state with other levels on the input ports, now and at the later edges. -/
def withPorts (p : Ports) (l : List Ports) (s : State) : State := { s with ports := p, schedule := l }

section
variable (p : Ports) (l : List Ports) (s : State)

@[simp] theorem withPorts_seqState : (withPorts p l s).seqState = s.seqState := rfl
@[simp] theorem withPorts_mftState : (withPorts p l s).mftState = s.mftState := rfl
@[simp] theorem withPorts_fRw : (withPorts p l s).fRw = s.fRw := rfl
@[simp] theorem withPorts_byteIdx : (withPorts p l s).byteIdx = s.byteIdx := rfl
@[simp] theorem withPorts_mErrKind : (withPorts p l s).mErrKind = s.mErrKind := rfl
@[simp] theorem withPorts_txbuf : (withPorts p l s).txbuf = s.txbuf := rfl
@[simp] theorem withPorts_rxbuf : (withPorts p l s).rxbuf = s.rxbuf := rfl
@[simp] theorem withPorts_quarter : (withPorts p l s).quarter = s.quarter := rfl
@[simp] theorem withPorts_level : (withPorts p l s).level = s.level := rfl
@[simp] theorem withPorts_ports : (withPorts p l s).ports = p := rfl
@[simp] theorem withPorts_stepWordAt : (withPorts p l s).stepWordAt = s.stepWordAt := rfl
@[simp] theorem withPorts_sendingBit : (withPorts p l s).sendingBit = s.sendingBit := rfl

end

/-- `PortFree` for an operation that may stop: it does not look at the ports, and leaves them alone. -/
def PortFreeStep (f : State → Host.Outcome State Fault Refusal) : Prop :=
  ∀ s p l, f (withPorts p l s) = mapNext (withPorts p l) (f s)

theorem PortFree.next {f : State → State} (h : PortFree f) : PortFreeStep fun s => .next (f s) :=
  fun s p l => congrArg Host.Outcome.next (h s p l)

/-- A choice between two outcomes by what does not depend on the ports. -/
theorem ite_mapNext {c d : Prop} [Decidable c] [Decidable d] {f : State → State}
    {a b a' b' : Host.Outcome State Fault Refusal} (h : c = d) (ha : a = mapNext f a') (hb : b = mapNext f b') :
    (if c then a else b) = mapNext f (if d then a' else b') := by
  subst h
  by_cases hc : c
  · rwa [if_pos hc, if_pos hc]
  · rwa [if_neg hc, if_neg hc]

/-! ### Symbols and byte slots -/

theorem startMft_portFree (a : BusAddr) (rw : Dir) (n : Count) : PortFree (startMft a rw n) := by
  intro s p l
  unfold startMft
  split <;> rfl

theorem acceptReq_portFree (rw : Dir) (a : BusAddr) (n : Count) : PortFree (acceptReq rw a n) :=
  fun s p l => startMft_portFree a rw n { clearStatus s with seqState := .direct } p l

theorem sendFrame_portFree (a : BusAddr) (n : Count) (d : List Byte) : PortFree (sendFrame a n d) :=
  fun s p l => startMft_portFree a .write n { loadFrame d s with seqState := .xfer } p l

theorem addrSlot_portFree (a : BusAddr) (rw : Dir) : PortFree (addrSlot a rw) := by
  intro s p l
  rw [addrSlot_eq, addrSlot_eq]
  exact slotResult_portFree _ _ _ _ (fun _ _ _ => rfl) { s with env := _ } p l

theorem txSlot_portFree (b : Byte) : PortFree (txSlot b) := by
  intro s p l
  rw [txSlot_eq, txSlot_eq]
  exact slotResult_portFree _ _ _ _ dataAcked_portFree { s with env := _ } p l

theorem rxSlot_portFree : PortFree rxSlot := by
  intro s p l
  rw [rxSlot_eq, rxSlot_eq]
  exact readResult_portFree _ { s with env := _ } p l

theorem stepDone_portFree : PortFreeStep stepDone :=
  fun _ _ _ => ite_mapNext rfl rfl (ite_mapNext rfl rfl rfl)

theorem handOver_portFree (r : FrameResult) : PortFreeStep (handOver r) := by
  intro s p l
  cases r with
  | err k pos => rfl
  | ok =>
    simp only [handOver, withPorts_seqState]
    split
    · exact stepDone_portFree s p l
    · rfl

theorem stopFrame_portFree : PortFreeStep stopFrame :=
  fun s p l => handOver_portFree (pendingResult s) { emit [.P] s with mftState := .idle } p l

theorem exec_portFree (i : Instr) : PortFreeStep (exec i) := by
  intro s p l
  cases i with
  | endScript => rfl
  | wrc a len ptr _ =>
    exact ite_mapNext rfl ((sendFrame_portFree a (len + 1#9) (commandFrame s.byteRom ptr len)).next s p l) rfl
  | wrd a len _ => exact ite_mapNext rfl ((sendFrame_portFree a (len + 1#9) (patternFrame len)).next s p l) rfl
  | wrr a len ptr _ => exact ite_mapNext rfl ((sendFrame_portFree a len (rawFrame s.byteRom ptr len)).next s p l) rfl
  | rdr a len _ =>
    exact ite_mapNext rfl ((startMft_portFree a .read len).next { s with seqState := .xfer } p l) rfl
  | write a => exact (addrSlot_portFree a .write).next s p l
  | read a => exact (addrSlot_portFree a .read).next s p l
  | ctrlCmd => exact (txSlot_portFree Config.ctrlCmdByte).next s p l
  | ctrlData => exact (txSlot_portFree Config.ctrlDataByte).next s p l
  | go sel => exact ite_mapNext rfl rfl (ite_mapNext rfl rfl rfl)
  | reqWrite a n => exact ite_mapNext rfl rfl ((acceptReq_portFree .write a n).next s p l)
  | reqRead a n => exact ite_mapNext rfl rfl ((acceptReq_portFree .read a n).next s p l)

theorem fetchStep_portFree : PortFreeStep fetchStep := by
  intro s p l
  simp only [fetchStep, withPorts_stepWordAt]
  split
  · exact exec_portFree _ s p l
  · rfl

theorem dataStep_portFree : PortFreeStep dataStep := by
  intro s p l
  simp only [dataStep_eq, withPorts_txbuf, withPorts_byteIdx]
  split
  · rfl
  · exact (txSlot_portFree _).next s p l

theorem mftStep_portFree : PortFreeStep mftStep := by
  intro s p l
  simp only [mftStep, withPorts_mftState]
  split
  · rfl
  · rfl
  · exact exec_portFree _ s p l
  · exact exec_portFree _ s p l
  · exact dataStep_portFree s p l
  · exact dataStep_portFree s p l
  · exact rxSlot_portFree.next s p l
  · exact rxSlot_portFree.next s p l
  · exact stopFrame_portFree s p l

/-! ### Ticks, which look at the levels of the two lines only -/

theorem loadByte_portFree : PortFreeStep loadByte := by
  intro s p l
  simp only [loadByte, withPorts_txbuf, withPorts_byteIdx]
  split <;> rfl

theorem endAddressAck_portFree : PortFreeStep endAddressAck := by
  intro s p l
  simp only [endAddressAck, withPorts_mErrKind, withPorts_fRw]
  split
  · split
    · exact loadByte_portFree (emit _ s) p l
    · rfl
  · rfl

theorem endDataAck_portFree : PortFreeStep endDataAck := by
  intro s p l
  simp only [endDataAck, withPorts_txbuf, withPorts_byteIdx, withPorts_mErrKind]
  split
  · rfl
  · next b _ =>
    split
    · exact ite_mapNext rfl rfl (loadByte_portFree (afterData (emit [.TX b, .AI .ack] s)) p l)
    · rfl

theorem endReadAck_portFree : PortFree endReadAck := by
  intro s p l
  show endReadAck (withPorts p l s) = withPorts p l (endReadAck s)
  rw [endReadAck, endReadAck, apply_ite (withPorts p l)]
  rfl

theorem symbolEnd_portFree : PortFreeStep symbolEnd := by
  intro s p l
  simp only [symbolEnd, withPorts_mftState]
  split
  · rfl
  · rfl
  · rfl
  · exact endAddressAck_portFree s p l
  · rfl
  · exact endDataAck_portFree s p l
  · rfl
  · exact endReadAck_portFree.next s p l
  · exact stopFrame_portFree s p l

section
variable {p : Ports} {l : List Ports} {s : State}

/-- The other devices leave the two bus lines as `s` has them. -/
def SameLines (p : Ports) (s : State) : Prop := p.sclEnv = s.ports.sclEnv ∧ p.sdaEnv = s.ports.sdaEnv

theorem withPorts_sclIn (h : SameLines p s) : (withPorts p l s).sclIn = s.sclIn :=
  congrArg (s.lineLevels.1 && ·) h.1

theorem withPorts_sdaIn (h : SameLines p s) : (withPorts p l s).sdaIn = s.sdaIn :=
  congrArg (s.lineLevels.2 && ·) h.2

theorem withPorts_stretched (h : SameLines p s) : (withPorts p l s).stretched = s.stretched := by
  rw [State.stretched, withPorts_sclIn h]
  rfl

theorem sampleBit_withPorts (h : SameLines p s) : sampleBit (withPorts p l s) = withPorts p l (sampleBit s) := by
  simp only [sampleBit, withPorts_mftState, withPorts_sdaIn h, withPorts_sendingBit]
  split
  · split <;> rfl
  · split <;> rfl
  · split <;> rfl
  · split <;> rfl
  · rfl
  · rfl
  · rfl
  · rfl
  · rfl

theorem quarterEnd_withPorts (h : SameLines p s) :
    quarterEnd (withPorts p l s) = mapNext (withPorts p l) (quarterEnd s) := by
  simp only [quarterEnd, withPorts_quarter]
  split
  · rfl
  · rw [sampleBit_withPorts h]
    rfl
  · rfl
  · exact symbolEnd_portFree { s with quarter := .first } p l

theorem countTick_withPorts (h : SameLines p s) :
    countTick (withPorts p l s) = mapNext (withPorts p l) (countTick s) :=
  ite_mapNext rfl rfl
    (ite_mapNext (congrArg (· = true) (withPorts_stretched h)) rfl
      (ite_mapNext rfl rfl (quarterEnd_withPorts (s := { s with qTick := 0 }) h)))

theorem mftTick_withPorts (h : SameLines p s) :
    mftTick (withPorts p l s) = mapNext (withPorts p l) (mftTick s) := by
  simp only [mftTick, withPorts_mftState]
  split
  · rfl
  · exact countTick_withPorts (s := { s with tmoCnt := s.tmoCnt + 1#32 }) h

theorem delayTick_portFree : PortFree delayTick := by
  intro s p l
  unfold delayTick
  split <;> rfl

/-! ### A step while `busy` = 1 -/

theorem symbolStep_withPorts (hb : s.busy = true) :
    symbolStep (withPorts p l s) = mapNext (withPorts p l) (symbolStep s) := by
  simp only [symbolStep, withPorts_seqState]
  split
  · next hq => simp [State.busy, hq] at hb
  · exact fetchStep_portFree s p l
  · exact mftStep_portFree s p l
  · exact mftStep_portFree s p l
  · rfl

theorem lineStep_withPorts (hb : s.busy = true) (h : SameLines p s) :
    lineStep (withPorts p l s) = mapNext (withPorts p l) (lineStep s) := by
  simp only [lineStep, withPorts_seqState]
  split
  · next hq => simp [State.busy, hq] at hb
  · exact fetchStep_portFree s p l
  · exact mftTick_withPorts h
  · exact mftTick_withPorts h
  · exact delayTick_portFree.next s p l

/-- While `busy` = 1 the block looks at the two bus lines and at no other port. -/
theorem blockStep_withPorts (hb : s.busy = true) (h : SameLines p s) :
    blockStep (withPorts p l s) = mapNext (withPorts p l) (blockStep s) := by
  simp only [blockStep, withPorts_level]
  split
  · exact symbolStep_withPorts hb
  · exact ite_mapNext rfl (lineStep_withPorts hb h) rfl

/-- The ports agree in all but the command and write ports. -/
structure Ports.AgreeBesideCommands (p q : Ports) : Prop where
  rst : p.rst = q.rst
  rxIdx : p.rxIdx = q.rxIdx
  rxRead : p.rxRead = q.rxRead
  sclEnv : p.sclEnv = q.sclEnv
  sdaEnv : p.sdaEnv = q.sdaEnv

theorem runStep_withPorts (hb : s.busy = true) (h : p.AgreeBesideCommands s.ports) :
    runStep (withPorts p l s) = mapNext (withPorts p l) (runStep s) := by
  have hread : (withPorts p l s).badHostRead = s.badHostRead := by
    simp only [State.badHostRead, State.rxData, withPorts_ports, withPorts_rxbuf, h.rxIdx, h.rxRead]
  rw [runStep, runStep, hread, hostWrite_of_busy hb, hostWrite_of_busy (s := withPorts p l s) hb, withPorts_ports,
    h.rxIdx, blockStep_withPorts hb ⟨h.sclEnv, h.sdaEnv⟩, apply_ite (mapNext _)]
  rfl

/-- While `busy` = 1 a step carries the command and write ports along unread, a reset included. -/
theorem step_withPorts (hb : s.busy = true) (h : p.AgreeBesideCommands s.ports) :
    step (withPorts p l s) =
      mapNext (fun t => advancePorts (withPorts p l t)) (if s.ports.rst then .next (resetEdge s) else runStep s) := by
  rw [step, cycle, withPorts_ports, h.rst, runStep_withPorts hb h]
  cases s.ports.rst with
  | true => rfl
  | false => cases hr : runStep s <;> rfl

/-- With the ports forgotten, the levels at an edge leave no mark on the state after the host's next levels. -/
theorem quiet_advance_withPorts (q : Ports) (t : State) :
    ({ advancePorts (withPorts p l t) with ports := .quiet } : State) =
      { advancePorts (withPorts q l t) with ports := .quiet } := by
  cases l <;> rfl

end

/-- Settles O22: a step while `busy` = 1 is one of the block that carries the command and write ports along unread. -/
theorem commandsWhileBusyHaveNoEffect : Obligations.CommandsWhileBusyHaveNoEffect := by
  intro s q hb hrst hidx hread hscl hsda
  have hq : step { s with ports := q } = _ := step_withPorts (l := s.schedule) hb ⟨hrst, hidx, hread, hscl, hsda⟩
  have hs : step s = _ := step_withPorts (p := s.ports) (l := s.schedule) hb ⟨rfl, rfl, rfl, rfl, rfl⟩
  rw [hq, hs]
  cases (if s.ports.rst then Host.Outcome.next (resetEdge s) else runStep s) with
  | next t => exact congrArg Host.Outcome.next (quiet_advance_withPorts _ t)
  | fault r => rfl
  | refused r => rfl

/-! ### The lines by symbol and quarter (R21, R150 to R152) -/

/-- In the four quarters of a bit the clock line is released in the second and third, and the data line has the bit
throughout (R150, R151). -/
theorem bitLevels_eq (v : Bool) (q : Quarter) : bitLevels v q = (decide (q = .second ∨ q = .third), v) := by
  cases q <;> rfl

/-- Settles O55: the four quarters of `S` and `P` are the model's own tables, and those of every bit are `bitLevels`. -/
theorem lineLevelTable : Obligations.LineLevelTable := by
  refine ⟨fun s hm => ?_, fun s hm => ?_, fun s hm => ?_, fun s => ⟨fun hm => ?_, fun hm => ?_, fun hm => ?_⟩⟩
  · simp only [State.lineLevels, hm]
  · simp only [State.lineLevels, hm]
    cases s.quarter <;> rfl
  · simp only [State.lineLevels, hm]
    cases s.quarter <;> rfl
  · rcases hm with hm | hm <;> simp only [State.lineLevels, hm, bitLevels_eq, State.sendingBit]
  · rcases hm with hm | hm | hm <;> simp only [State.lineLevels, hm, bitLevels_eq]
  · simp only [State.lineLevels, hm, bitLevels_eq, State.lastByte]

end Sys2Proof.Machine
end

section
/-! PROOFS. The statements of 20_memory.md: what a running frame keeps (R70, R120, R123, R125, R139), and how MFT sends a
bit and ends a symbol at line level (R66, R150, with R123 to R134). -/

namespace Sys2Proof.Machine

open Sys2Proof

/-! ### What a running frame keeps (R70, R120, R123, R125, R139) -/

/-- The operands of the running frame, the bytes it sends and the script it belongs to. -/
def State.frame (s : State) : BusAddr × Dir × Count × Memory × Script := (s.fAddr, s.fRw, s.fLen, s.txbuf, s.sel)

/-- MFT is neither at the start condition nor in the address slot. -/
def State.offAddress (s : State) : Prop := s.mftState ≠ .start ∧ s.mftState ≠ .addr ∧ s.mftState ≠ .aack

/-- How far a move takes the running frame: it stays in its symbol, it comes from the start condition to the address byte,
from there to its acknowledge bit (line level), or beyond the address slot. Only the start condition records `S`. -/
inductive FrameProgress (s t : State) : Prop where
  | stays : t.mftState = s.mftState → t.trace = s.trace → FrameProgress s t
  | started : s.mftState = .start → t.mftState = .addr → t.trace = s.trace ++ [.S] → FrameProgress s t
  | addressSent : s.mftState = .addr → t.mftState = .aack → t.trace = s.trace → FrameProgress s t
  | onward (es : List Event) : s.mftState ≠ .start → t.offAddress → t.trace = s.trace ++ es → .S ∉ es →
      FrameProgress s t

/-- A move of a running frame: what it keeps and how far it comes. -/
structure FrameMove (s t : State) : Prop where
  frame : t.frame = s.frame
  progress : FrameProgress s t

section
variable {s t : State}

/-- A move that takes the frame beyond the address slot, recording no `S`. -/
theorem frameMove_onward (es : List Event) (hm : s.mftState ≠ .start) (hf : t.frame = s.frame) (ho : t.offAddress)
    (ht : t.trace = s.trace ++ es) (hes : .S ∉ es := by simp) : FrameMove s t :=
  ⟨hf, .onward es hm ho ht hes⟩

theorem offAddress_of_idle (h : t.mftState = .idle) : t.offAddress := by simp [State.offAddress, h]

theorem offAddress_of_stop (h : t.mftState = .stop) : t.offAddress := by simp [State.offAddress, h]

theorem offAddress_afterAddress (rw : Dir) (s : State) : (afterAddress rw s).offAddress := by
  cases rw <;> simp [State.offAddress]

theorem offAddress_afterData (s : State) : (afterData s).offAddress := by
  cases h : s.lastByte <;> simp [State.offAddress, h]

theorem offAddress_receiveByte (b : Byte) (s : State) : (receiveByte b s).offAddress := by
  cases h : s.lastByte <;> simp [State.offAddress, h]

/-! #### Symbol level -/

/-- A stalled slot waits or is abandoned (R136, R138). -/
theorem frameMove_stallSlot (pos : Count) (e : Env) (hm : s.mftState ≠ .start) :
    FrameMove s (stallSlot pos { s with env := e }) := by
  rcases stallSlot_cases pos { s with env := e } with ⟨-, h⟩ | ⟨-, h⟩ <;> rw [h]
  · exact ⟨rfl, .stays rfl rfl⟩
  · exact frameMove_onward [.X] hm rfl (offAddress_of_idle rfl) rfl

theorem frameMove_addrSlot (a : BusAddr) (rw : Dir) (hm : s.mftState ≠ .start) : FrameMove s (addrSlot a rw s) := by
  rcases addrSlot_cases a rw s _ rfl with ⟨-, h⟩ | ⟨-, h⟩ | ⟨-, h⟩ | ⟨-, h⟩ <;> rw [h]
  · exact frameMove_onward [_, _] hm rfl (offAddress_afterAddress _ _) rfl
  · exact frameMove_onward [_, _] hm rfl (offAddress_of_stop rfl) rfl
  · exact frameMove_onward [.X] hm rfl (offAddress_of_idle rfl) rfl
  · exact frameMove_stallSlot _ _ hm

theorem frameMove_txSlot (b : Byte) (hm : s.mftState ≠ .start) : FrameMove s (txSlot b s) := by
  rcases txSlot_cases b s _ rfl with ⟨-, h⟩ | ⟨-, h⟩ | ⟨-, h⟩ | ⟨-, h⟩ <;> rw [h]
  · exact frameMove_onward [_, _] hm rfl (offAddress_afterData _) rfl
  · exact frameMove_onward [_, _] hm rfl (offAddress_of_stop rfl) rfl
  · exact frameMove_onward [.X] hm rfl (offAddress_of_idle rfl) rfl
  · exact frameMove_stallSlot _ _ hm

theorem frameMove_rxSlot (hm : s.mftState ≠ .start) : FrameMove s (rxSlot s) := by
  rcases rxSlot_cases s _ rfl with ⟨b, -, h⟩ | ⟨-, h⟩ <;> rw [h]
  · exact frameMove_onward [_, _] hm rfl (offAddress_receiveByte _ _) rfl
  · exact frameMove_stallSlot _ _ hm

/-- The stop condition ends the frame: with an error, before the next step of the script, or with the run (R130). -/
theorem stopFrame_ends_frame (h : stopFrame s = .next t) : t.frame = s.frame ∧ t.mftState = .idle := by
  rcases handOver_next h with ⟨k, pos, -, rfl⟩ | ⟨-, -, h⟩ | ⟨-, -, rfl⟩
  · exact ⟨rfl, rfl⟩
  · obtain ⟨-, ⟨-, rfl⟩ | ⟨-, rfl⟩⟩ := stepDone_next h
    · exact ⟨rfl, rfl⟩
    · exact ⟨rfl, rfl⟩
  · exact ⟨rfl, rfl⟩

theorem frameMove_stopFrame (tm : Ticks) (q : Quarter) (k : Nat) (hm : s.mftState = .stop)
    (h : stopFrame (withLine s.bitCnt s.shreg tm q k s) = .next t) : FrameMove s t := by
  have hs : s.mftState ≠ .start := by simp [hm]
  obtain ⟨hf, hidle⟩ := stopFrame_ends_frame h
  obtain ⟨-, -, htrace | ⟨n, htrace⟩, -⟩ := stopFrame_same h
  · exact frameMove_onward [.P] hs hf (offAddress_of_idle hidle) htrace
  · exact frameMove_onward [.P, .DLY n] hs hf (offAddress_of_idle hidle) htrace

/-! #### Both levels -/

/-- A tick of MFT counts, samples, or ends a symbol. -/
theorem frameMove_tick (h : TickMove s t) : FrameMove s t := by
  cases h with
  | count | sampleNack => exact ⟨rfl, .stays rfl rfl⟩
  | timeout ho =>
    exact frameMove_onward [.X] (fun hm => by simp [State.slotOpen, hm] at ho) rfl (offAddress_of_idle rfl) rfl
  | arbitration tm k hm =>
    exact frameMove_onward [.X] (by rcases hm with hm | hm <;> simp [hm]) rfl (offAddress_of_idle rfl) rfl
  | start b sh tm q k hm => exact ⟨rfl, .started hm rfl rfl⟩
  | addrSent b sh tm q k hm => exact ⟨rfl, .addressSent hm rfl rfl⟩
  | dataSent b sh tm q k hm | dataReceived b sh tm q k hm =>
    exact frameMove_onward [] (by simp [hm]) rfl (by simp [State.offAddress]) (List.append_nil _).symm
  | addrAck b sh tm q k hm => exact frameMove_onward [_, _] (by simp [hm]) rfl (offAddress_afterAddress _ _) rfl
  | dataAck b sh tm q k d hm => exact frameMove_onward [_, _] (by simp [hm]) rfl (offAddress_afterData _) rfl
  | readAck b sh tm q k d hm => exact frameMove_onward [_, _] (by simp [hm]) rfl (offAddress_receiveByte _ _) rfl
  | addrNack b sh tm q k hm | dataNack b sh tm q k d hm =>
    exact frameMove_onward [_, _] (by simp [hm]) rfl (offAddress_of_stop rfl) rfl
  | stop tm q k t hm ht => exact frameMove_stopFrame tm q k hm ht

/-- The block's move while SEQ waits for MFT. -/
theorem frameMove_of_blockMove (hq : s.seqState = .xfer ∨ s.seqState = .direct) (h : BlockMove s t) :
    FrameMove s t := by
  have hneq : ∀ {q : SeqState}, s.seqState = q → q = .xfer ∨ q = .direct := fun h => h ▸ hq
  cases h with
  | rest => exact ⟨rfl, .stays rfl rfl⟩
  | go h | req h | endRun h | send _ _ _ h | receive _ _ h | delay _ h | delayTick _ h => simpa using hneq h
  | start _ _ hm => exact ⟨rfl, .started hm rfl rfl⟩
  | address _ _ hm => exact frameMove_addrSlot _ _ (by rcases hm with hm | hm <;> simp [hm])
  | data b _ _ hm => exact frameMove_txSlot b (by rcases hm with hm | hm <;> simp [hm])
  | read _ _ hm => exact frameMove_rxSlot (by rcases hm with hm | hm <;> simp [hm])
  | stop t _ _ hm ht => exact frameMove_stopFrame s.tmoCnt s.quarter s.qTick hm ht
  | tick t _ _ _ ht => exact frameMove_tick ht

end

/-- A step without reset while a frame runs, by the invariant, is a move of the running frame and the host's next levels:
SEQ waits for MFT, and the host's write is ignored. -/
theorem frameMove_of_step {s t : State} (hi : s.Inv) (hr : s.ports.rst = false) (hm : s.mftState ≠ .idle)
    (h : step s = .next t) : ∃ u, FrameMove s u ∧ t = advancePorts u := by
  have hq := hi.frame.running.1 hm
  rcases step_next h with ⟨hr', -⟩ | ⟨-, -, u, hu, ht⟩
  · simp [hr] at hr'
  · rw [hostWrite_of_busy (busy_of_running hq)] at hu
    exact ⟨u, frameMove_of_blockMove hq (blockStep_move hu), ht⟩

/-- Settles O40: a move of the running frame keeps its operands, and each clause is read off how far it comes. -/
theorem runningFrameIsFixed : Obligations.RunningFrameIsFixed := by
  intro s t hi hr hm h
  obtain ⟨u, ⟨hf, hp⟩, rfl⟩ := frameMove_of_step hi hr hm h
  simp only [State.frame, Prod.mk.injEq] at hf
  obtain ⟨ha, hrw, hn, htx, hsel⟩ := hf
  simp only [advancePorts_fAddr, advancePorts_fRw, advancePorts_fLen, advancePorts_txbuf, advancePorts_sel,
    advancePorts_mftState, advancePorts_trace]
  refine ⟨ha, hrw, hn, htx, hsel, ?_⟩
  cases hp with
  | stays hmft ht =>
    rw [hmft]
    exact ⟨fun h => ⟨h, ht⟩, fun h => .inr ⟨h, ht⟩, fun h => ⟨.inr h, ht⟩, fun _ => ⟨[], by simp [ht]⟩⟩
  | started hs hmft ht => simp [hs, hmft, ht]
  | addressSent hs hmft ht => simp [hs, hmft, ht]
  | onward es hs ho ht hes =>
    obtain ⟨h1, h2, h3⟩ := ho
    exact ⟨fun h => absurd h h1, fun h => absurd h h2, fun h => absurd h h3, fun _ => ⟨es, ht, hes⟩⟩

/-! ### The last tick of a symbol (R123 to R134, R163, R172) -/

/-- The last tick of a symbol counts, and then ends the symbol (R150). -/
theorem step_symbolEnd {s : State} (h : s.ticking) (hi : s.inTime) (hq : s.quarter = .fourth)
    (hk : qbitTicks s.params ≤ s.qTick + 1) :
    step s = mapNext advancePorts (symbolEnd (nextQuarter .first s)) := by
  have hc : s.clockUp := fun h2 => by simp [hq] at h2
  have hend : quarterEnd { timed s with qTick := 0 } = symbolEnd (nextQuarter .first s) := by
    rw [quarterEnd, show State.quarter { timed s with qTick := 0 } = .fourth from hq]
    rfl
  rw [step_quarterEnd h hi hc hk, hend]

/-- A run that fails once its frame has been closed (R130, R140). -/
theorem abortRun_emit (k : ErrKind) (pos : Count) (es : List Event) (s : State) :
    abortRun k pos { emit es s with mftState := .idle } = runFailed k pos es s := by
  unfold abortRun runFailed failStepOf
  cases h : s.seqState <;> simp [h, State.localStep, emit]

section
variable {s : State}

/-- The start condition leads to the address byte (R123). -/
theorem symbolEnd_start (hm : s.mftState = .start) :
    symbolEnd s = .next
      { s with trace := s.trace ++ [.S], mftState := .addr, shreg := addrByte s.fAddr s.fRw, bitCnt := 8#4 } := by
  simp only [symbolEnd, hm]
  rfl

/-- A sent bit leaves one fewer, and the acknowledge bit follows the last (R66). -/
theorem symbolEnd_sent (hm : s.mftState = .addr ∨ s.mftState = .tx) :
    symbolEnd s = .next
      { s with
        shreg := s.shreg <<< 1, bitCnt := s.bitCnt - 1#4
        mftState := if s.bitCnt = 1#4 then (if s.mftState = .addr then .aack else .tack) else s.mftState } := by
  rcases hm with hm | hm <;> simp only [symbolEnd, hm, shiftOut] <;> rfl

/-- A received bit leaves one fewer, and the acknowledge bit follows the last (R133). -/
theorem symbolEnd_received (hm : s.mftState = .rx) :
    symbolEnd s = .next { s with bitCnt := s.bitCnt - 1#4, mftState := if s.bitCnt = 1#4 then .rack else .rx } := by
  simp only [symbolEnd, hm]

/-- The next data byte of a write is looked up in `txbuf` (R126, R28). -/
theorem loadByte_some {b : Byte} (h : Memory.read s.txbuf s.byteIdx.toNat = some b) :
    loadByte s = .next { s with shreg := b, bitCnt := 8#4, mftState := .tx } := by
  simp only [loadByte, h]

theorem loadByte_none (h : Memory.read s.txbuf s.byteIdx.toNat = none) :
    loadByte s = .fault (.unwrittenTxByte s.byteIdx.toNat) := by
  simp only [loadByte, h]

/-- After the acknowledged address byte of a write the first data byte is looked up (R125). -/
theorem symbolEnd_addrAck_write {o : Host.Outcome State Fault Refusal} (hm : s.mftState = .aack)
    (he : s.mErrKind = .none) (hrw : s.fRw = .write)
    (ho : loadByte { s with trace := s.trace ++ [.TX (addrByte s.fAddr s.fRw), .AI .ack] } = o) : symbolEnd s = o := by
  have hload : symbolEnd s = loadByte (emit [.TX s.frameAddrByte, .AI .ack] s) := by
    simp only [symbolEnd, hm, endAddressAck, he, hrw]
  exact hload.trans ho

/-- After the acknowledged address byte of a read the first read slot begins (R125, R132). -/
theorem symbolEnd_addrAck_read (hm : s.mftState = .aack) (he : s.mErrKind = .none) (hrw : s.fRw = .read) :
    symbolEnd s = .next
      { s with
        trace := s.trace ++ [.TX (addrByte s.fAddr s.fRw), .AI .ack], mftState := .rx, shreg := 0#8, bitCnt := 8#4 } := by
  have hread : symbolEnd s = .next (openReadSlot (emit [.TX s.frameAddrByte, .AI .ack] s)) := by
    simp only [symbolEnd, hm, endAddressAck, he, hrw]
  exact hread

/-- A refused address byte leads to the stop condition (R127). -/
theorem symbolEnd_addrNack (hm : s.mftState = .aack) (he : s.mErrKind ≠ .none) :
    symbolEnd s = .next { s with trace := s.trace ++ [.TX (addrByte s.fAddr s.fRw), .AI .nack], mftState := .stop } := by
  simp only [symbolEnd, hm, endAddressAck]
  rfl

/-- After an acknowledged data byte the next one is looked up, unless it was the last (R126). -/
theorem symbolEnd_dataAck {b : Byte} (hm : s.mftState = .tack)
    (hb : Memory.read s.txbuf s.byteIdx.toNat = some b) (he : s.mErrKind = .none) :
    symbolEnd s =
      if s.lastByte then .next (afterData (emit [.TX b, .AI .ack] s))
      else loadByte (afterData (emit [.TX b, .AI .ack] s)) := by
  simp only [symbolEnd, hm, endDataAck, hb, he]

theorem afterData_emit (es : List Event) :
    afterData (emit es s) =
      { s with
        trace := s.trace ++ es, byteIdx := s.byteIdx + 1#9, mftState := if s.lastByte then .stop else .tx } := rfl

/-- After the last data byte, acknowledged, comes the stop condition (R126). -/
theorem symbolEnd_lastDataAck {b : Byte} (hm : s.mftState = .tack)
    (hb : Memory.read s.txbuf s.byteIdx.toNat = some b) (he : s.mErrKind = .none)
    (hl : s.byteIdx.toNat + 1 = s.fLen.toNat) :
    symbolEnd s = .next
      { s with trace := s.trace ++ [.TX b, .AI .ack], byteIdx := s.byteIdx + 1#9, mftState := .stop } := by
  have hlast : s.lastByte = true := decide_eq_true hl
  rw [symbolEnd_dataAck hm hb he, afterData_emit, hlast]
  rfl

/-- After another data byte, acknowledged, the next one is looked up (R126). -/
theorem symbolEnd_innerDataAck {b : Byte} {o : Host.Outcome State Fault Refusal} (hm : s.mftState = .tack)
    (hb : Memory.read s.txbuf s.byteIdx.toNat = some b) (he : s.mErrKind = .none)
    (hl : s.byteIdx.toNat + 1 ≠ s.fLen.toNat)
    (ho : loadByte { s with trace := s.trace ++ [.TX b, .AI .ack], byteIdx := s.byteIdx + 1#9, mftState := .tx } = o) :
    symbolEnd s = o := by
  have hlast : s.lastByte = false := decide_eq_false hl
  rw [← ho, symbolEnd_dataAck hm hb he, afterData_emit, hlast]
  rfl

/-- A refused data byte leads to the stop condition (R129). -/
theorem symbolEnd_dataNack {b : Byte} (hm : s.mftState = .tack) (hb : Memory.read s.txbuf s.byteIdx.toNat = some b)
    (he : s.mErrKind ≠ .none) :
    symbolEnd s = .next { s with trace := s.trace ++ [.TX b, .AI .nack], mftState := .stop } := by
  simp only [symbolEnd, hm, endDataAck, hb]
  rfl

/-- The byte of the slot is looked up again for its event (R28). -/
theorem symbolEnd_dataAck_fault (hm : s.mftState = .tack) (hb : Memory.read s.txbuf s.byteIdx.toNat = none) :
    symbolEnd s = .fault (.unwrittenTxByte s.byteIdx.toNat) := by
  simp only [symbolEnd, hm, endDataAck, hb]

/-- A received byte is stored; the next slot, or the stop condition after the last (R133, R134). -/
theorem symbolEnd_readAck (hm : s.mftState = .rack) :
    symbolEnd s = .next
      { s with
        trace := s.trace ++ [.RX s.shreg, .AO (if s.byteIdx.toNat + 1 = s.fLen.toNat then .nack else .ack)]
        rxbuf := Memory.write s.rxbuf s.byteIdx.toNat s.shreg, byteIdx := s.byteIdx + 1#9
        mftState := if s.byteIdx.toNat + 1 = s.fLen.toNat then .stop else .rx
        shreg := if s.byteIdx.toNat + 1 = s.fLen.toNat then s.shreg else 0#8
        bitCnt := if s.byteIdx.toNat + 1 = s.fLen.toNat then s.bitCnt else 8#4 } := by
  simp only [symbolEnd, hm, endReadAck, receiveByte, State.lastByte]
  by_cases hl : s.byteIdx.toNat + 1 = s.fLen.toNat <;> simp [hl, openReadSlot, emit]

/-- The stop condition hands the pending NACK over (R130, R140). -/
theorem symbolEnd_stop_failed (hm : s.mftState = .stop) (he : s.mErrKind ≠ .none) :
    symbolEnd s = .next (runFailed s.mErrKind s.mErrPos [.P] s) := by
  have hr : pendingResult s = .err s.mErrKind s.mErrPos := pendingResult_err.2 ⟨he, rfl, rfl⟩
  simp only [symbolEnd, hm, stopFrame, hr, handOver, abortRun_emit]

/-- The stop condition of a REQ ends the run with success (R163). -/
theorem symbolEnd_stop_direct (hm : s.mftState = .stop) (he : s.mErrKind = .none) (hq : s.seqState = .direct) :
    symbolEnd s = .next (runDone { emit [.P] s with mftState := .idle }) := by
  simp only [symbolEnd, hm, stopFrame, pendingResult_ok.2 he, handOver, emit_seqState, hq]

/-- The stop condition of a step ends the step with success (R172). -/
theorem symbolEnd_stop_xfer (hm : s.mftState = .stop) (he : s.mErrKind = .none) (hq : s.seqState = .xfer) :
    symbolEnd s = stepDone { emit [.P] s with mftState := .idle } := by
  simp only [symbolEnd, hm, stopFrame, pendingResult_ok.2 he, handOver, emit_seqState, hq]

/-- A step without a delay leads to the next fetch (R172). -/
theorem stepDone_fetch (hpc : s.pc ≠ 31#5) (hd : stepDelay s.stepWordAt = 0#4) :
    stepDone s = .next { s with pc := s.pc + 1#5, seqState := .fetch } := by
  have hms : s.stepDelayMs = 0 := congrArg BitVec.toNat hd
  rw [stepDone, if_neg hpc, if_pos hms]

/-- A step with a delay leads to it (R172). -/
theorem stepDone_delay (hpc : s.pc ≠ 31#5) (hd : stepDelay s.stepWordAt ≠ 0#4) :
    stepDone s = .next
      { s with
        trace := s.trace ++ [.DLY (stepDelay s.stepWordAt).toNat], pc := s.pc + 1#5
        dlyCnt := BitVec.ofNat 32 ((stepDelay s.stepWordAt).toNat * (s.params.clkHz / 1000)), seqState := .delay } := by
  have hms : s.stepDelayMs ≠ 0 := fun h0 => hd (BitVec.eq_of_toNat_eq h0)
  rw [stepDone, if_neg hpc, if_neg hms]
  rfl

/-- The stop condition of a step leads to the next fetch if the step has no delay (R172). -/
theorem symbolEnd_stop_fetch (hm : s.mftState = .stop) (he : s.mErrKind = .none) (hq : s.seqState = .xfer)
    (hpc : s.pc ≠ 31#5) (hd : stepDelay s.stepWordAt = 0#4) :
    symbolEnd s = .next
      { s with trace := s.trace ++ [.P], mftState := .idle, pc := s.pc + 1#5, seqState := .fetch } :=
  (symbolEnd_stop_xfer hm he hq).trans (stepDone_fetch hpc hd)

/-- The stop condition of a step leads to the delay of the step (R172). -/
theorem symbolEnd_stop_delay (hm : s.mftState = .stop) (he : s.mErrKind = .none) (hq : s.seqState = .xfer)
    (hpc : s.pc ≠ 31#5) (hd : stepDelay s.stepWordAt ≠ 0#4) :
    symbolEnd s = .next
      { s with
        trace := s.trace ++ [.P, .DLY (stepDelay s.stepWordAt).toNat], mftState := .idle, pc := s.pc + 1#5
        dlyCnt := BitVec.ofNat 32 ((stepDelay s.stepWordAt).toNat * (s.params.clkHz / 1000)), seqState := .delay } := by
  have htrace : s.trace ++ [.P, .DLY (stepDelay s.stepWordAt).toNat] =
      (s.trace ++ [.P]) ++ [.DLY (stepDelay s.stepWordAt).toNat] := (List.append_assoc _ [_] [_]).symm
  rw [htrace]
  exact (symbolEnd_stop_xfer hm he hq).trans (stepDone_delay hpc hd)

/-- The stop condition of a step at index 31 is refused: there is no next step (R34, R104). -/
theorem symbolEnd_stop_overrun (hm : s.mftState = .stop) (he : s.mErrKind = .none) (hq : s.seqState = .xfer)
    (hpc : s.pc = 31#5) : symbolEnd s = .refused .scriptOverrun :=
  (symbolEnd_stop_xfer hm he hq).trans (if_pos hpc)

end

/-! ### The four quarters of a sent bit (R66, R150) -/

/-- A byte is being sent at line level, and nothing will get in its way: no timeout, no reset, no host access without a
value, and nobody else holds a line. -/
structure State.SendsFreely (s : State) : Prop where
  line : s.level = .line
  params : lineParamsOk s.params = true
  running : s.seqState = .xfer ∨ s.seqState = .direct
  sending : s.mftState = .addr ∨ s.mftState = .tx
  untimed : s.params.timeoutMs = 0
  undisturbed : s.undisturbed
  schedule : s.schedule = []
  scl : s.ports.sclEnv = true
  sda : s.ports.sdaEnv = true

/-- The quarter after `i` whole quarters of a bit. -/
def quarterAfter : Nat → Quarter
  | 0 => .first
  | 1 => .second
  | 2 => .third
  | _ => .fourth

/-- The state `k` ticks after the first tick of a bit. -/
def bitTick (k : Nat) (s : State) : State :=
  { s with
    tmoCnt := s.tmoCnt + BitVec.ofNat 32 k, quarter := quarterAfter (k / qbitTicks s.params)
    qTick := k % qbitTicks s.params }

theorem quarterAfter_middle (i : Nat) :
    (quarterAfter i = .second ∨ quarterAfter i = .third) ↔ 1 ≤ i ∧ i < 3 := by
  match i with
  | 0 | 1 | 2 => simp [quarterAfter]
  | i + 3 => simp [quarterAfter]

/-- A quarter is at least one tick long (R6). -/
theorem qbitTicks_pos {p : Params} (h : lineParamsOk p = true) : 0 < qbitTicks p := by
  simp only [lineParamsOk, Bool.and_eq_true, decide_eq_true_eq] at h
  simp only [qbitTicks, Config.sclHz] at h ⊢
  omega

/-- Counting a tick within a quarter of `n` ticks. -/
theorem succ_tick_within {k n : Nat} (h : k % n + 1 < n) : (k + 1) / n = k / n ∧ (k + 1) % n = k % n + 1 :=
  (Nat.div_mod_unique (by omega)).2 ⟨by have := Nat.mod_add_div k n; omega, h⟩

/-- Counting the last tick of a quarter of `n` ticks. -/
theorem succ_tick_last {k n : Nat} (hn : 0 < n) (h : n ≤ k % n + 1) : (k + 1) / n = k / n + 1 ∧ (k + 1) % n = 0 :=
  (Nat.div_mod_unique hn).2
    ⟨by have := Nat.mod_add_div k n; have := Nat.mod_lt k hn; rw [Nat.mul_add]; omega, hn⟩

/-- While a byte is sent, the lines show bit 7 of the shift register, the clock released in the middle of the bit (R150). -/
theorem lineLevels_sending {s : State} (h : s.mftState = .addr ∨ s.mftState = .tx) :
    s.lineLevels = (decide (s.quarter = .second ∨ s.quarter = .third), s.shreg.getLsbD 7) := by
  rcases h with h | h <;> simp only [State.lineLevels, h, bitLevels_eq, State.sendingBit]

/-- With nobody else on the lines a sent bit is read back as it is, and a quarter before the last leads to the next one. -/
theorem quarterEnd_sending {s : State} {i : Nat} (h : s.mftState = .addr ∨ s.mftState = .tx)
    (hsda : s.ports.sdaEnv = true) (hi : i < 3) (hq : s.quarter = quarterAfter i) :
    quarterEnd s = .next { s with quarter := quarterAfter (i + 1) } := by
  have hread : s.sdaIn = s.sendingBit := by simp [State.sdaIn, lineLevels_sending h, hsda, State.sendingBit]
  match i with
  | 0 | 2 => simp only [quarterEnd, hq, quarterAfter]
  | 1 => simp [quarterEnd, hq, quarterAfter, sampleBit_sent h, hread]

section
variable {s : State} {k : Nat}

/-! Nothing gets in the way of a tick of the bit. -/

theorem State.SendsFreely.ticking_bitTick (h : s.SendsFreely) : (bitTick k s).ticking :=
  ⟨undisturbed_calm h.undisturbed, h.line, h.params, h.running,
    show s.mftState ≠ .idle by rcases h.sending with hm | hm <;> simp [hm]⟩

theorem State.SendsFreely.inTime_bitTick (h : s.SendsFreely) : (bitTick k s).inTime :=
  .inr (.inl (by simp [bitTick, timeoutTicks, h.untimed]))

theorem State.SendsFreely.clockUp_bitTick (h : s.SendsFreely) : (bitTick k s).clockUp := fun hq _ => by
  have hscl : (bitTick k s).ports.sclEnv = true := h.scl
  exact .inr (by simp [State.sclIn, lineLevels_sending (s := bitTick k s) h.sending, hq, hscl])

theorem bitTick_zero (hq : s.quarter = .first) (hk : s.qTick = 0) : bitTick 0 s = s := by
  cases s
  simp_all [bitTick, quarterAfter]

theorem advancePorts_of_nil (h : s.schedule = []) : advancePorts s = s := by
  simp only [advancePorts, h]

/-- One tick more: the timer counts it, and so do the counters of the bit. -/
theorem bitTick_succ {i j : Nat} (hi : (k + 1) / qbitTicks s.params = i) (hj : (k + 1) % qbitTicks s.params = j) :
    bitTick (k + 1) s = { timed (bitTick k s) with quarter := quarterAfter i, qTick := j } := by
  simp only [bitTick, timed, hi, hj, BitVec.ofNat_add, BitVec.add_assoc]

/-- A tick of a bit before the last. -/
theorem State.SendsFreely.step_bitTick (h : s.SendsFreely) (hk : k + 1 < 4 * qbitTicks s.params) :
    step (bitTick k s) = .next (bitTick (k + 1) s) := by
  have hpos := qbitTicks_pos h.params
  have hnil : (bitTick (k + 1) s).schedule = [] := h.schedule
  suffices hcount : countTick (timed (bitTick k s)) = .next (bitTick (k + 1) s) by
    rw [step_of_ticking h.ticking_bitTick, hcount, mapNext, advancePorts_of_nil hnil]
  obtain ⟨-, -, hwithin, hlast⟩ := countTick_cases (bitTick k s)
  by_cases hin : k % qbitTicks s.params + 1 < qbitTicks s.params
  · obtain ⟨hdiv, hmod⟩ := succ_tick_within hin
    rw [hwithin h.inTime_bitTick h.clockUp_bitTick hin, bitTick_succ hdiv hmod]
    rfl
  · have hin := Nat.not_lt.1 hin
    obtain ⟨hdiv, hmod⟩ := succ_tick_last hpos hin
    have hthird : k / qbitTicks s.params < 3 := by
      have : (k + 1) / qbitTicks s.params < 4 := Nat.div_lt_of_lt_mul (by rwa [Nat.mul_comm])
      omega
    rw [hlast h.inTime_bitTick h.clockUp_bitTick hin, bitTick_succ hdiv hmod]
    exact quarterEnd_sending (s := { timed (bitTick k s) with qTick := 0 }) h.sending h.sda hthird rfl

/-- The ticks of a bit (R66, R150). -/
theorem State.SendsFreely.run_bitTick (h : s.SendsFreely) (hq : s.quarter = .first) (hk : s.qTick = 0) (n : Nat) :
    n < 4 * qbitTicks s.params → run n s = .next (bitTick n s) := by
  induction n with
  | zero => exact fun _ => by rw [run_zero, bitTick_zero hq hk]
  | succ n ih =>
    intro hn
    rw [run_add (ih (by omega)) 1, run_succ 0 _ _ (h.step_bitTick hn), run_zero]

/-- What the lines show during a bit (R150). -/
theorem State.SendsFreely.lineLevels_bitTick (h : s.SendsFreely) :
    (bitTick k s).lineLevels =
      (decide (qbitTicks s.params ≤ k ∧ k < 3 * qbitTicks s.params), s.shreg.getLsbD 7) := by
  have hpos := qbitTicks_pos h.params
  have hmiddle : ((bitTick k s).quarter = .second ∨ (bitTick k s).quarter = .third) ↔
      (qbitTicks s.params ≤ k ∧ k < 3 * qbitTicks s.params) := by
    rw [← Nat.div_lt_iff_lt_mul hpos, ← Nat.one_le_div_iff hpos]
    exact quarterAfter_middle _
  rw [lineLevels_sending (s := bitTick k s) h.sending, decide_eq_decide.2 hmiddle]
  rfl

/-- At the end of a bit the counters of the bit begin again. -/
theorem nextQuarter_bitTick (hq : s.quarter = .first) (hk : s.qTick = 0) :
    nextQuarter .first (bitTick k s) = { s with tmoCnt := s.tmoCnt + BitVec.ofNat 32 (k + 1) } := by
  simp only [nextQuarter, bitTick, ← hq, ← hk, BitVec.ofNat_add, BitVec.add_assoc]

/-- The last tick of a bit shifts the register, and the acknowledge bit follows the last bit (R66). -/
theorem State.SendsFreely.run_bit (h : s.SendsFreely) (hq : s.quarter = .first) (hk : s.qTick = 0) :
    run (4 * qbitTicks s.params) s = .next
      { s with
        tmoCnt := s.tmoCnt + BitVec.ofNat 32 (4 * qbitTicks s.params), shreg := s.shreg <<< 1
        bitCnt := s.bitCnt - 1#4
        mftState :=
          if s.bitCnt = 1#4 then (if s.mftState = .addr then .aack else .tack) else s.mftState } := by
  have hpos := qbitTicks_pos h.params
  obtain ⟨k, hlast⟩ : ∃ k, 4 * qbitTicks s.params = k + 1 := ⟨4 * qbitTicks s.params - 1, by omega⟩
  obtain ⟨hdiv, hmod⟩ : k / qbitTicks s.params = 3 ∧ k % qbitTicks s.params = qbitTicks s.params - 1 :=
    (Nat.div_mod_unique hpos).2 ⟨by omega, by omega⟩
  have hfourth : (bitTick k s).quarter = .fourth := congrArg quarterAfter hdiv
  have hend : qbitTicks s.params ≤ (bitTick k s).qTick + 1 := by simp only [bitTick, hmod]; omega
  have hsent := symbolEnd_sent (s := { s with tmoCnt := s.tmoCnt + BitVec.ofNat 32 (k + 1) }) h.sending
  have hstep := step_symbolEnd h.ticking_bitTick h.inTime_bitTick hfourth hend
  rw [nextQuarter_bitTick hq hk, hsent, mapNext, advancePorts_of_nil (by exact h.schedule)] at hstep
  rw [hlast, run_add (h.run_bitTick hq hk k (by omega)) 1, run_succ 0 _ _ hstep, run_zero]

end

/-- Settles O57: the ticks of a sent bit are counted by `bitTick`, the last of them ending the bit; and what the last tick of
a symbol does is said by the lemmas on `symbolEnd`. -/
theorem bitTakesFourQuarters : Obligations.BitTakesFourQuarters := by
  refine ⟨fun s hl hp hq hm hfirst hk ht hu hs hscl hsda => ?_, fun s ht hi hq hk => ?_⟩
  · have h : s.SendsFreely := ⟨hl, hp, hq, hm, ht, hu, hs, hscl, hsda⟩
    exact ⟨fun k hlt => ⟨_, h.run_bitTick hfirst hk k hlt, h.lineLevels_bitTick⟩, h.run_bit hfirst hk⟩
  · have hnext {t : State} (h : symbolEnd (nextQuarter .first s) = .next t) : step s = .next (advancePorts t) := by
      rw [step_symbolEnd ht hi hq hk, h, mapNext]
    have hfault {r : Fault} (h : symbolEnd (nextQuarter .first s) = .fault r) : step s = .fault r := by
      rw [step_symbolEnd ht hi hq hk, h, mapNext]
    have hrefused {r : Refusal} (h : symbolEnd (nextQuarter .first s) = .refused r) : step s = .refused r := by
      rw [step_symbolEnd ht hi hq hk, h, mapNext]
    refine ⟨?start, ?sent, ?addrAck, ?addrNack, ?dataAck, ?dataMissing, ?received, ?readAck, ?stopFailed, ?stopDirect,
      ?stopXfer⟩
    case start => exact fun hm => hnext (symbolEnd_start hm)
    case sent => exact fun hm => hnext (symbolEnd_sent hm)
    case addrAck =>
      exact fun hm he =>
        ⟨fun hrw b hb => hnext (symbolEnd_addrAck_write hm he hrw (loadByte_some hb)),
          fun hrw hb => hfault (symbolEnd_addrAck_write hm he hrw (loadByte_none hb)),
          fun hrw => hnext (symbolEnd_addrAck_read hm he hrw)⟩
    case addrNack => exact fun hm he => hnext (symbolEnd_addrNack hm he)
    case dataAck =>
      exact fun hm b hb =>
        ⟨fun he => hnext (symbolEnd_dataNack hm hb he), fun he hl => hnext (symbolEnd_lastDataAck hm hb he hl),
          fun he hl =>
            ⟨fun c hc => hnext (symbolEnd_innerDataAck hm hb he hl (loadByte_some hc)),
              fun hc => hfault (symbolEnd_innerDataAck hm hb he hl (loadByte_none hc))⟩⟩
    case dataMissing => exact fun hm hb => hfault (symbolEnd_dataAck_fault hm hb)
    case received => exact fun hm => hnext (symbolEnd_received hm)
    case readAck =>
      exact fun hm =>
        ⟨_, hnext (symbolEnd_readAck (s := nextQuarter .first s) hm), rfl, read_write_same _ _ _,
          fun j => read_write_other _ _ j _⟩
    case stopFailed => exact fun hm he => hnext (symbolEnd_stop_failed hm he)
    case stopDirect => exact fun hm he hq => hnext (symbolEnd_stop_direct hm he hq)
    case stopXfer =>
      exact fun hm he hq =>
        ⟨fun hpc hd => hnext (symbolEnd_stop_fetch hm he hq hpc hd),
          fun hpc hd => hnext (symbolEnd_stop_delay hm he hq hpc hd),
          fun hpc => hrefused (symbolEnd_stop_overrun hm he hq hpc)⟩

end Sys2Proof.Machine
end

section
/-! PROOFS. The statements of 30_encoding.md: the instruction words and their fields (R91, R94, R96, R98, R99), the
frames that the step kinds build (R100, R101), malformed scripts (R104), the bytes of a frame (R91, R94, R106) and complete
frames (R92, R93). -/

namespace Sys2Proof

/-! ### The step word (R96 to R98) -/

theorem stepWord_toNat (k : BitVec 4) (a : BusAddr) (l : Count) (p : Byte) (d : BitVec 4) :
    (stepWord k a l p d).toNat =
      k.toNat * 0x10000000 + a.toNat * 0x200000 + l.toNat * 0x1000 + p.toNat * 0x10 + d.toNat := by
  have := k.isLt; have := a.isLt; have := l.isLt; have := p.isLt; have := d.isLt
  simp only [stepWord, BitVec.toNat_ofNat, Nat.reducePow] at *
  omega

/-- The five fields make up the word (R96). -/
theorem stepFields_toNat (w : StepWord) :
    w.toNat =
      (stepKind w).toNat * 0x10000000 + (stepAddr w).toNat * 0x200000 + (stepLen w).toNat * 0x1000
        + (stepPtr w).toNat * 0x10 + (stepDelay w).toNat := by
  have := w.isLt
  simp only [stepKind, stepAddr, stepLen, stepPtr, stepDelay, BitVec.extractLsb'_toNat, Nat.shiftRight_eq_div_pow,
    Nat.reducePow] at *
  omega

theorem stepWord_fields (w : StepWord) :
    stepWord (stepKind w) (stepAddr w) (stepLen w) (stepPtr w) (stepDelay w) = w :=
  BitVec.eq_of_toNat_eq ((stepWord_toNat ..).trans (stepFields_toNat w).symm)

/-- A word with the fields `k`, `p` and its own others is the word assembled from them. -/
theorem stepWord_of_fields {w : StepWord} {k : BitVec 4} {p : Byte} (hk : stepKind w = k) (hp : stepPtr w = p) :
    stepWord k (stepAddr w) (stepLen w) p (stepDelay w) = w := by
  rw [← hk, ← hp, stepWord_fields]

section
variable {w : StepWord}

theorem decodeStep_end (h : (stepKind w).toNat = 0) : decodeStep w = .ok .endScript := by
  simp only [decodeStep, h]

theorem decodeStep_wrc (h : (stepKind w).toNat = 1) :
    decodeStep w = .ok (.wrc (stepAddr w) (stepLen w) (stepPtr w) (stepDelay w)) := by
  simp only [decodeStep, h]

theorem decodeStep_wrd (h : (stepKind w).toNat = 2) :
    decodeStep w = .ok (.wrd (stepAddr w) (stepLen w) (stepDelay w)) := by
  simp only [decodeStep, h]

theorem decodeStep_wrr (h : (stepKind w).toNat = 3) :
    decodeStep w = .ok (.wrr (stepAddr w) (stepLen w) (stepPtr w) (stepDelay w)) := by
  simp only [decodeStep, h]

theorem decodeStep_rdr (h : (stepKind w).toNat = 4) :
    decodeStep w = .ok (.rdr (stepAddr w) (stepLen w) (stepDelay w)) := by
  simp only [decodeStep, h]

theorem decodeStep_reserved (h : 5 ≤ (stepKind w).toNat) : decodeStep w = .error (.reservedKind (stepKind w)) := by
  rcases decodeStep_cases w with ⟨hk, -⟩ | ⟨hk, -⟩ | ⟨hk, -⟩ | ⟨hk, -⟩ | ⟨hk, -⟩ | ⟨-, he⟩
  case inr.inr.inr.inr.inr => exact he
  all_goals omega

end

/-- Encoding what a step word decodes to gives the word back, if the fields its kind does not use are 0 (R96, R98). -/
theorem encode_decodeStep {w : StepWord} {i : Instr} (h : decodeStep w = .ok i)
    (hend : (stepKind w).toNat = 0 → w = 0#32)
    (hptr : (stepKind w).toNat = 2 ∨ (stepKind w).toNat = 4 → stepPtr w = 0#8) : encode i = .step w := by
  have hkind {n : Nat} (hk : (stepKind w).toNat = n) : stepKind w = BitVec.ofNat 4 n := by
    rw [← hk, BitVec.ofNat_toNat, BitVec.setWidth_eq]
  rcases decodeStep_cases w with ⟨hk, he⟩ | ⟨hk, he⟩ | ⟨hk, he⟩ | ⟨hk, he⟩ | ⟨hk, he⟩ | ⟨-, he⟩ <;>
    cases he.symm.trans h
  · rw [hend hk]; rfl
  · exact congrArg Encoded.step (stepWord_of_fields (hkind hk) rfl)
  · exact congrArg Encoded.step (stepWord_of_fields (hkind hk) (hptr (.inl hk)))
  · exact congrArg Encoded.step (stepWord_of_fields (hkind hk) rfl)
  · exact congrArg Encoded.step (stepWord_of_fields (hkind hk) (hptr (.inr hk)))

/-! ### The words of the other formats (R91, R94, R99, R161) -/

theorem dirOfBit_bit (b : BitVec 1) : (dirOfBit b).bit = b := by decide +revert

theorem addrByte_extract (b : Byte) : addrByte (b.extractLsb' 1 7) (dirOfBit (b.extractLsb' 0 1)) = b := by
  apply BitVec.eq_of_toNat_eq
  rw [addrByte_toNat, dirOfBit_bit]
  simp only [BitVec.extractLsb'_toNat, Nat.shiftRight_eq_div_pow]
  omega

theorem encode_decodeAddr (b : Byte) : encode (decodeAddr b) = .addr b := by
  have hb := addrByte_extract b
  unfold decodeAddr
  split
  · next hd => rw [hd] at hb; exact congrArg Encoded.addr hb
  · next hd => rw [hd] at hb; exact congrArg Encoded.addr hb

theorem encode_decodeCtrl {b : Byte} {i : Instr} (h : decodeCtrl b = .ok i) : encode i = .ctrl b := by
  unfold decodeCtrl at h
  split at h
  · next hb => cases h; rw [hb]; rfl
  · split at h
    · next hb => cases h; rw [hb]; rfl
    · cases h

theorem goWord_extract : ∀ w : BitVec 2, w.extractLsb' 1 1 = 1#1 → goWord (scriptOfBit (w.extractLsb' 0 1)) = w := by
  decide

theorem encode_decodeGo {w : BitVec 2} {i : Instr} (h : decodeGo w = .ok i) : encode i = .go w := by
  unfold decodeGo at h
  split at h
  · next hg => cases h; exact congrArg Encoded.go (goWord_extract w hg)
  · cases h

theorem reqWord_extract (w : BitVec 17) :
    reqWord (dirOfBit (w.extractLsb' 16 1)) (w.extractLsb' 9 7) (w.extractLsb' 0 9) = w := by
  apply BitVec.eq_of_toNat_eq
  rw [reqWord_toNat, dirOfBit_bit]
  simp only [BitVec.extractLsb'_toNat, Nat.shiftRight_eq_div_pow]
  omega

theorem encode_decodeReq (w : BitVec 17) : encode (decodeReq w) = .req w := by
  have hw := reqWord_extract w
  unfold decodeReq
  split
  · next hd => rw [hd] at hw; exact congrArg Encoded.req hw
  · next hd => rw [hd] at hw; exact congrArg Encoded.req hw

/-! ### Decoding and encoding -/

theorem stepKind_stepWord_toNat (k : BitVec 4) (a : BusAddr) (l : Count) (p : Byte) (d : BitVec 4) :
    (stepKind (stepWord k a l p d)).toNat = k.toNat := congrArg BitVec.toNat (stepKind_stepWord k a l p d)

/-- Settles O1: the fields of an assembled word are those it was assembled from, and so are those of the other formats'
words. -/
theorem decodeInvertsEncode : Obligations.DecodeInvertsEncode := by
  intro i
  cases i with
  | endScript => exact decodeStep_end (stepKind_stepWord_toNat 0#4 0#7 0#9 0#8 0#4)
  | wrc a l p d =>
    rw [encode, decode, decodeStep_wrc (stepKind_stepWord_toNat 1#4 a l p d), stepAddr_stepWord, stepLen_stepWord,
      stepPtr_stepWord, stepDelay_stepWord]
  | wrd a l d =>
    rw [encode, decode, decodeStep_wrd (stepKind_stepWord_toNat 2#4 a l 0#8 d), stepAddr_stepWord, stepLen_stepWord,
      stepDelay_stepWord]
  | wrr a l p d =>
    rw [encode, decode, decodeStep_wrr (stepKind_stepWord_toNat 3#4 a l p d), stepAddr_stepWord, stepLen_stepWord,
      stepPtr_stepWord, stepDelay_stepWord]
  | rdr a l d =>
    rw [encode, decode, decodeStep_rdr (stepKind_stepWord_toNat 4#4 a l 0#8 d), stepAddr_stepWord, stepLen_stepWord,
      stepDelay_stepWord]
  | write a => exact congrArg Except.ok (decodeAddr_addrByte_write a)
  | read a => exact congrArg Except.ok (decodeAddr_addrByte_read a)
  | ctrlCmd => rfl
  | ctrlData => rfl
  | go sel => exact decodeGo_goWord sel
  | reqWrite a l => exact congrArg Except.ok (decodeReq_write a l)
  | reqRead a l => exact congrArg Except.ok (decodeReq_read a l)

/-- Settles O2: the fields of a word, of every format, make it up. -/
theorem encodeInvertsDecode : Obligations.EncodeInvertsDecode :=
  ⟨fun _ _ => encode_decodeStep, encode_decodeAddr, fun _ _ => encode_decodeCtrl, fun _ _ => encode_decodeGo,
    encode_decodeReq⟩

/-- Settles O3: the field functions cut these bits by definition, and the fields make up the word. -/
theorem stepWordLayout : Obligations.StepWordLayout :=
  ⟨fun w => ⟨rfl, rfl, rfl, rfl, rfl, Nat.le_of_lt_succ (stepDelay w).isLt, stepFields_toNat w⟩, stepWord_toNat⟩

/-- Settles O4: the layout for every address and direction, and the scripts' four address bytes by evaluation. -/
theorem addressByteLayout : Obligations.AddressByteLayout :=
  ⟨fun a rw => ⟨addrByte_toNat a rw, addrByte_addr a rw, addrByte_bit a rw⟩, rfl, rfl, rfl, rfl, rfl, rfl⟩

/-- Settles O7: the words are literal, so that the decoders evaluate on them. -/
theorem specWordsDecode : Obligations.SpecWordsDecode :=
  ⟨rfl, rfl, rfl, rfl, rfl, rfl, rfl, rfl, rfl, rfl, rfl, rfl, rfl, rfl⟩

end Sys2Proof

namespace Sys2Proof.Machine

open Sys2Proof

/-! ### The pattern (R101) -/

theorem pat_even {i : Nat} (h : i % 2 = 0) : pat i = 0xAA#8 := if_pos h

theorem pat_odd {i : Nat} (h : i % 2 = 1) : pat i = 0x55#8 := if_neg (by omega)

/-- Offset `j` of a pattern frame, from 1 on, holds `pat(j)` (R100, R101). -/
theorem patternFrame_get (len : Count) {j : Nat} (h1 : 1 ≤ j) (hj : j ≤ len.toNat) :
    (patternFrame len)[j]? = some (pat j) := by
  obtain ⟨k, rfl⟩ : ∃ k, j = k + 1 := ⟨j - 1, by omega⟩
  have hk : k < len.toNat := hj
  simp [patternFrame, hk]

/-- Settles O5: the pattern by the parity of the offset, and the 128 content bytes of the data frame by evaluation. -/
theorem patternOfTheDataFrame : Obligations.PatternOfTheDataFrame :=
  ⟨fun _ => pat_even, fun _ => pat_odd, fun _ => rfl, fun len _ => patternFrame_get len, rfl, rfl⟩

/-! ### The bounds of a step's fields (R98) -/

theorem wrc_wf_iff {a : BusAddr} {len : Count} {ptr : Byte} {d : BitVec 4} :
    (Instr.wrc a len ptr d).wf = true ↔ 1 ≤ len.toNat ∧ len.toNat ≤ 255 ∧ ptr.toNat + len.toNat ≤ 37 := by
  rw [Instr.wf, Bool.and_eq_true, commandLenOk_iff, payloadOk_iff, and_assoc]

theorem wrd_wf_iff {a : BusAddr} {len : Count} {d : BitVec 4} :
    (Instr.wrd a len d).wf = true ↔ 1 ≤ len.toNat ∧ len.toNat ≤ 255 := commandLenOk_iff

theorem wrr_wf_iff {a : BusAddr} {len : Count} {ptr : Byte} {d : BitVec 4} :
    (Instr.wrr a len ptr d).wf = true ↔ 1 ≤ len.toNat ∧ len.toNat ≤ 256 ∧ ptr.toNat + len.toNat ≤ 37 := by
  rw [Instr.wf, Bool.and_eq_true, rawLenOk_iff, payloadOk_iff, and_assoc]

theorem rdr_wf_iff {a : BusAddr} {len : Count} {d : BitVec 4} :
    (Instr.rdr a len d).wf = true ↔ 1 ≤ len.toNat ∧ len.toNat ≤ 256 := rawLenOk_iff

/-! ### The frames that the step kinds start (R100, R121, R165, R167 to R170) -/

section
variable {a : BusAddr} {len : Count} {ptr : Byte} {d : BitVec 4} {s : State}

/-- A frame operation of a legal length is accepted (R121). -/
theorem startMft_accepts (rw : Dir) {n : Count} (h1 : 1 ≤ n.toNat) (h2 : n.toNat ≤ 256) :
    startMft a rw n s = frameAccepted a rw n s := startMft_ok a rw s h1 h2

/-- A write step of a legal length stores its data bytes, and its frame is accepted (R121, R165). -/
theorem sendFrame_accepts {n : Count} {bs : List Byte} (h1 : 1 ≤ n.toNat) (h2 : n.toNat ≤ 256) :
    sendFrame a n bs s = frameAccepted a .write n (loadFrame bs { s with seqState := .xfer }) :=
  startMft_accepts .write h1 h2

/-- WRC inside its bounds starts a write of its `len + 1` data bytes. -/
theorem exec_wrc (h : (Instr.wrc a len ptr d).wf = true) :
    exec (.wrc a len ptr d) s = .next
      (frameAccepted a .write (len + 1#9)
        (loadFrame (commandFrame s.byteRom ptr len) { s with seqState := .xfer })) := by
  obtain ⟨-, h255, -⟩ := wrc_wf_iff.1 h
  have hlen := len_succ_toNat h255
  exact (if_pos h).trans (congrArg Host.Outcome.next (sendFrame_accepts (by omega) (by omega)))

/-- WRD inside its bounds starts a write of its `len + 1` data bytes. -/
theorem exec_wrd (h : (Instr.wrd a len d).wf = true) :
    exec (.wrd a len d) s = .next
      (frameAccepted a .write (len + 1#9) (loadFrame (patternFrame len) { s with seqState := .xfer })) := by
  obtain ⟨-, h255⟩ := wrd_wf_iff.1 h
  have hlen := len_succ_toNat h255
  exact (if_pos h).trans (congrArg Host.Outcome.next (sendFrame_accepts (by omega) (by omega)))

/-- WRR inside its bounds starts a write of its `len` data bytes. -/
theorem exec_wrr (h : (Instr.wrr a len ptr d).wf = true) :
    exec (.wrr a len ptr d) s = .next
      (frameAccepted a .write len (loadFrame (rawFrame s.byteRom ptr len) { s with seqState := .xfer })) := by
  obtain ⟨h1, h256, -⟩ := wrr_wf_iff.1 h
  exact (if_pos h).trans (congrArg Host.Outcome.next (sendFrame_accepts h1 h256))

/-- RDR inside its bounds starts a read of `len` bytes. -/
theorem exec_rdr (h : (Instr.rdr a len d).wf = true) :
    exec (.rdr a len d) s = .next (frameAccepted a .read len { s with seqState := .xfer }) := by
  obtain ⟨h1, h256⟩ := rdr_wf_iff.1 h
  exact (if_pos h).trans (congrArg Host.Outcome.next (startMft_accepts .read h1 h256))

end

/-- Settles O15: the bytes of the command frame stand in `txbuf` from index 0 on. -/
theorem wrcBuildsItsFrame : Obligations.WrcBuildsItsFrame := by
  intro a len ptr d s hwf
  obtain ⟨-, h255, hrom⟩ := wrc_wf_iff.1 hwf
  have hread (j : Nat) := read_writeFrom_zero s.txbuf (commandFrame s.byteRom ptr len) j
  rw [commandFrame_length _ _ _ hrom] at hread
  refine ⟨_, exec_wrc hwf, rfl, len_succ_toNat h255, ?control, fun j h1 hj => ?payload, fun j hj => ?rest⟩
  case control => exact (hread 0).trans (if_pos (by omega))
  case payload =>
    obtain ⟨k, rfl⟩ : ∃ k, j = k + 1 := ⟨j - 1, by omega⟩
    exact ((hread (k + 1)).trans (if_pos (by omega))).trans (romBytes_get _ _ _ k hj)
  case rest => exact (hread j).trans (if_neg (by omega))

/-- Settles O16: the bytes of the pattern frame stand in `txbuf` from index 0 on. -/
theorem wrdBuildsItsFrame : Obligations.WrdBuildsItsFrame := by
  intro a len d s hwf
  obtain ⟨-, h255⟩ := wrd_wf_iff.1 hwf
  have hread (j : Nat) := read_writeFrom_zero s.txbuf (patternFrame len) j
  rw [patternFrame_length] at hread
  refine ⟨_, exec_wrd hwf, rfl, len_succ_toNat h255, ?control, fun j h1 hj => ?pattern, fun j hj => ?rest⟩
  case control => exact (hread 0).trans (if_pos (by omega))
  case pattern => exact ((hread j).trans (if_pos (by omega))).trans (patternFrame_get len h1 hj)
  case rest => exact (hread j).trans (if_neg (by omega))

/-- Settles O17: the bytes of the raw frame stand in `txbuf` from index 0 on. -/
theorem wrrBuildsItsFrame : Obligations.WrrBuildsItsFrame := by
  intro a len ptr d s hwf
  obtain ⟨-, -, hrom⟩ := wrr_wf_iff.1 hwf
  have hread (j : Nat) := read_writeFrom_zero s.txbuf (rawFrame s.byteRom ptr len) j
  rw [rawFrame_length _ _ _ hrom] at hread
  refine ⟨_, exec_wrr hwf, rfl, fun j hj => ?payload, fun j hj => ?rest⟩
  case payload => exact ((hread j).trans (if_pos hj)).trans (romBytes_get _ _ _ j hj)
  case rest => exact (hread j).trans (if_neg (by omega))

/-- The unused fields of END, WRD and RDR are 0 in `SCRIPT_ROM` (R40, R98). -/
theorem scriptRomReset_unused : ∀ k : Fin 32,
    ((stepKind scriptRomReset[k.val]).toNat = 0 → scriptRomReset[k.val] = 0#32) ∧
      ((stepKind scriptRomReset[k.val]).toNat = 2 ∨ (stepKind scriptRomReset[k.val]).toNat = 4 →
        stepPtr scriptRomReset[k.val] = 0#8) := by decide

/-- Every word of the reset table is the word of an instruction inside the bounds of R98 (R40). -/
theorem scriptRomReset_decodes {w : StepWord} (h : w ∈ scriptRomReset.toList) :
    ∃ i, decodeStep w = .ok i ∧ i.wf = true ∧ encode i = .step w := by
  obtain ⟨k, hk, rfl⟩ := Vector.getElem_of_mem (Vector.mem_toList_iff.1 h)
  have hok := scriptRomReset_wordOk ⟨k, hk⟩
  obtain ⟨hend, hptr⟩ := scriptRomReset_unused ⟨k, hk⟩
  cases hi : decodeStep scriptRomReset[k] with
  | ok i => exact ⟨i, rfl, wf_of_wordOk hok hi, encode_decodeStep hi hend hptr⟩
  | error e => simp [wordOk, hi] at hok

/-- Settles O6: the bounds, the frame that each kind starts inside them, the decoding of each kind, and the reset
table. -/
theorem stepFieldBounds : Obligations.StepFieldBounds := by
  refine ⟨fun a len ptr d => ?wrcBounds, fun _ _ _ => wrd_wf_iff, fun a len ptr d => ?wrrBounds,
    fun _ _ _ => rdr_wf_iff, fun rom a len ptr d h => ?commandLength, patternFrame_length,
    fun rom a len ptr d h => ?rawLength, fun a len ptr d s h => ?wrc, fun a len d s h => ?wrd,
    fun a len ptr d s h => ?wrr, fun a len d s h => ?rdr, fun _ => ⟨_, rfl, rfl, rfl, rfl⟩, fun _ => decodeStep_end,
    fun _ => decodeStep_wrc, fun _ => decodeStep_wrd, fun _ => decodeStep_wrr, fun _ => decodeStep_rdr,
    fun w v hw hv => ?ignoredByEnd, fun w v hw hv ha hl hd => ?ignoredPtr, fun _ => scriptRomReset_decodes⟩
  case wrcBounds => rw [wrc_wf_iff]; omega
  case wrrBounds => rw [wrr_wf_iff]; omega
  case commandLength =>
    obtain ⟨-, -, hrom⟩ := wrc_wf_iff.1 h
    exact commandFrame_length rom ptr len hrom
  case rawLength =>
    obtain ⟨-, -, hrom⟩ := wrr_wf_iff.1 h
    exact rawFrame_length rom ptr len hrom
  case wrc =>
    obtain ⟨-, h255, -⟩ := wrc_wf_iff.1 h
    have hlen := len_succ_toNat h255
    exact ⟨_, exec_wrc h, hlen, show (len + 1#9).toNat ≤ 256 by omega⟩
  case wrd =>
    obtain ⟨-, h255⟩ := wrd_wf_iff.1 h
    have hlen := len_succ_toNat h255
    exact ⟨_, exec_wrd h, hlen, show (len + 1#9).toNat ≤ 256 by omega⟩
  case wrr =>
    obtain ⟨h1, h256, -⟩ := wrr_wf_iff.1 h
    exact ⟨_, exec_wrr h, rfl, h1, h256⟩
  case rdr =>
    obtain ⟨h1, h256⟩ := rdr_wf_iff.1 h
    exact ⟨_, exec_rdr h, rfl, h1, h256⟩
  case ignoredByEnd => rw [decodeStep_end hw, decodeStep_end (hv ▸ hw)]
  case ignoredPtr =>
    rcases hw with hw | hw
    · rw [decodeStep_wrd hw, decodeStep_wrd (hv ▸ hw), ha, hl, hd]
    · rw [decodeStep_rdr hw, decodeStep_rdr (hv ▸ hw), ha, hl, hd]

/-! ### Malformed scripts (R98, R104) -/

/-- A step outside the bounds of R98 is refused by its own meaning. -/
theorem exec_malformed {i : Instr} (h : i.wf = false) (s : State) : exec i s = .refused .malformedStep := by
  cases i with
  | wrc a len ptr d => exact if_neg (Bool.eq_false_iff.1 h)
  | wrd a len d => exact if_neg (Bool.eq_false_iff.1 h)
  | wrr a len ptr d => exact if_neg (Bool.eq_false_iff.1 h)
  | rdr a len d => exact if_neg (Bool.eq_false_iff.1 h)
  | endScript | write | read | ctrlCmd | ctrlData | go | reqWrite | reqRead => cases h

/-- In `Q_FETCH` a calm step performs the step word at `pc`, at either level (R164, R165; log entry 31). -/
theorem step_of_fetch_at_level {s : State} (hc : s.calm) (hp : s.paramsOk) (hq : s.seqState = .fetch) :
    step s = mapNext advancePorts (fetchStep s) := by
  cases hl : s.level with
  | symbol => exact step_of_fetch hc hl hq
  | line =>
    rw [step_of_calm_busy hc (by simp [State.busy, hq])]
    simp only [blockStep, hl, hp hl, if_true, lineStep, hq]

/-- Settles O10: a step, a fetch and a GO look before they act, and so does the end of a step's frame. -/
theorem malformedScriptsRefused : Obligations.MalformedScriptsRefused := by
  refine ⟨fun _ s h => exec_malformed h s, fun s hc hp hq hk => ?reserved, fun s sel hb ht => ?table,
    fun s hc hl hq hm he hpc => ?overrun⟩
  case reserved =>
    rw [step_of_fetch_at_level hc hp hq, fetchStep, decodeStep_reserved hk]
    rfl
  case table => simp only [exec, execGo, hb, ht, Bool.false_eq_true, if_false]
  case overrun =>
    have hstop : stopFrame s = .refused .scriptOverrun := by
      simp only [stopFrame, pendingResult_ok.2 he, handOver, emit_seqState, hq, stepDone, emit_pc, hpc, if_true]
    rw [step_of_mft hc hl (.inl hq), mftStep, hm]
    simp only [hstop, mapNext]

/-! ### The bytes of a frame (R91, R94, R106, R125, R126) -/

theorem decodeAddr_frameAddrByte (s : State) : decodeAddr s.frameAddrByte = addressInstr s.fAddr s.fRw := by
  rw [frameAddrByte_decode]
  cases s.fRw <;> rfl

/-- Settles O13: MFT decodes the byte that it drives and runs what it decodes to. -/
theorem stepRunsFrameBytes : Obligations.StepRunsFrameBytes := by
  intro s hc hl hq
  rw [step_of_mft hc hl hq]
  refine ⟨fun hm => ⟨decodeAddr_frameAddrByte s, ?_⟩, fun b i hm hz hb hi => ?_⟩
  · simp only [mftStep, hm, decodeAddr_frameAddrByte]
  · have hb0 : Memory.read s.txbuf (0#9 : Count).toNat = some b := hb
    simp only [mftStep, hm, dataStep, hb0, hz, if_true, hi]

/-- The data slot of the byte `b`, when the environment answers `x` to it (R126, R129, R136 to R138). -/
theorem txSlot_of_answer {b : Byte} {s : State} {x : WriteAnswer} {e : Env} (h : s.env.askWrite s.trace b = (x, e)) :
    txSlot b s = slotResult b (s.byteIdx + 1#9) x dataAcked { s with env := e } := by
  rw [txSlot_eq, h]

/-- Settles O24: a control byte is to MFT an ordinary data byte. -/
theorem controlByteSlotByAnswer : Obligations.ControlByteSlotByAnswer := fun _ _ _ =>
  ⟨fun h => congrArg Host.Outcome.next (txSlot_of_answer h), fun h => congrArg Host.Outcome.next (txSlot_of_answer h)⟩

/-- Settles O25: in `M_TX` a step is the slot of the byte in hand. -/
theorem dataSlotByAnswer : Obligations.DataSlotByAnswer := by
  intro s b x e hc hl hq hm hb h
  have hslot := slot_tx hc hl hq hm hb
  rwa [SlotStep, h] at hslot

/-! ### Premises along a run (R14; log entry 20) -/

section
variable {P Q : State → Prop} {m n : Nat} {s t u : State}

theorem Along.head (h : Along (n + 1) P s) : P s := h 0 s (by omega) rfl

theorem Along.of_le (h : Along n P s) (hmn : m ≤ n) : Along m P s := fun k t hk => h k t (by omega)

theorem Along.imp (h : Along n P s) (hpq : ∀ t, P t → Q t) : Along n Q s := fun k t hk ht => hpq t (h k t hk ht)

theorem Along.tail (h : Along (n + 1) P s) (hs : step s = .next t) : Along n P t := fun k u hk hu =>
  h (k + 1) u (by omega) (by rw [run_succ k s t hs, hu])

/-- What holds along a run holds along the rest of it. -/
theorem Along.after (h : Along (m + n) P s) (hr : run m s = .next t) : Along n P t := fun k u hk hu =>
  h (m + k) u (by omega) (by rw [run_add hr, hu])

end

/-! ### Slots that are done -/

/-- The state after slots that gave the events `es`: the frame has come to its data byte `i` and to `m`, `rxbuf` is
`rx`, and the environment has moved on to `e`. -/
def slotsDone (es : List Event) (i : Count) (m : MftState) (rx : Memory) (e : Env) (s : State) : State :=
  { s with env := e, trace := s.trace ++ es, byteIdx := i, mftState := m, rxbuf := rx }

/-- MFT works on a frame operation to `a` at symbol level, undisturbed by the host. -/
structure InFrame (a : BusAddr) (s : State) : Prop where
  undisturbed : s.undisturbed
  level : s.level = .symbol
  running : s.seqState = .xfer ∨ s.seqState = .direct
  addr : s.fAddr = a

section
variable {a : BusAddr} {rw : Dir} {b c : Byte} {bs p : List Byte} {s t : State} {es fs : List Event} {i j : Count}
  {m k : MftState} {rx ry : Memory} {e f : Env}

theorem Alike.after_slots (h : Alike t s) : Alike (slotsDone es i m rx e t) (slotsDone es i m rx e s) := by
  obtain ⟨q, l, rfl⟩ := h.elim
  rfl

/-- Slots under a premise, followed by slots under the rest of it, whatever environment those leave. -/
theorem Reaches.followed_by_slots {P : State → Prop} {n n' : Nat} (h : Reaches n s (slotsDone es i m rx e s))
    (hp : Along (n + n') P s)
    (hnext : ∀ t, Alike t (slotsDone es i m rx e s) → t.undisturbed → Along n' P t →
      ∃ f, Reaches n' t (slotsDone fs j k ry f t)) :
    ∃ f, Reaches (n + n') s (slotsDone (es ++ fs) j k ry f s) := by
  obtain ⟨t, hrun, hat, hu, hb⟩ := h
  obtain ⟨f, hr⟩ := hnext t hat hu (hp.after hrun)
  have htwice : slotsDone fs j k ry f (slotsDone es i m rx e s) = slotsDone (es ++ fs) j k ry f s := by
    simp only [slotsDone, List.append_assoc]
  exact ⟨f, .from_run hrun hb (hr.alike (htwice ▸ hat.after_slots))⟩

theorem InFrame.calm (h : InFrame a s) : s.calm := undisturbed_calm h.undisturbed

theorem InFrame.busy (h : InFrame a s) : s.busy = true := busy_of_running h.running

theorem InFrame.alike (h : InFrame a s) (ha : Alike t s) (hu : t.undisturbed) : InFrame a t :=
  ⟨hu, by rw [ha]; exact h.level, by rw [ha]; exact h.running, by rw [ha]; exact h.addr⟩

theorem InFrame.after_slots (h : InFrame a s) : InFrame a (slotsDone es i m rx e s) :=
  ⟨h.undisturbed, h.level, h.running, h.addr⟩

/-- A step of a frame that does slots. -/
theorem InFrame.reaches_one (h : InFrame a s) (hs : step s = .next (advancePorts (slotsDone es i m rx e s))) :
    Reaches 1 s (slotsDone es i m rx e s) := .one h.busy h.undisturbed hs

/-- The data bytes `bs` of a frame to `a` are left to be sent or received (R126, R133). -/
structure BytesLeft (a : BusAddr) (bs : List Byte) (s : State) : Prop extends InFrame a s where
  left : s.byteIdx.toNat + bs.length = s.fLen.toNat
  short : s.fLen.toNat ≤ 256

theorem BytesLeft.alike (h : BytesLeft a bs s) (ha : Alike t s) (hu : t.undisturbed) : BytesLeft a bs t :=
  ⟨h.toInFrame.alike ha hu, by rw [ha]; exact h.left, by rw [ha]; exact h.short⟩

theorem BytesLeft.index_succ (h : BytesLeft a (b :: bs) s) : (s.byteIdx + 1#9).toNat = s.byteIdx.toNat + 1 := by
  have hleft := h.left
  have hshort := h.short
  rw [List.length_cons] at hleft
  exact len_succ_toNat (by omega)

/-- The byte in hand is the last of the frame when no other is left (R126, R133). -/
theorem BytesLeft.last_iff (h : BytesLeft a (b :: bs) s) : s.byteIdx.toNat + 1 = s.fLen.toNat ↔ bs = [] := by
  rw [← h.left, List.length_cons, ← List.length_eq_zero_iff]
  omega

theorem BytesLeft.last_index (h : BytesLeft a [b] s) : s.byteIdx + 1#9 = s.fLen :=
  BitVec.eq_of_toNat_eq (h.index_succ.trans h.left)

theorem BytesLeft.next (h : BytesLeft a (b :: bs) s) : BytesLeft a bs (slotsDone es (s.byteIdx + 1#9) m rx e s) := by
  refine ⟨h.toInFrame.after_slots, ?_, h.short⟩
  simp only [slotsDone, h.index_succ, ← h.left, List.length_cons]
  omega

/-! ### Acknowledged bytes of a write frame (R92, R125, R126) -/

/-- The bytes `bs` of a write frame to `a` are left to be sent, and stand in `txbuf` (R126). -/
structure Sending (a : BusAddr) (bs : List Byte) (s : State) : Prop extends BytesLeft a bs s where
  tx : s.mftState = .tx
  loaded : ∀ j, j < bs.length → Memory.read s.txbuf (s.byteIdx.toNat + j) = bs[j]?

theorem Sending.alike (h : Sending a bs s) (ha : Alike t s) (hu : t.undisturbed) : Sending a bs t :=
  ⟨h.toBytesLeft.alike ha hu, by rw [ha]; exact h.tx, by rw [ha]; exact h.loaded⟩

theorem Sending.hand (h : Sending a (b :: bs) s) : Memory.read s.txbuf s.byteIdx.toNat = some b := by
  simpa using h.loaded 0 (by simp)

/-- An acknowledged byte of a write frame is one step, which leads to `M_STOP` after the last (R126). -/
theorem Sending.reaches (h : Sending a (b :: bs) s) (hp : s.Present a) :
    ∃ e, Reaches 1 s (slotsDone [.TX b, .AI .ack] (s.byteIdx + 1#9) (if bs = [] then .stop else .tx) s.rxbuf e s) := by
  have hack : (s.env.askWrite s.trace b).1 = .ack :=
    hp h.addr _ (by simp only [State.writeAnswer, State.driven, h.tx, h.hand, Option.map_some])
  have hslot := slot_tx h.calm h.level h.running h.tx h.hand
  refine ⟨(s.env.askWrite s.trace b).2, h.reaches_one ?_⟩
  simpa only [SlotStep, hack, slotResult, dataAcked, h.last_iff, slotsDone] using hslot

theorem Sending.next (h : Sending a (b :: bs) s) : Sending a bs (slotsDone es (s.byteIdx + 1#9) .tx rx e s) := by
  refine ⟨h.toBytesLeft.next, rfl, fun j hj => ?_⟩
  have hread := h.loaded (j + 1) (Nat.succ_lt_succ hj)
  simp only [slotsDone, h.index_succ]
  rwa [Nat.add_assoc, Nat.add_comm 1 j]

/-- Under `Present(a)` the bytes that are left are sent in as many steps, each acknowledged. -/
theorem Sending.reaches_stop : ∀ {bs : List Byte} {s : State}, Sending a bs s → bs ≠ [] →
    Along bs.length (State.Present a) s →
    ∃ e, Reaches bs.length s (slotsDone (ackedBytes bs) s.fLen .stop s.rxbuf e s)
  | [], _, _, hne, _ => absurd rfl hne
  | [b], s, h, _, hp => by
    rw [← h.last_index]
    exact h.reaches hp.head
  | b :: c :: bs, s, h, _, hp => by
    obtain ⟨e, hr⟩ := h.reaches hp.head
    rw [if_neg (List.cons_ne_nil c bs)] at hr
    rw [List.length_cons, Nat.add_comm] at hp ⊢
    refine hr.followed_by_slots hp fun t ha hu hpt => ?_
    have hnext := h.next.alike ha hu
    obtain ⟨q, l, rfl⟩ := ha.elim
    exact hnext.reaches_stop (List.cons_ne_nil c bs) hpt

/-! ### Bytes of a read frame (R93, R133 to R135) -/

/-- The bytes `bs` of `p` are left to be received in a read frame to `a` (R133). -/
structure Receiving (a : BusAddr) (p bs : List Byte) (s : State) : Prop extends BytesLeft a bs s where
  rx : s.mftState = .rx
  expected : p.drop s.byteIdx.toNat = bs

theorem Receiving.alike (h : Receiving a p bs s) (ha : Alike t s) (hu : t.undisturbed) : Receiving a p bs t :=
  ⟨h.toBytesLeft.alike ha hu, by rw [ha]; exact h.rx, by rw [ha]; exact h.expected⟩

/-- A received byte of a read frame is one step, which leads to `M_STOP` after the last (R133, R135). -/
theorem Receiving.reaches (h : Receiving a p (b :: bs) s) (hp : s.Echo a p) :
    ∃ e, Reaches 1 s (slotsDone [.RX b, .AO (if bs = [] then .nack else .ack)] (s.byteIdx + 1#9)
      (if bs = [] then .stop else .rx) (Memory.write s.rxbuf s.byteIdx.toNat b) e s) := by
  have hbyte : p[s.byteIdx.toNat]? = some b := by
    rw [← Nat.add_zero s.byteIdx.toNat, ← List.getElem?_drop, h.expected]
    rfl
  have hanswer : (s.env.askRead s.trace).1 = .byte b :=
    hp.2 h.addr b _ hbyte (by simp only [State.readAnswer, h.rx])
  have hslot := step_rx h.calm h.level h.running h.rx
  refine ⟨(s.env.askRead s.trace).2, h.reaches_one ?_⟩
  simpa only [hanswer, readResult, receiveByte, emit, State.lastByte, decide_eq_true_eq, h.last_iff, slotsDone]
    using hslot

theorem Receiving.next (h : Receiving a p (b :: bs) s) :
    Receiving a p bs (slotsDone es (s.byteIdx + 1#9) .rx rx e s) := by
  refine ⟨h.toBytesLeft.next, rfl, ?_⟩
  simp only [slotsDone, h.index_succ]
  rw [← List.tail_drop, h.expected, List.tail_cons]

/-- Under `Echo(a, P)` the bytes of `P` that are left are received in as many steps. -/
theorem Receiving.reaches_stop : ∀ {bs : List Byte} {s : State}, Receiving a p bs s → bs ≠ [] →
    Along bs.length (State.Echo a p) s →
    ∃ e, Reaches bs.length s
      (slotsDone (receivedBytes bs) s.fLen .stop (Memory.writeFrom s.rxbuf s.byteIdx.toNat bs) e s)
  | [], _, _, hne, _ => absurd rfl hne
  | [b], s, h, _, hp => by
    rw [← h.last_index]
    exact h.reaches hp.head
  | b :: c :: bs, s, h, _, hp => by
    obtain ⟨e, hr⟩ := h.reaches hp.head
    rw [if_neg (List.cons_ne_nil c bs), if_neg (List.cons_ne_nil c bs)] at hr
    rw [List.length_cons, Nat.add_comm] at hp ⊢
    refine hr.followed_by_slots hp fun t ha hu hpt => ?_
    have hnext := h.next.alike ha hu
    rw [Memory.writeFrom, ← h.index_succ]
    obtain ⟨q, l, rfl⟩ := ha.elim
    exact hnext.reaches_stop (List.cons_ne_nil c bs) hpt

/-! ### From the acceptance of a frame operation to the end of its slots -/

/-- MFT has accepted `(a, rw, n)` (R121). -/
structure Accepted (a : BusAddr) (rw : Dir) (n : Nat) (s : State) : Prop extends InFrame a s where
  start : s.mftState = .start
  dir : s.fRw = rw
  len : s.fLen.toNat = n
  short : n ≤ 256
  first : s.byteIdx = 0#9
  pending : s.mErrKind = .none

/-- Under `Present(a)` the address byte is acknowledged, and the data bytes of its direction follow (R125). -/
theorem InFrame.reaches_address (h : InFrame a s) (hm : s.mftState = .addr) (hp : s.Present a) :
    ∃ e, Reaches 1 s (slotsDone [.TX (addrByte a s.fRw), .AI .ack] s.byteIdx
      (if s.fRw = .write then .tx else .rx) s.rxbuf e s) := by
  obtain rfl := h.addr
  have hack : (s.env.askWrite s.trace s.frameAddrByte).1 = .ack :=
    hp rfl _ (by simp only [State.writeAnswer, State.driven, hm, Option.map_some])
  have hslot := slot_addr h.calm h.level h.running hm
  rw [SlotStep, hack] at hslot
  exact ⟨_, h.reaches_one hslot⟩

/-- Under `Present(a)` the start condition and the address byte are two steps (R123, R125). -/
theorem InFrame.reaches_data (h : InFrame a s) (hm : s.mftState = .start) (hp : Along 2 (State.Present a) s) :
    ∃ e, Reaches 2 s (slotsDone [.S, .TX (addrByte a s.fRw), .AI .ack] s.byteIdx
      (if s.fRw = .write then .tx else .rx) s.rxbuf e s) := by
  have hstart := h.reaches_one (es := [.S]) (i := s.byteIdx) (m := .addr) (rx := s.rxbuf) (e := s.env)
    (step_start h.calm h.level h.running hm)
  refine hstart.followed_by_slots (n' := 1) (fs := [.TX (addrByte a s.fRw), .AI .ack]) hp fun t ha hu hpt => ?_
  have ht := h.after_slots.alike ha hu
  obtain ⟨q, l, rfl⟩ := ha.elim
  exact ht.reaches_address rfl hpt.head

/-- Under `Present(a)` a write frame comes to its stop condition, every byte acknowledged (R92). -/
theorem Accepted.write_reaches_stop (h : Accepted a .write bs.length s) (hne : bs ≠ [])
    (hmem : ∀ j, j < bs.length → Memory.read s.txbuf j = bs[j]?) (hp : Along (2 + bs.length) (State.Present a) s) :
    ∃ e, Reaches (2 + bs.length) s
      (slotsDone (.S :: ackedBytes (addrByte a .write :: bs)) s.fLen .stop s.rxbuf e s) := by
  obtain ⟨e, hr⟩ := h.reaches_data h.start (hp.of_le (by omega))
  rw [h.dir, if_pos rfl] at hr
  refine hr.followed_by_slots (fs := ackedBytes bs) hp fun t ha hu hpt => ?_
  have hin := h.toInFrame.after_slots.alike ha hu
  obtain ⟨q, l, rfl⟩ := ha.elim
  have hsend : Sending a bs _ :=
    ⟨⟨hin, by simp [slotsDone, h.first, h.len], h.len ▸ h.short⟩, rfl, by simpa [slotsDone, h.first] using hmem⟩
  exact hsend.reaches_stop hne hpt

/-- Under `Echo(a, P)` a read frame of `len(P)` bytes comes to its stop condition with `P` received (R93). -/
theorem Accepted.read_reaches_stop (h : Accepted a .read p.length s) (hne : p ≠ [])
    (hp : Along (2 + p.length) (State.Echo a p) s) :
    ∃ e, Reaches (2 + p.length) s
      (slotsDone (.S :: .TX (addrByte a .read) :: .AI .ack :: receivedBytes p) s.fLen .stop
        (Memory.writeFrom s.rxbuf 0 p) e s) := by
  obtain ⟨e, hr⟩ := h.reaches_data h.start ((hp.imp fun _ ht => ht.1).of_le (by omega))
  rw [h.dir, if_neg (by decide)] at hr
  refine hr.followed_by_slots (fs := receivedBytes p) hp fun t ha hu hpt => ?_
  have hin := h.toInFrame.after_slots.alike ha hu
  obtain ⟨q, l, rfl⟩ := ha.elim
  have hreceive : Receiving a p p _ :=
    ⟨⟨hin, by simp [slotsDone, h.first, h.len], h.len ▸ h.short⟩, rfl, by simp [slotsDone, h.first]⟩
  have hstop := hreceive.reaches_stop hne hpt
  simpa [slotsDone, h.first] using hstop

end

/-! ### Complete frames of the host (R92, R93, R163) -/

/-- An undisturbed idle block at symbol level is given a request of a legal length (R163). -/
structure Requesting (s : State) : Prop where
  undisturbed : s.undisturbed
  level : s.level = .symbol
  idle : s.seqState = .idle
  noGo : s.ports.go = false
  valid : s.ports.reqValid = true
  low : 1 ≤ s.ports.reqLen.toNat
  high : s.ports.reqLen.toNat ≤ 256

/-- The state after the acceptance of the request on the ports. -/
def requested (s : State) : State :=
  frameAccepted s.ports.reqAddr s.ports.reqRw s.ports.reqLen { clearStatus (hostWrite s) with seqState := .direct }

section
variable {a : BusAddr} {rw : Dir} {n k : Nat} {s t : State} {es : List Event} {i : Count} {rx : Memory} {e : Env}

/-- The request is accepted in one step (R121, R163). -/
theorem Requesting.step_eq (h : Requesting s) : step s = .next (advancePorts (requested s)) := by
  have hp : s.paramsOk := fun hline => absurd (h.level.symm.trans hline) (by decide)
  have hb : ¬ (hostWrite s).busy = true := by simp [State.busy, h.idle]
  obtain ⟨-, hwrite, hread, -⟩ := stepRunsHostCommand s (undisturbed_calm h.undisturbed) hp h.idle
  cases hrw : s.ports.reqRw with
  | write =>
    rw [hwrite h.noGo h.valid hrw, exec, execReqWrite, if_neg hb, acceptReq, startMft_accepts .write h.low h.high,
      mapNext, requested, hrw]
  | read =>
    rw [hread h.noGo h.valid hrw, exec, execReqRead, if_neg hb, acceptReq, startMft_accepts .read h.low h.high,
      mapNext, requested, hrw]

theorem Accepted.alike (h : Accepted a rw n s) (ha : Alike t s) (hu : t.undisturbed) : Accepted a rw n t := by
  have hin := h.toInFrame.alike ha hu
  obtain ⟨q, l, rfl⟩ := ha.elim
  exact ⟨hin, h.start, h.dir, h.len, h.short, h.first, h.pending⟩

theorem Requesting.accepted (h : Requesting s) :
    Accepted s.ports.reqAddr s.ports.reqRw s.ports.reqLen.toNat (advancePorts (requested s)) := by
  have hu : (requested s).undisturbed := by simpa [State.undisturbed, requested, frameAccepted] using h.undisturbed
  have hl : (requested s).level = .symbol := by simpa [requested, frameAccepted] using h.level
  have hacc : Accepted s.ports.reqAddr s.ports.reqRw s.ports.reqLen.toNat (requested s) :=
    ⟨⟨hu, hl, .inr rfl, rfl⟩, rfl, rfl, rfl, h.high, rfl, rfl⟩
  exact hacc.alike (advancePorts_alike _) (undisturbed_advance hu)

/-- The stop condition of a request without a pending error ends the run with success (R130, R163). -/
theorem InFrame.reaches_end (h : InFrame a s) (hq : s.seqState = .direct) (hm : s.mftState = .stop)
    (he : s.mErrKind = .none) : Reaches 1 s (runDone { emit [.P] s with mftState := .idle }) := by
  have hstop : stopFrame s = .next (runDone { emit [.P] s with mftState := .idle }) := by
    simp only [stopFrame, pendingResult_ok.2 he, handOver, emit_seqState, hq]
  refine .one h.busy h.undisturbed ?_
  rw [step_of_mft h.calm h.level h.running, mftStep, hm]
  simp only [hstop, mapNext]

/-- A request whose slots are done without an error ends with success after the stop condition. -/
theorem Accepted.reaches_end (h : Accepted a rw n s) (hq : s.seqState = .direct)
    (hr : Reaches k s (slotsDone es i .stop rx e s)) :
    Reaches (k + 1) s (runDone (slotsDone (es ++ [.P]) i .idle rx e s)) := by
  refine hr.trans fun t ha hu => ?_
  have hin := h.toInFrame.after_slots.alike ha hu
  obtain ⟨q, l, rfl⟩ := ha.elim
  refine (hin.reaches_end hq rfl h.pending).alike ?_
  simp only [Alike, runDone, slotsDone, emit, List.append_assoc]

/-- A request whose slots are done without an error: its whole run, and what that leaves (R163). -/
theorem Requesting.run_ends (h : Requesting s)
    (hr : Reaches k (advancePorts (requested s)) (slotsDone es i .stop rx e (advancePorts (requested s)))) :
    ∃ t, run (k + 2) s = .next t ∧ t.trace = s.trace ++ (es ++ [.P]) ∧ t.busy = false ∧ t.done = true ∧
      t.failed = false ∧ t.errKind = .none ∧ t.pc = s.pc ∧ t.sel = s.sel ∧ t.rxbuf = rx := by
  have hq : (advancePorts (requested s)).seqState = .direct := by rw [advancePorts_seqState]; rfl
  obtain ⟨t, hrun, ha, -⟩ := h.accepted.reaches_end hq hr
  refine ⟨t, (run_succ (k + 1) s _ h.step_eq).trans hrun, ?_⟩
  rw [ha.busy, ha]
  simp [runDone, slotsDone, requested, frameAccepted, State.busy]

end

theorem ackedBytes_length (bs : List Byte) : (ackedBytes bs).length = 2 * bs.length := by
  induction bs with
  | nil => rfl
  | cons b bs ih => simp only [ackedBytes, List.length_cons, ih]; omega

/-- The shape of a complete write frame (R92). -/
theorem writeFrame_shape (a : BusAddr) (bs : List Byte) : (writeFrame a bs).length = 3 + 2 * bs.length + 1 ∧
    (writeFrame a bs).head? = some .S ∧ (writeFrame a bs).getLast? = some .P := by
  refine ⟨?_, rfl, ?_⟩
  · simp only [writeFrame, List.length_cons, List.length_append, List.length_nil, ackedBytes_length]
    omega
  · rw [writeFrame, ← List.cons_append, List.getLast?_concat]

/-- Settles O48: the request is accepted, its slots are done, each byte acknowledged, and the stop condition ends the
run. -/
theorem hostWriteWhenPresent : Obligations.HostWriteWhenPresent := by
  refine ⟨fun s bs hu hl hq hg hv hrw hlen h1 h256 hmem hp => ?_, writeFrame_shape⟩
  have h : Requesting s := ⟨hu, hl, hq, hg, hv, hlen ▸ h1, hlen ▸ h256⟩
  have hacc := h.accepted
  rw [hrw, ← hlen] at hacc
  have hloaded : ∀ j, j < bs.length → Memory.read (advancePorts (requested s)).txbuf j = bs[j]? := by
    rw [advancePorts_txbuf]
    exact hmem
  have hpresent := (hp.tail h.step_eq).of_le (m := 2 + bs.length) (by omega)
  obtain ⟨e, hr⟩ := hacc.write_reaches_stop (List.ne_nil_of_length_pos h1) hloaded hpresent
  obtain ⟨t, hrun, htr, hb, hd, hf, he, hpc, hsel, -⟩ := h.run_ends hr
  exact ⟨t, by rw [← hrun, Nat.add_comm 2], htr, hb, hd, hf, he, hpc, hsel⟩

/-- Settles O49: the request is accepted, its slots are done, each byte of `P` received, and the stop condition ends the
run. -/
theorem hostReadWhenEcho : Obligations.HostReadWhenEcho := by
  intro s p hu hl hq hg hv hrw hlen h1 h256 hp
  have h : Requesting s := ⟨hu, hl, hq, hg, hv, hlen ▸ h1, hlen ▸ h256⟩
  have hacc := h.accepted
  rw [hrw, ← hlen] at hacc
  have hecho : Along (p.length + 3) (State.Echo s.ports.reqAddr p) (advancePorts (requested s)) :=
    (hp.imp fun _ ht => ht.1).tail h.step_eq
  obtain ⟨e, hr⟩ := hacc.read_reaches_stop (List.ne_nil_of_length_pos h1) (hecho.of_le (by omega))
  obtain ⟨t, hrun, htr, hb, hd, hf, he, hpc, hsel, hrx⟩ := h.run_ends hr
  have hkept : (advancePorts (requested s)).rxbuf = s.rxbuf := by simp [requested, frameAccepted]
  refine ⟨t, by rw [← hrun, Nat.add_comm 2], htr, hb, hd, hf, he, hpc, hsel, fun j => ?_⟩
  rw [hrx, hkept, read_writeFrom_zero]

end Sys2Proof.Machine
end

section
/-! PROOFS. The statements of 40_frame_transceiver.md: how a frame operation is accepted (R121, R163, R170), its slots
and its end at symbol level (R123 to R138, R163), the ticks before a symbol's end at line level (R150 to R154), what the
instructions leave unchanged (R121, R125 to R127, R161 to R170), waiting in a slot (R136), and that a REQ does what its
frame operation does as one action (R124, R131). -/

namespace Sys2Proof.Machine

open Sys2Proof

/-! ### Accepting a frame operation (R121, R162, R163, R170) -/

/-- Settles O18: RDR inside its bounds starts a read. -/
theorem rdrStartsARead : Obligations.RdrStartsARead := fun _ _ _ _ => exec_rdr

section
variable {a : BusAddr} {rw : Dir} {len : Count} {s t : State}

theorem exec_reqWrite_idle (hb : s.busy = false) : exec (.reqWrite a len) s = .next (acceptReq .write a len s) :=
  if_neg (Bool.eq_false_iff.1 hb)

theorem exec_reqRead_idle (hb : s.busy = false) : exec (.reqRead a len) s = .next (acceptReq .read a len s) :=
  if_neg (Bool.eq_false_iff.1 hb)

/-- While `busy` = 1 a REQ is ignored (R162). -/
theorem exec_reqWrite_busy (hb : s.busy = true) : exec (.reqWrite a len) s = .next s := if_pos hb

theorem exec_reqRead_busy (hb : s.busy = true) : exec (.reqRead a len) s = .next s := if_pos hb

/-- A request of a legal length is accepted with the status cleared (R163). -/
theorem acceptReq_accepts (h1 : 1 ≤ len.toNat) (h256 : len.toNat ≤ 256) :
    acceptReq rw a len s = frameAccepted a rw len { clearStatus s with seqState := .direct } :=
  startMft_accepts rw h1 h256

end

/-- Settles O20: an idle block accepts the request, and a busy one ignores it. -/
theorem reqStartsAFrame : Obligations.ReqStartsAFrame := by
  refine ⟨fun s a len hb h1 h256 => ⟨?_, ?_⟩, fun s a len hb => ⟨exec_reqWrite_busy hb, exec_reqRead_busy hb⟩⟩
  · rw [exec_reqWrite_idle hb, acceptReq_accepts h1 h256]
    rfl
  · rw [exec_reqRead_idle hb, acceptReq_accepts h1 h256]
    rfl

/-! ### The slots and the end of a frame at symbol level (R123 to R138, R163) -/

/-- WRITE and READ are the address slot of their frame (R125; log entry 23). -/
theorem exec_addressInstr (a : BusAddr) (rw : Dir) (s : State) :
    exec (addressInstr a rw) s = .next (addrSlot a rw s) := by
  cases rw <;> rfl

/-- Settles O23: the address slot, by the environment's answer. -/
theorem addressSlotByAnswer : Obligations.AddressSlotByAnswer := by
  intro a rw s x e h
  rw [exec_addressInstr, addrSlot_eq, h]

/-- Settles O26: in `M_RX` a step is the read slot, which stores at `byte_idx` a byte that the environment gives. -/
theorem readSlotByAnswer : Obligations.ReadSlotByAnswer := by
  intro s x e hc hl hq hm h
  have hstep := step_rx hc hl hq hm
  rw [h] at hstep
  refine ⟨_, hstep, ?_⟩
  cases x with
  | byte b =>
    refine ⟨?_, read_write_same _ _ _, fun j hj => read_write_other _ _ _ _ hj⟩
    simp only [readResult, receiveByte, emit, State.lastByte, decide_eq_true_eq]
  | stall => simp only [readResult, stallSlot, abandon_eq]

/-- Settles O28: in `M_START` a step is the start condition. -/
theorem startConditionStep : Obligations.StartConditionStep := fun _ => step_start

/-- In `M_STOP` a calm step drives the stop condition and hands the result over, as the last tick of the symbol does at
line level (R130). -/
theorem step_of_stop {s : State} (hc : s.calm) (hl : s.level = .symbol)
    (hq : s.seqState = .xfer ∨ s.seqState = .direct) (hm : s.mftState = .stop) :
    step s = mapNext advancePorts (symbolEnd s) := by
  rw [step_of_mft hc hl hq]
  simp only [mftStep, symbolEnd, hm]

/-- Settles O29: the stop condition of a REQ run ends it, with the pending error or without one. -/
theorem hostFrameEnds : Obligations.HostFrameEnds := by
  intro s hc hl hq hm
  rw [step_of_stop hc hl (.inr hq) hm]
  refine ⟨fun he => ?_, fun he => ?_⟩
  · rw [symbolEnd_stop_direct hm he hq]
    rfl
  · rw [symbolEnd_stop_failed hm he]
    rfl

/-! ### The ticks before a symbol's end (R150, R152 to R154, R239) -/

/-- The clock line is waited for in the second quarter only (R153). -/
theorem clockUp_of_quarter {s : State} (h : s.quarter ≠ .second) : s.clockUp := fun hq => absurd hq h

/-- The state in which the last tick of a quarter looks at the lines. -/
def lastTick (s : State) : State := { timed s with qTick := 0 }

section
variable {s : State}

@[simp] theorem lastTick_sdaIn : (lastTick s).sdaIn = s.sdaIn := rfl

/-- The last tick of a first quarter leads to the second (R150). -/
theorem step_secondQuarter (h : s.ticking) (hi : s.inTime) (hk : qbitTicks s.params ≤ s.qTick + 1)
    (hq : s.quarter = .first) : step s = .next (advancePorts (nextQuarter .second s)) := by
  rw [step_quarterEnd h hi (clockUp_of_quarter (by simp [hq])) hk]
  simp only [quarterEnd, timed, hq, mapNext, nextQuarter]

/-- The last tick of a third quarter leads to the fourth (R150). -/
theorem step_fourthQuarter (h : s.ticking) (hi : s.inTime) (hk : qbitTicks s.params ≤ s.qTick + 1)
    (hq : s.quarter = .third) : step s = .next (advancePorts (nextQuarter .fourth s)) := by
  rw [step_quarterEnd h hi (clockUp_of_quarter (by simp [hq])) hk]
  simp only [quarterEnd, timed, hq, mapNext, nextQuarter]

/-- The last tick of a second quarter samples the data line (R152, R154). -/
theorem step_sampleBit (h : s.ticking) (hi : s.inTime) (hc : s.clockUp) (hk : qbitTicks s.params ≤ s.qTick + 1)
    (hq : s.quarter = .second) : step s = .next (advancePorts (sampleBit (lastTick s))) := by
  rw [step_quarterEnd h hi hc hk]
  simp only [quarterEnd, timed, hq, mapNext, lastTick]

/-- A sent 1 read back as 0 is arbitration lost (R154). -/
theorem sampleBit_arbitration (hm : s.mftState = .addr ∨ s.mftState = .tx) (h7 : s.shreg.getLsbD 7 = true)
    (hd : s.sdaIn = false) : sampleBit s = runFailed .arbitration s.slotPos [.X] s := by
  rw [sampleBit_sent hm, if_pos (by simp [State.sendingBit, h7, hd]), abandon_eq]

/-- A sent 0, or a 1 read back as 1, goes on (R154). -/
theorem sampleBit_sent_goes_on (hm : s.mftState = .addr ∨ s.mftState = .tx)
    (h : s.shreg.getLsbD 7 = false ∨ s.sdaIn = true) : sampleBit s = { s with quarter := .third } := by
  have hfree : (s.sendingBit && !s.sdaIn) = false := by
    rcases h with h | h
    · rw [State.sendingBit, h, Bool.false_and]
    · rw [h, Bool.not_true, Bool.and_false]
  rw [sampleBit_sent hm, hfree, if_neg Bool.false_ne_true]

end

/-- Settles O56: a tick is one of the four kinds of `countTick_cases`, and at the end of a second quarter `sampleBit`
acts by the symbol in progress. -/
theorem lineSampling : Obligations.LineSampling := by
  intro s h
  obtain ⟨htimeout, hwait, hcount, -⟩ := countTick_cases s
  have hrunning : s.mftState ≠ .idle := by
    obtain ⟨-, -, -, -, hm⟩ := h
    exact hm
  refine ⟨fun ho ht hle => ?timeout, fun hi hq hk hm hc => ?stretched, fun hi hc hk => ?counted,
    fun hi hk => ⟨step_secondQuarter h hi hk, step_fourthQuarter h hi hk⟩, fun hi hc hk hq => ?sampled⟩
  case timeout =>
    rw [step_of_ticking h, htimeout ho ht hle, abandon_eq]
    rfl
  case stretched =>
    rw [step_of_ticking h, hwait hi hrunning hq hk hm hc]
    rfl
  case counted =>
    rw [step_of_ticking h, hcount hi hc hk]
    rfl
  case sampled =>
    rw [step_sampleBit h hi hc hk hq]
    refine ⟨fun hm h7 hd => ?lost, fun hm hd => ?sent, fun hm hd => ?nack, fun hm hd => ?ack, fun hm => ?received,
      fun hm => ?unread⟩
    case lost =>
      rw [sampleBit_arbitration (s := lastTick s) hm h7 hd]
      rfl
    case sent =>
      rw [sampleBit_sent_goes_on (s := lastTick s) hm hd]
      rfl
    case nack =>
      rw [sampleBit_answer (s := lastTick s) hm, lastTick_sdaIn, if_pos hd]
      rfl
    case ack =>
      rw [sampleBit_answer (s := lastTick s) hm, lastTick_sdaIn, hd]
      rfl
    case received =>
      rw [sampleBit_received (s := lastTick s) hm]
      rfl
    case unread =>
      rw [sampleBit_unread (s := lastTick s) hm]
      rfl

/-! ### What the instructions leave unchanged (R121, R125 to R127, R161 to R170, R235) -/

section
variable {s t : State}

/-- Nothing has written a buffer. -/
theorem sameBuffers_of_eq (htx : t.txbuf = s.txbuf) (hrx : t.rxbuf = s.rxbuf) : s.sameBuffers t :=
  ⟨fun j => congrArg (Memory.read · j) htx, fun j => congrArg (Memory.read · j) hrx⟩

/-- A GO that answers is ignored, or starts a script run (R161, R162). -/
theorem exec_go_next {sel : Script} (h : exec (.go sel) s = .next t) : t = s ∨ t = acceptGo sel s := by
  simp only [exec, execGo] at h
  split at h
  · exact .inl (by injection h with h; exact h.symm)
  · split at h
    · exact .inr (by injection h with h; exact h.symm)
    · cases h

/-- A REQ is ignored, or accepted (R162, R163). -/
theorem exec_req_next {a : BusAddr} {len : Count}
    (h : exec (.reqWrite a len) s = .next t ∨ exec (.reqRead a len) s = .next t) :
    t = s ∨ ∃ rw, t = acceptReq rw a len s := by
  cases hb : s.busy with
  | true =>
    rw [exec_reqWrite_busy hb, exec_reqRead_busy hb, or_self] at h
    injection h with h
    exact .inl h.symm
  | false =>
    rw [exec_reqWrite_idle hb, exec_reqRead_idle hb] at h
    rcases h with h | h
    · injection h with h
      exact .inr ⟨.write, h.symm⟩
    · injection h with h
      exact .inr ⟨.read, h.symm⟩

/-- An instruction that answers is inside its bounds (R98, R104). -/
theorem wf_of_exec_next {i : Instr} (h : exec i s = .next t) : i.wf = true := by
  by_contra hwf
  rw [exec_malformed (Bool.eq_false_iff.2 hwf) s] at h
  cases h

end

/-- Settles O58: each of the five either is ignored or makes its own updates. -/
theorem frameOfControlInstructions : Obligations.FrameOfControlInstructions := by
  refine fun s t => ⟨fun h => ?endScript, fun sel h => ?go, fun a len h => ?req, fun a len d h => ?rdr⟩
  case endScript =>
    injection h with h
    subst h
    exact ⟨sameBuffers_of_eq rfl rfl, ⟨rfl, rfl, rfl, rfl, rfl, rfl⟩, rfl⟩
  case go =>
    rcases exec_go_next h with rfl | rfl <;> exact ⟨sameBuffers_of_eq rfl rfl, ⟨rfl, rfl, rfl, rfl, rfl, rfl⟩, rfl⟩
  case req =>
    rcases exec_req_next h with rfl | ⟨rw, rfl⟩
    · exact ⟨sameBuffers_of_eq rfl rfl, ⟨rfl, rfl, rfl, rfl, rfl, rfl⟩, rfl⟩
    · rw [acceptReq]
      rcases startMft_cases a rw len { clearStatus s with seqState := .direct } with ⟨-, -, ht⟩ | ⟨-, ht⟩ <;>
        rw [ht] <;> exact ⟨sameBuffers_of_eq rfl rfl, ⟨rfl, rfl, rfl, rfl, rfl, rfl⟩, rfl⟩
  case rdr =>
    rw [exec_rdr (wf_of_exec_next h)] at h
    injection h with h
    subst h
    exact ⟨sameBuffers_of_eq rfl rfl, ⟨rfl, rfl, rfl, rfl, rfl, rfl⟩, rfl⟩

/-- A write step that answers has stored the data bytes of its frame, as many as `f_len` says, and the frame is accepted
(R165, R167 to R169). -/
theorem exec_writeStep_next {i : Instr} {s t : State}
    (hi : ∃ a len ptr d, i = .wrc a len ptr d ∨ i = .wrd a len d ∨ i = .wrr a len ptr d) (h : exec i s = .next t) :
    ∃ (a : BusAddr) (n : Count) (bs : List Byte), bs.length = n.toNat ∧
      t = frameAccepted a .write n (loadFrame bs { s with seqState := .xfer }) := by
  have hwf := wf_of_exec_next h
  obtain ⟨a, len, ptr, d, rfl | rfl | rfl⟩ := hi
  · obtain ⟨-, h255, hrom⟩ := wrc_wf_iff.1 hwf
    rw [exec_wrc hwf] at h
    injection h with h
    exact ⟨_, _, _, (commandFrame_length _ _ _ hrom).trans (len_succ_toNat h255).symm, h.symm⟩
  · obtain ⟨-, h255⟩ := wrd_wf_iff.1 hwf
    rw [exec_wrd hwf] at h
    injection h with h
    exact ⟨_, _, _, (patternFrame_length len).trans (len_succ_toNat h255).symm, h.symm⟩
  · obtain ⟨-, -, hrom⟩ := wrr_wf_iff.1 hwf
    rw [exec_wrr hwf] at h
    injection h with h
    exact ⟨_, _, _, rawFrame_length _ _ _ hrom, h.symm⟩

/-- Settles O59: the bytes stored are `txbuf[0 .. f_len-1]`. -/
theorem frameOfWriteSteps : Obligations.FrameOfWriteSteps := by
  intro i s t hi h
  obtain ⟨a, n, bs, hlen, rfl⟩ := exec_writeStep_next hi h
  refine ⟨fun j hj => ?_, fun _ => rfl, ⟨rfl, rfl, rfl, rfl, rfl, rfl⟩, rfl⟩
  have hj' : ¬ j < bs.length := hlen ▸ Nat.not_lt.2 hj
  exact (read_writeFrom_zero s.txbuf bs j).trans (if_neg hj')

/-- What a byte slot may write: the environment's state, the trace, the slot registers of MFT, and the registers of an
error that ends the run (R125 to R129, R235). -/
structure ByteSlotFrame (s t : State) : Prop where
  registers : t =
    { s with
      env := t.env, trace := t.trace, mftState := t.mftState, byteIdx := t.byteIdx, mErrKind := t.mErrKind
      mErrPos := t.mErrPos, failed := t.failed, errKind := t.errKind, errPos := t.errPos
      failStep := t.failStep, seqState := t.seqState }
  running : t.mftState ≠ .idle →
    t.failed = s.failed ∧ t.errKind = s.errKind ∧ t.errPos = s.errPos ∧ t.failStep = s.failStep ∧
      t.seqState = s.seqState

section
variable {s t : State} {b : Byte} {pos : Count} {x : WriteAnswer} {acked : State → State} {e : Env}

theorem ByteSlotFrame.sameBuffers (h : ByteSlotFrame s t) : s.sameBuffers t := by
  rw [h.registers]
  exact sameBuffers_of_eq rfl rfl

theorem ByteSlotFrame.sameSurroundings (h : ByteSlotFrame s t) : s.sameSurroundings t := by
  rw [h.registers]
  exact ⟨rfl, rfl, rfl, rfl, rfl, rfl⟩

/-- A slot of a driven byte, if an ACK does no more than move the frame on. -/
theorem slotResult_frame
    (hack : ∀ u, acked u = { u with byteIdx := (acked u).byteIdx, mftState := (acked u).mftState }) :
    ByteSlotFrame s (slotResult b pos x acked { s with env := e }) := by
  have hended {k : ErrKind} : ByteSlotFrame s (runFailed k pos [.X] { s with env := e }) :=
    ⟨rfl, fun h => absurd rfl h⟩
  cases x with
  | ack =>
    rw [slotResult, hack]
    exact ⟨rfl, fun _ => ⟨rfl, rfl, rfl, rfl, rfl⟩⟩
  | nack => exact ⟨rfl, fun _ => ⟨rfl, rfl, rfl, rfl, rfl⟩⟩
  | arbLost => exact hended
  | stall =>
    simp only [slotResult]
    split
    · exact ⟨rfl, fun _ => ⟨rfl, rfl, rfl, rfl, rfl⟩⟩
    · exact hended

theorem slotResult_byteIdx (hack : ∀ u, (acked u).byteIdx = u.byteIdx) (s : State) :
    (slotResult b pos x acked s).byteIdx = s.byteIdx := by
  cases x with
  | ack => exact hack _
  | nack => rfl
  | arbLost => rfl
  | stall => simp only [slotResult]; split <;> rfl

theorem addrSlot_frame (a : BusAddr) (rw : Dir) (s : State) : ByteSlotFrame s (addrSlot a rw s) := by
  rw [addrSlot_eq]
  exact slotResult_frame fun _ => rfl

theorem addrSlot_byteIdx (a : BusAddr) (rw : Dir) (s : State) : (addrSlot a rw s).byteIdx = s.byteIdx := by
  rw [addrSlot_eq, slotResult_byteIdx]
  exact fun _ => rfl

theorem txSlot_frame (b : Byte) (s : State) : ByteSlotFrame s (txSlot b s) := by
  rw [txSlot_eq]
  exact slotResult_frame fun _ => rfl

end

/-- Settles O60: each of the four is an address slot or a data slot. -/
theorem frameOfByteSlots : Obligations.FrameOfByteSlots := by
  intro i s t hi h
  have hframe : ByteSlotFrame s t := by
    obtain ⟨a, rfl | rfl | rfl | rfl⟩ := hi
    all_goals injection h with h; subst h
    · exact addrSlot_frame a .write s
    · exact addrSlot_frame a .read s
    · exact txSlot_frame Config.ctrlCmdByte s
    · exact txSlot_frame Config.ctrlDataByte s
  refine ⟨hframe.sameBuffers, hframe.sameSurroundings, hframe.registers, ?_, hframe.running⟩
  rintro ⟨a, rfl | rfl⟩
  all_goals injection h with h; subst h
  · exact addrSlot_byteIdx a .write s
  · exact addrSlot_byteIdx a .read s

/-! ### Waiting in a slot (R136; log entry 21) -/

/-- A slot of a frame to `a` without a timeout: MFT is about to drive a byte, or to receive one. -/
structure OpenSlot (a : BusAddr) (s : State) : Prop extends InFrame a s where
  noTimeout : s.params.timeoutMs = 0
  slot : s.driven ≠ none ∨ s.mftState = .rx

section
variable {a : BusAddr} {b : Byte} {pos : Count} {acked : State → State} {n : Nat} {s t : State}

theorem OpenSlot.alike {e : Env} (h : OpenSlot a s) (ha : Alike t { s with env := e }) (hu : t.undisturbed) :
    OpenSlot a t := by
  obtain ⟨p, l, rfl⟩ := ha.elim
  exact ⟨⟨hu, h.level, h.running, h.addr⟩, h.noTimeout, h.slot⟩

/-- A byte is driven in `M_ADDR` and in `M_TX` only (R125, R126). -/
theorem driven_eq_some (h : s.driven = some b) :
    (s.mftState = .addr ∧ b = s.frameAddrByte) ∨
    (s.mftState = .tx ∧ Memory.read s.txbuf s.byteIdx.toNat = some b) := by
  unfold State.driven at h
  split at h
  · next hm => exact .inl ⟨hm, (Option.some.inj h).symm⟩
  · next hm => exact .inr ⟨hm, h⟩
  · cases h

/-- A slot in which the environment stalls, without a timeout, moves on the environment alone. -/
theorem SlotStep.of_stall (h : SlotStep b pos acked s) (ht : s.params.timeoutMs = 0)
    (hs : (s.env.askWrite s.trace b).1 = .stall) :
    step s = .next (advancePorts { s with env := (s.env.askWrite s.trace b).2 }) := by
  rw [SlotStep, hs] at h
  simpa only [slotResult, ht, if_true] using h

theorem OpenSlot.step_of_stall (h : OpenSlot a s) (hs : s.Stalls) :
    ∃ e, step s = .next (advancePorts { s with env := e }) := by
  rcases h.slot with hd | hm
  · obtain ⟨b, hb⟩ := Option.ne_none_iff_exists'.1 hd
    have hstall : (s.env.askWrite s.trace b).1 = .stall :=
      hs.1 _ (by rw [State.writeAnswer, hb, Option.map_some])
    rcases driven_eq_some hb with ⟨hm, rfl⟩ | ⟨hm, hread⟩
    · exact ⟨_, (slot_addr h.calm h.level h.running hm).of_stall h.noTimeout hstall⟩
    · exact ⟨_, (slot_tx h.calm h.level h.running hm hread).of_stall h.noTimeout hstall⟩
  · have hstall : (s.env.askRead s.trace).1 = .stall := hs.2 _ (by simp only [State.readAnswer, hm])
    have hstep := step_rx h.calm h.level h.running hm
    simp only [hstall, readResult, stallSlot, h.noTimeout, if_true] at hstep
    exact ⟨_, hstep⟩

/-- While the environment stalls the slot waits, by induction on the number of steps. -/
theorem OpenSlot.waits (n : Nat) :
    ∀ {s : State}, OpenSlot a s → Along n State.Stalls s → ∃ e, Reaches n s { s with env := e } := by
  induction n with
  | zero => exact fun {s} h _ => ⟨s.env, .zero h.undisturbed⟩
  | succ n ih =>
    intro s h hs
    obtain ⟨e, hstep⟩ := h.step_of_stall hs.head
    have ha := advancePorts_alike { s with env := e }
    have hnext := h.alike ha (undisturbed_advance (s := { s with env := e }) h.undisturbed)
    obtain ⟨f, hr⟩ := ih hnext (hs.tail hstep)
    exact ⟨f, (Reaches.cons h.busy hstep hr).alike (ha.env f)⟩

end

/-- Settles O44: the run waits in its slot, and the environment alone has moved on. -/
theorem stallWithoutTimeoutWaits : Obligations.StallWithoutTimeoutWaits := by
  intro n s hu hl hq ht hslot hs
  have h : OpenSlot s.fAddr s := ⟨⟨hu, hl, hq, rfl⟩, ht, hslot⟩
  obtain ⟨e, t, hrun, ha, -, -⟩ := h.waits n hs
  refine ⟨t, hrun, ?_, ha.busy.trans h.busy⟩
  obtain ⟨p, l, rfl⟩ := ha.elim
  rfl

/-! ### A REQ and its frame operation as one action (R124, R131, R163) -/

/-- An undisturbed idle block at symbol level is given a request, of whatever length (R163). -/
structure GivenRequest (s : State) : Prop where
  undisturbed : s.undisturbed
  level : s.level = .symbol
  idle : s.seqState = .idle
  noGo : s.ports.go = false
  valid : s.ports.reqValid = true

/-- `t` is a state in the run of the request that the ports of `s` give, before its end (R163). -/
structure RequestRuns (s t : State) : Prop where
  level : t.level = .symbol
  direct : t.seqState = .direct
  done : t.done = false
  failed : t.failed = false
  errKind : t.errKind = .none
  errPos : t.errPos = 0#9
  failStep : t.failStep = 0#5
  txbuf : t.txbuf = (hostWrite s).txbuf
  pc : t.pc = s.pc
  sel : t.sel = s.sel

/-- What `RequestRuns` reads of a state. -/
def State.requestView (t : State) :=
  (t.level, t.seqState, t.done, t.failed, t.errKind, t.errPos, t.failStep, t.txbuf, t.pc, t.sel)

/-- What the status registers show of a result (R163, R235). -/
def State.shows (t : State) : FrameResult → Prop
  | .ok => t.done = true ∧ t.failed = false ∧ t.errKind = .none ∧ t.errPos = 0#9
  | .err k pos => t.done = false ∧ t.failed = true ∧ t.errKind = k ∧ t.errPos = pos

/-- The run of the request that the ports of `s` give has ended in `t` as the frame operation ends, which has the result
`r` and leaves `u` (R163). -/
structure RequestEnded (r : FrameResult) (u s t : State) : Prop where
  idle : t.seqState = .idle
  trace : t.trace = u.trace
  env : t.env = u.env
  rxbuf : t.rxbuf = u.rxbuf
  txbuf : t.txbuf = (hostWrite s).txbuf
  pc : t.pc = s.pc
  sel : t.sel = s.sel
  failStep : t.failStep = 0#5
  result : t.shows r

section
variable {r : FrameResult} {s t u v w x : State} {n : Nat}

theorem RequestEnded.alike (h : RequestEnded r u s v) (ha : Alike t v) : RequestEnded r u s t := by
  obtain ⟨p, l, rfl⟩ := ha.elim
  exact ⟨h.idle, h.trace, h.env, h.rxbuf, h.txbuf, h.pc, h.sel, h.failStep, h.result⟩

theorem RequestRuns.congr (h : RequestRuns s v) (hv : t.requestView = v.requestView) : RequestRuns s t := by
  simp only [State.requestView, Prod.mk.injEq] at hv
  obtain ⟨hl, hq, hd, hf, hk, he, hi, htx, hpc, hsel⟩ := hv
  exact ⟨hl.trans h.level, hq.trans h.direct, hd.trans h.done, hf.trans h.failed, hk.trans h.errKind,
    he.trans h.errPos, hi.trans h.failStep, htx.trans h.txbuf, hpc.trans h.pc, hsel.trans h.sel⟩

/-- The accepted request, in its first state. -/
theorem GivenRequest.runs (h : GivenRequest s) : RequestRuns s (advancePorts (requested s)) := by
  have hl := h.level
  constructor <;> simp [requested, frameAccepted, hl]

/-- The stop condition ends a request's run with what is pending (R130, R163). -/
theorem RequestRuns.stops (h : RequestRuns s t) (hu : t.undisturbed) (hm : t.mftState = .stop)
    (htr : u.trace = t.trace ++ [.P]) (henv : t.env = u.env) (hrx : t.rxbuf = u.rxbuf) :
    ∃ x, Reaches 1 t x ∧ RequestEnded (pendingResult t) u s x := by
  have hb : t.busy = true := busy_of_running (.inr h.direct)
  obtain ⟨hok, herr⟩ := hostFrameEnds t (undisturbed_calm hu) h.level h.direct hm
  by_cases hk : t.mErrKind = .none
  · rw [pendingResult_ok.2 hk]
    exact ⟨_, .one hb (by exact hu) (hok hk), rfl, htr.symm, henv, hrx, h.txbuf, h.pc, h.sel, h.failStep, rfl, h.failed,
      h.errKind, h.errPos⟩
  · rw [pendingResult_err.2 ⟨hk, rfl, rfl⟩]
    exact ⟨_, .one hb (by exact hu) (herr hk), rfl, htr.symm, henv, hrx, h.txbuf, h.pc, h.sel, if_pos h.direct, h.done,
      rfl, rfl, rfl⟩

/-- The acceptance of a request leaves alone what its frame operation acts on. -/
theorem requested_same (s : State) :
    (advancePorts (requested s)).env = s.env ∧ (advancePorts (requested s)).trace = s.trace ∧
      (advancePorts (requested s)).params = s.params ∧ (advancePorts (requested s)).rxbuf = s.rxbuf := by
  simp [requested, frameAccepted]

/-- From the end of its slots a request's run comes to its end: by the stop condition, unless it has ended without one
(R130, R137, R138, R163). -/
theorem RequestRuns.ends (h : RequestRuns s v) (he : SlotsEnd r u v w) (ha : Alike t w) (hu : t.undisturbed) :
    ∃ n x, Reaches n t x ∧ RequestEnded r u s x := by
  cases r with
  | ok =>
    obtain ⟨hk, tr, bi, htr, rfl⟩ := he
    have hruns : RequestRuns s t := h.congr (by rw [ha]; rfl)
    have hend := hruns.stops (u := u) hu (by rw [ha]) (by rw [ha]; exact htr) (by rw [ha]) (by rw [ha])
    rw [pendingResult_ok.2 (by rw [ha]; exact hk)] at hend
    exact ⟨1, hend⟩
  | err k pos =>
    rcases he with ⟨hk, tr, bi, htr, rfl⟩ | ⟨-, bi, rfl⟩
    · have hruns : RequestRuns s t := h.congr (by rw [ha]; rfl)
      have hend := hruns.stops (u := u) hu (by rw [ha]) (by rw [ha]; exact htr) (by rw [ha]) (by rw [ha])
      rw [pendingResult_err.2 ⟨hk, by rw [ha], by rw [ha]⟩] at hend
      exact ⟨1, hend⟩
    · refine ⟨0, t, .zero hu, RequestEnded.alike ?_ ha⟩
      exact ⟨rfl, rfl, rfl, rfl, h.txbuf, h.pc, h.sel, by simp only [failStepOf, h.direct], h.done, rfl, rfl, rfl⟩

/-- A request of an illegal length ends at once with CapacityError (R121, R234). -/
theorem GivenRequest.step_illegal (h : GivenRequest s)
    (hlen : s.ports.reqLen.toNat = 0 ∨ 256 < s.ports.reqLen.toNat) :
    step s = .next (advancePorts (abortRun .capacity 0#9 { clearStatus (hostWrite s) with seqState := .direct })) := by
  have hp : s.paramsOk := fun hline => absurd (h.level.symm.trans hline) (by decide)
  have hb : (hostWrite s).busy = false := by rw [hostWrite_busy, busy_eq_false, h.idle]
  have hill (rw : Dir) : acceptReq rw s.ports.reqAddr s.ports.reqLen (hostWrite s) =
      abortRun .capacity 0#9 { clearStatus (hostWrite s) with seqState := .direct } := by
    rcases startMft_cases s.ports.reqAddr rw s.ports.reqLen { clearStatus (hostWrite s) with seqState := .direct }
      with ⟨h1, h256, -⟩ | ⟨-, ht⟩
    · omega
    · exact ht
  obtain ⟨-, hwrite, hread, -⟩ := stepRunsHostCommand s (undisturbed_calm h.undisturbed) hp h.idle
  cases hrw : s.ports.reqRw with
  | write => rw [hwrite h.noGo h.valid hrw, exec_reqWrite_idle hb, hill, mapNext]
  | read => rw [hread h.noGo h.valid hrw, exec_reqRead_idle hb, hill, mapNext]

/-- A step followed by a path: the block is busy between the two. -/
theorem Reaches.run_after (hs : step s = .next t) (h : Reaches n t v) :
    ∃ w, run (n + 1) s = .next w ∧ Alike w v ∧
      ∀ k x, 1 ≤ k → k ≤ n → run k s = .next x → x.busy = true := by
  obtain ⟨w, hrun, ha, -, hb⟩ := h
  refine ⟨w, (run_succ n s t hs).trans hrun, ha, fun k x h1 hk hx => ?_⟩
  obtain ⟨j, rfl⟩ : ∃ j, k = j + 1 := ⟨k - 1, by omega⟩
  exact hb j x (by omega) (by rwa [run_succ j s t hs] at hx)

/-- A request's run ends as its frame operation does, if its slots end so from the start condition on. -/
theorem GivenRequest.run_ends (h : GivenRequest s)
    (hcap : s.ports.reqLen.toNat = 0 ∨ 256 < s.ports.reqLen.toNat → r = .err .capacity 0#9 ∧ u = s)
    (hslots : Requesting s →
      ∃ n w, Reaches n (advancePorts (requested s)) w ∧ SlotsEnd r u (advancePorts (requested s)) w) :
    ∃ n t, run (n + 1) s = .next t ∧ (∀ k v, 1 ≤ k → k ≤ n → run k s = .next v → v.busy = true) ∧
      RequestEnded r u s t := by
  by_cases hlen : s.ports.reqLen.toNat = 0 ∨ 256 < s.ports.reqLen.toNat
  · obtain ⟨rfl, rfl⟩ := hcap hlen
    have hended : RequestEnded (.err .capacity 0#9) u u
        (abortRun .capacity 0#9 { clearStatus (hostWrite u) with seqState := .direct }) :=
      ⟨rfl, hostWrite_trace u, hostWrite_env u, hostWrite_rxbuf u, rfl, hostWrite_pc u, hostWrite_sel u, rfl, rfl, rfl,
        rfl, rfl⟩
    exact ⟨0, _, run_succ 0 _ _ (h.step_illegal hlen), fun k v h1 hk => absurd h1 (by omega),
      hended.alike (advancePorts_alike _)⟩
  · have hreq : Requesting s := ⟨h.undisturbed, h.level, h.idle, h.noGo, h.valid, by omega, by omega⟩
    obtain ⟨m, w, hw, he⟩ := hslots hreq
    obtain ⟨n, x, hx, hended⟩ := hw.followed (P := RequestEnded r u s) fun t ha hu => h.runs.ends he ha hu
    obtain ⟨t, hrun, ha, hbusy⟩ := hx.run_after hreq.step_eq
    exact ⟨m + n, t, hrun, hbusy, hended.alike ha⟩

end

/-! #### `rxbuf` during a write (R124) -/

theorem stalled_rxbuf (pos : Count) (s : State) : (stalled pos s).2.rxbuf = s.rxbuf := by
  unfold stalled
  split <;> rfl

/-- The slots of driven bytes keep `rxbuf` if what follows the last of them does. -/
theorem slotsWrite_rxbuf (patience : Nat) {rest : State → Option FrameResult × State}
    (hrest : ∀ s, (rest s).2.rxbuf = s.rxbuf) (bs : List Byte) :
    ∀ (pos : Count) (s : State), (slotsWrite patience rest bs pos s).2.rxbuf = s.rxbuf := by
  induction bs with
  | nil => exact fun _ s => hrest s
  | cons b bs ih =>
    intro pos s
    obtain ⟨-, f, -, -, hask⟩ := patient_write patience b s
    simp only [slotsWrite, hask]
    cases (f.askWrite s.trace b).1 with
    | ack => exact ih _ _
    | nack => rfl
    | arbLost => rfl
    | stall => exact stalled_rxbuf pos _

theorem busWrite_rxbuf (patience : Nat) (a : BusAddr) (bs : List Byte) (s : State) :
    (busWrite patience a bs s).2.rxbuf = s.rxbuf := by
  unfold busWrite
  split
  · rfl
  · exact slotsWrite_rxbuf patience (fun _ => rfl) _ _ _

/-! #### An illegal length (R124, R131, R234) -/

theorem busWrite_illegal {patience : Nat} {a : BusAddr} {bs : List Byte} {s : State}
    (h : bs.length = 0 ∨ 256 < bs.length) : busWrite patience a bs s = (some (.err .capacity 0#9), s) := if_pos h

theorem busRead_illegal {patience : Nat} {a : BusAddr} {n : Nat} {s : State} (h : n = 0 ∨ 256 < n) :
    busRead patience a n s = (some (.err .capacity 0#9), s) := if_pos h

/-- Settles O45: the slots of the accepted frame are those of `busWrite`, and a request that is not accepted ends as
`busWrite` does. -/
theorem hostWriteIsBusWrite : Obligations.HostWriteIsBusWrite := by
  intro patience s bs r u hu hl hq hg hv hrw hlen hmem hbus
  have h : GivenRequest s := ⟨hu, hl, hq, hg, hv⟩
  have hcap (hill : s.ports.reqLen.toNat = 0 ∨ 256 < s.ports.reqLen.toNat) : r = .err .capacity 0#9 ∧ u = s := by
    rw [busWrite_illegal (hlen ▸ hill)] at hbus
    simpa [eq_comm] using hbus
  have hslots (hreq : Requesting s) :
      ∃ n w, Reaches n (advancePorts (requested s)) w ∧ SlotsEnd r u (advancePorts (requested s)) w := by
    have hacc := hreq.accepted
    obtain ⟨henv, htr, hpar, hrx⟩ := requested_same s
    rw [hrw, ← hlen] at hacc
    rw [← hacc.addr] at hbus
    have hloaded : ∀ j, j < bs.length → Memory.read (advancePorts (requested s)).txbuf j = bs[j]? := by
      rw [h.runs.txbuf]
      exact hmem (hlen ▸ hreq.high)
    obtain ⟨n, w, hw, he⟩ := frame_write patience hacc.undisturbed hacc.level hacc.running hacc.start hacc.pending
      hacc.dir hacc.first hacc.len.symm (hlen ▸ hreq.low) hacc.short hloaded henv.symm htr.symm hpar.symm hrx.symm hbus
    exact ⟨n + 2, w, hw, he⟩
  obtain ⟨n, t, hrun, hbusy, hend⟩ := h.run_ends hcap hslots
  have hrx : u.rxbuf = s.rxbuf := by
    rw [← busWrite_rxbuf patience s.ports.reqAddr bs s, hbus]
  exact ⟨n, t, hrun, busy_eq_false.2 hend.idle, hbusy, hend.trace, hend.env, hend.rxbuf.trans hrx, hend.txbuf, hend.pc,
    hend.sel, hend.failStep, hend.result⟩

/-- Settles O46: the slots of the accepted frame are those of `busRead`, and a request that is not accepted ends as
`busRead` does. -/
theorem hostReadIsBusRead : Obligations.HostReadIsBusRead := by
  intro patience s r u hu hl hq hg hv hrw hbus
  have h : GivenRequest s := ⟨hu, hl, hq, hg, hv⟩
  have hcap (hill : s.ports.reqLen.toNat = 0 ∨ 256 < s.ports.reqLen.toNat) : r = .err .capacity 0#9 ∧ u = s := by
    rw [busRead_illegal hill] at hbus
    simpa [eq_comm] using hbus
  have hslots (hreq : Requesting s) :
      ∃ n w, Reaches n (advancePorts (requested s)) w ∧ SlotsEnd r u (advancePorts (requested s)) w := by
    have hacc := hreq.accepted
    obtain ⟨henv, htr, hpar, hrx⟩ := requested_same s
    rw [hrw] at hacc
    rw [← hacc.addr, ← hacc.len] at hbus
    obtain ⟨n, w, hw, he⟩ := frame_read patience hacc.undisturbed hacc.level hacc.running hacc.start hacc.pending
      hacc.dir hacc.first (hacc.len ▸ hreq.low) (hacc.len ▸ hreq.high) henv.symm htr.symm hpar.symm
      hrx.symm hbus
    exact ⟨n + 2, w, hw, he⟩
  obtain ⟨n, t, hrun, hbusy, hend⟩ := h.run_ends hcap hslots
  exact ⟨n, t, hrun, busy_eq_false.2 hend.idle, hbusy, hend.trace, hend.env, hend.rxbuf, hend.txbuf, hend.pc,
    hend.sel, hend.failStep, hend.result⟩

end Sys2Proof.Machine
end

section
/-! PROOFS. The statements of 41_script_steps.md: an idle block left alone (R160, R162, R271), GO (R161), the fetch of a
step and END (R164, R166), the end of a step's frame (R172), the post-delay (R171, R243), and that a step does what its
frame operation does as one action (R165, R167 to R170). -/

namespace Sys2Proof.Machine

open Sys2Proof

/-! ### An idle block left alone (R160, R162, R271) -/

section
variable {s : State}

theorem State.leftAlone.ports_at_rest (h : s.leftAlone) :
    s.ports.rst = false ∧ s.ports.go = false ∧ s.ports.reqValid = false ∧ s.ports.txWe = false ∧
      s.ports.rxRead = false := h _ List.mem_cons_self

theorem State.leftAlone.advance (h : s.leftAlone) : (advancePorts s).leftAlone := by
  unfold advancePorts
  split
  · exact h
  · next p ps hs =>
    intro q hq
    exact h q (List.mem_cons_of_mem _ (hs ▸ hq))

/-- A step of an idle block that is left alone changes the ports only. -/
theorem State.leftAlone.step_idle (h : s.leftAlone) (hq : s.seqState = .idle) (hp : s.paramsOk) :
    step s = .next (advancePorts s) := by
  obtain ⟨hrst, hgo, hreq, hwe, hread⟩ := h.ports_at_rest
  have hc : s.calm := ⟨hrst, by rw [State.badHostRead, hread, Bool.false_and]⟩
  have hw : hostWrite s = s := by simp [hostWrite, hwe]
  obtain ⟨-, -, -, hrest⟩ := stepRunsHostCommand s hc hp hq
  rw [hrest hgo hreq, hw]

/-- By induction on the number of steps. -/
theorem State.leftAlone.run_idle (n : Nat) :
    ∀ {s : State}, s.leftAlone → s.seqState = .idle → s.paramsOk → ∃ t, run n s = .next t ∧ Alike t s := by
  induction n with
  | zero => exact fun {s} _ _ _ => ⟨s, rfl, .refl s⟩
  | succ n ih =>
    intro s h hq hp
    obtain ⟨t, hrun, ha⟩ := ih h.advance (by simpa using hq) (by simpa [State.paramsOk] using hp)
    exact ⟨t, (run_succ n s _ (h.step_idle hq hp)).trans hrun, ha.trans (advancePorts_alike s)⟩

end

/-- Settles O34: no step of such a block changes more than the ports, and reset leaves the ports at rest. -/
theorem nothingRunsWithoutCommand : Obligations.NothingRunsWithoutCommand :=
  ⟨fun n _ hq hp h => h.run_idle n hq hp, rfl, nofun, by simp [State.leftAlone, State.reset, Ports.quiet]⟩

/-! ### GO (R161, R162) -/

/-- GO is accepted by an idle block whose tables are well-formed (R104, R161). -/
theorem exec_go_idle {s : State} (sel : Script) (hb : s.busy = false) (hok : s.tableOk = true) :
    exec (.go sel) s = .next (acceptGo sel s) := (if_neg (Bool.eq_false_iff.1 hb)).trans (if_pos hok)

/-- While `busy` = 1 a GO is ignored (R162). -/
theorem exec_go_busy {s : State} (sel : Script) (hb : s.busy = true) : exec (.go sel) s = .next s := if_pos hb

/-- Settles O19: an idle block accepts GO and a busy one ignores it; the worked example is a GO on the tables of R40. -/
theorem goStartsAScript : Obligations.GoStartsAScript := by
  refine ⟨fun s sel hb hok => exec_go_idle sel hb hok, fun s sel hb => exec_go_busy sel hb, rfl, rfl, ?worked⟩
  case worked =>
    refine ⟨_, step_of_go ⟨rfl, rfl, ?_⟩ rfl rfl rfl (tableOk_of_reset rfl rfl rfl), rfl, rfl, rfl⟩
    exact List.forall_mem_nil _

/-! ### The fetch of a step and END (R164 to R166) -/

/-- Settles O11: at either level a calm step in `Q_FETCH` is the fetch, which runs what the word decodes to. -/
theorem stepRunsFetchedStep : Obligations.StepRunsFetchedStep := by
  intro s i hc hp hq hi
  rw [step_of_fetch_at_level hc hp hq, fetchStep, hi]

/-- Settles O14: END makes these two updates and no other, and `busy` is a view of `seq_state`. -/
theorem endEndsTheRun : Obligations.EndEndsTheRun := fun _ => ⟨rfl, busy_eq_false.2 rfl⟩

/-! ### The end of a step's frame (R130, R140, R172) -/

/-- Settles O30: the stop condition of a step, by the pending error and the step's delay. -/
theorem scriptFrameEnds : Obligations.ScriptFrameEnds := by
  intro s hc hl hq hm
  rw [step_of_stop hc hl (.inl hq) hm]
  refine ⟨fun he hpc hd => ?fetch, fun he hpc hd => ?delay, fun he => ?failed⟩
  case fetch => rw [symbolEnd_stop_fetch hm he hq hpc hd, mapNext]
  case delay => rw [symbolEnd_stop_delay hm he hq hpc hd, mapNext]
  case failed => rw [symbolEnd_stop_failed hm he, mapNext]

/-! ### The post-delay (R171, R243) -/

/-- At line level, left to itself, `Q_DELAY` has `n + 1` ticks to go. -/
structure Delaying (n : Nat) (s : State) : Prop where
  undisturbed : s.undisturbed
  line : s.level = .line
  params : lineParamsOk s.params = true
  delay : s.seqState = .delay
  count : s.dlyCnt.toNat = n + 1

section
variable {n : Nat} {s t : State}

theorem Delaying.alike (h : Delaying n s) (ha : Alike t s) (hu : t.undisturbed) : Delaying n t := by
  obtain ⟨p, l, rfl⟩ := ha.elim
  exact ⟨hu, h.line, h.params, h.delay, h.count⟩

theorem Delaying.busy (h : Delaying n s) : s.busy = true := by simp [State.busy, h.delay]

/-- A step in `Q_DELAY` at line level is a tick of the delay. -/
theorem Delaying.step_eq (h : Delaying n s) : step s = .next (advancePorts (delayTick s)) := by
  rw [step_of_calm_busy (undisturbed_calm h.undisturbed) h.busy]
  simp only [blockStep, h.line, h.params, if_true, lineStep, h.delay, mapNext]

/-- A tick before the last counts down. -/
theorem Delaying.tick (h : Delaying (n + 1) s) :
    step s = .next (advancePorts { s with dlyCnt := s.dlyCnt - 1#32 }) ∧
      Delaying n { s with dlyCnt := s.dlyCnt - 1#32 } := by
  have hcount := h.count
  have hmore : ¬ s.dlyCnt.toNat ≤ 1 := by omega
  have hless : (s.dlyCnt - 1#32).toNat = n + 1 := by
    rw [BitVec.toNat_sub_of_le (by rw [BitVec.le_def]; change 1 ≤ _; omega), hcount]
    rfl
  exact ⟨by rw [h.step_eq, delayTick, if_neg hmore], h.undisturbed, h.line, h.params, h.delay, hless⟩

/-- The last tick leaves the delay. -/
theorem Delaying.last_tick (h : Delaying 0 s) : step s = .next (advancePorts (leaveDelay s)) := by
  rw [h.step_eq, delayTick, if_pos h.count.le]

/-- The ticks before the last, by induction on how many have passed. -/
theorem Delaying.counts_down (k : Nat) :
    ∀ {s : State}, Delaying (n + k) s →
      ∃ d, Reaches k s { s with dlyCnt := d } ∧ Delaying n { s with dlyCnt := d } := by
  induction k with
  | zero => exact fun {s} h => ⟨s.dlyCnt, .zero h.undisturbed, h⟩
  | succ k ih =>
    intro s h
    obtain ⟨hstep, hnext⟩ := h.tick
    have ha := advancePorts_alike { s with dlyCnt := s.dlyCnt - 1#32 }
    obtain ⟨d, hr, hd⟩ := ih (hnext.alike ha (undisturbed_advance hnext.undisturbed))
    refine ⟨d, (Reaches.cons h.busy hstep hr).alike ?_, h.undisturbed, h.line, h.params, h.delay, hd.count⟩
    rw [advancePorts_eq]
    rfl

/-- The whole delay. -/
theorem Delaying.reaches_fetch (h : Delaying n s) : Reaches (n + 1) s (leaveDelay s) := by
  obtain ⟨d, hr, hd⟩ := Delaying.counts_down (n := 0) n (by rwa [Nat.zero_add])
  refine hr.trans fun t ha hu => ?_
  have ht := hd.alike ha hu
  refine (Reaches.one ht.busy (by exact hu) ht.last_tick).alike ?_
  obtain ⟨p, l, rfl⟩ := ha.elim
  rfl

end

/-- Settles O31: at symbol level `Q_DELAY` is one step, and at line level its ticks count down to the fetch. -/
theorem postDelayIsWaitedOut : Obligations.PostDelayIsWaitedOut := by
  refine ⟨fun s hc hl hq => step_of_delay hc hl hq, fun n s hu hl hp hq hm hcount =>
    ⟨fun k hk => ?before, ?after⟩⟩
  case before =>
    have h : Delaying (n - k + k) s := ⟨hu, hl, hp, hq, by omega⟩
    obtain ⟨d, ⟨t, hrun, ha, -⟩, hd⟩ := h.counts_down k
    have hleft : d.toNat = n - k + 1 := hd.count
    obtain ⟨p, l, rfl⟩ := ha.elim
    exact ⟨_, hrun, hq, by simp only [hleft]; omega, rfl, rfl, by simp only [State.lineLevels, hm]⟩
  case after =>
    have h : Delaying n s := ⟨hu, hl, hp, hq, hcount⟩
    obtain ⟨t, hrun, ha, -⟩ := h.reaches_fetch
    obtain ⟨p, l, rfl⟩ := ha.elim
    exact ⟨_, hrun, rfl, rfl, rfl, rfl⟩

/-! ### A step and its frame operation as one action (R165, R167 to R170, R172) -/

/-- `t` is a state in the frame of the step that `s` is about to fetch (R165). -/
structure StepRuns (s t : State) : Prop where
  level : t.level = .symbol
  xfer : t.seqState = .xfer
  done : t.done = s.done
  failed : t.failed = s.failed
  pc : t.pc = s.pc
  sel : t.sel = s.sel
  table : t.scriptRom = s.scriptRom
  params : t.params = s.params

/-- What `StepRuns` reads of a state. -/
def State.stepView (t : State) := (t.level, t.seqState, t.done, t.failed, t.pc, t.sel, t.scriptRom, t.params)

/-- The delay on the bus trace after the frame of the step at `pc`, if the frame has the result `r` (R172). -/
def State.delayAfter (s : State) (r : FrameResult) : List Event :=
  if r = .ok ∧ s.stepDelayMs ≠ 0 then [.DLY s.stepDelayMs] else []

/-- Where the step that `s` was about to fetch leaves SEQ: about to fetch the next step, or at the end of the run (R172,
R235 to R237). -/
def State.stepLeaves (s t : State) : FrameResult → Prop
  | .ok => t.seqState = .fetch ∧ t.pc = s.pc + 1#5 ∧ t.failed = s.failed
  | .err k pos =>
    t.seqState = .idle ∧ t.pc = s.pc ∧ t.failed = true ∧ t.errKind = k ∧ t.errPos = pos ∧
      t.failStep = s.pc - scriptBase s.params s.sel

/-- The step that `s` was about to fetch is over in `t`, as its frame operation ends, which has the result `r` and
leaves `u` (R172). -/
structure StepEnded (r : FrameResult) (u s t : State) : Prop where
  trace : t.trace = u.trace ++ s.delayAfter r
  env : t.env = u.env
  rxbuf : t.rxbuf = u.rxbuf
  sel : t.sel = s.sel
  mft : t.mftState = .idle
  done : t.done = s.done
  result : s.stepLeaves t r

section
variable {r : FrameResult} {s t u v w : State} {a : BusAddr} {n : Count} {bs : List Byte} {patience : Nat}

theorem delayAfter_ok_zero (h : s.stepDelayMs = 0) : s.delayAfter .ok = [] := if_neg fun hd => hd.2 h

theorem delayAfter_ok (h : s.stepDelayMs ≠ 0) : s.delayAfter .ok = [.DLY s.stepDelayMs] := if_pos ⟨rfl, h⟩

theorem delayAfter_err (k : ErrKind) (pos : Count) : s.delayAfter (.err k pos) = [] := if_neg fun hd => nomatch hd.1

theorem StepRuns.congr (h : StepRuns s v) (hv : t.stepView = v.stepView) : StepRuns s t := by
  simp only [State.stepView, Prod.mk.injEq] at hv
  obtain ⟨hl, hq, hd, hf, hpc, hsel, hrom, hp⟩ := hv
  exact ⟨hl.trans h.level, hq.trans h.xfer, hd.trans h.done, hf.trans h.failed, hpc.trans h.pc, hsel.trans h.sel,
    hrom.trans h.table, hp.trans h.params⟩

theorem StepRuns.stepWordAt (h : StepRuns s t) : t.stepWordAt = s.stepWordAt := by
  simp only [State.stepWordAt, h.table, h.pc]

/-- The script-local index of the step (R237). -/
theorem StepRuns.localStep (h : StepRuns s t) : t.localStep = s.localStep := by
  simp only [State.localStep, h.pc, h.params, h.sel]

/-! #### The stop condition and the delay -/

/-- A path into `Q_DELAY` at symbol level goes on to the next fetch in one step (R171). -/
theorem Reaches.through_delay {k : Nat} (h : Reaches k s v) (hl : v.level = .symbol) (hq : v.seqState = .delay) :
    Reaches (k + 1) s (leaveDelay v) := by
  refine h.trans fun t ha hu => ?_
  have hq' : t.seqState = .delay := by rw [ha]; exact hq
  have hl' : t.level = .symbol := by rw [ha]; exact hl
  refine (Reaches.one (by simp [State.busy, hq']) (by exact hu)
    (step_of_delay (undisturbed_calm hu) hl' hq')).alike ?_
  obtain ⟨p, l, rfl⟩ := ha.elim
  rfl

/-- The stop condition without a pending error: the next step is about to be fetched, its delay being over (R171,
R172). -/
theorem StepRuns.stops_ok (h : StepRuns s t) (hpc : s.pc ≠ 31#5) (hu : t.undisturbed) (hm : t.mftState = .stop)
    (hk : t.mErrKind = .none) (htr : u.trace = t.trace ++ [.P]) (henv : t.env = u.env) (hrx : t.rxbuf = u.rxbuf) :
    ∃ n x, Reaches n t x ∧ StepEnded .ok u s x := by
  have hb : t.busy = true := busy_of_running (.inl h.xfer)
  obtain ⟨hfetch, hdelay, -⟩ := scriptFrameEnds t (undisturbed_calm hu) h.level h.xfer hm
  rw [h.pc, h.stepWordAt] at hfetch hdelay
  by_cases hd : stepDelay s.stepWordAt = 0#4
  · refine ⟨1, _, .one hb (by exact hu) (hfetch hk hpc hd), ?_⟩
    have hnone : s.delayAfter .ok = [] := delayAfter_ok_zero (congrArg BitVec.toNat hd)
    exact ⟨by rw [hnone, htr, List.append_nil], henv, hrx, h.sel, rfl, h.done, rfl, rfl, h.failed⟩
  · have hone : s.delayAfter .ok = [.DLY s.stepDelayMs] := delayAfter_ok fun h0 => hd (BitVec.eq_of_toNat_eq h0)
    have hstop := Reaches.one hb (by exact hu) (hdelay hk hpc hd)
    refine ⟨1 + 1, _, hstop.through_delay h.level rfl, ?_⟩
    exact ⟨by rw [hone, htr, List.append_assoc]; rfl, henv, hrx, h.sel, rfl, h.done, rfl, rfl, h.failed⟩

/-- The stop condition with a pending error ends the run (R130, R172, R235). -/
theorem StepRuns.stops_failed (h : StepRuns s t) (hu : t.undisturbed) (hm : t.mftState = .stop)
    (hk : t.mErrKind ≠ .none) (htr : u.trace = t.trace ++ [.P]) (henv : t.env = u.env) (hrx : t.rxbuf = u.rxbuf) :
    Reaches 1 t (runFailed t.mErrKind t.mErrPos [.P] t) ∧
      StepEnded (.err t.mErrKind t.mErrPos) u s (runFailed t.mErrKind t.mErrPos [.P] t) := by
  obtain ⟨-, -, hfailed⟩ := scriptFrameEnds t (undisturbed_calm hu) h.level h.xfer hm
  have hstep : (runFailed t.mErrKind t.mErrPos [.P] t).failStep = s.localStep :=
    (if_neg (by rw [h.xfer]; decide)).trans h.localStep
  exact ⟨.one (busy_of_running (.inl h.xfer)) hu (hfailed hk),
    by rw [delayAfter_err, htr, List.append_nil]; rfl, henv, hrx, h.sel, rfl, h.done, rfl, h.pc, rfl, rfl, rfl, hstep⟩

/-- From the end of the slots a step comes to its end: by the stop condition, unless the run has ended without one
(R130, R137, R138, R172). -/
theorem StepRuns.ends (h : StepRuns s v) (hpc : s.pc ≠ 31#5) (he : SlotsEnd r u v w) (ha : Alike t w)
    (hu : t.undisturbed) : ∃ n x, Reaches n t x ∧ StepEnded r u s x := by
  cases r with
  | ok =>
    obtain ⟨hk, tr, bi, htr, rfl⟩ := he
    have hruns : StepRuns s t := h.congr (by rw [ha]; rfl)
    obtain ⟨p, l, rfl⟩ := ha.elim
    exact hruns.stops_ok hpc hu rfl hk htr rfl rfl
  | err k pos =>
    rcases he with ⟨hk, tr, bi, htr, rfl⟩ | ⟨-, bi, rfl⟩
    · have hruns : StepRuns s t := h.congr (by rw [ha]; rfl)
      obtain ⟨p, l, rfl⟩ := ha.elim
      exact ⟨1, _, hruns.stops_failed hu rfl hk htr rfl rfl⟩
    · refine ⟨0, t, .zero hu, ?_⟩
      have hstep : failStepOf v = s.localStep := by simpa only [failStepOf, h.xfer] using h.localStep
      obtain ⟨p, l, rfl⟩ := ha.elim
      exact ⟨by rw [delayAfter_err, List.append_nil], rfl, rfl, h.sel, rfl, h.done, rfl, h.pc, rfl, rfl, rfl, hstep⟩

/-! #### The beginning of the frame -/

/-- The step that `s` was about to fetch has been begun in `t`, from where the slots of its frame go as those of its
frame operation, which has the result `r` and leaves `u`. -/
structure StepBegun (r : FrameResult) (u s t : State) : Prop extends StepRuns s t where
  slots : ∃ k w, Reaches k t w ∧ SlotsEnd r u t w

/-- A write step begins its frame operation (R124, R165). -/
theorem StepBegun.of_write (ha : Alike t (frameAccepted a .write n (loadFrame bs { s with seqState := .xfer })))
    (hu : t.undisturbed) (hl : s.level = .symbol) (hlen : bs.length = n.toNat) (h1 : 1 ≤ n.toNat)
    (h256 : n.toNat ≤ 256) (hbus : busWrite patience a bs s = (some r, u)) : StepBegun r u s t := by
  have hloaded (j : Nat) (hj : j < bs.length) : Memory.read (Memory.writeFrom s.txbuf 0 bs) j = bs[j]? :=
    (read_writeFrom_zero _ _ _).trans (if_pos hj)
  obtain ⟨p, l, rfl⟩ := ha.elim
  obtain ⟨k, w, hw, he⟩ := frame_write patience (v := s) hu hl (.inl rfl) rfl rfl rfl rfl hlen (by omega) (by omega)
    hloaded rfl rfl rfl rfl hbus
  exact ⟨⟨hl, rfl, rfl, rfl, rfl, rfl, rfl, rfl⟩, k + 2, w, hw, he⟩

/-- A read step begins its frame operation (R131, R165). -/
theorem StepBegun.of_read (ha : Alike t (frameAccepted a .read n { s with seqState := .xfer })) (hu : t.undisturbed)
    (hl : s.level = .symbol) (h1 : 1 ≤ n.toNat) (h256 : n.toNat ≤ 256)
    (hbus : busRead patience a n.toNat s = (some r, u)) : StepBegun r u s t := by
  obtain ⟨p, l, rfl⟩ := ha.elim
  obtain ⟨k, w, hw, he⟩ := frame_read patience (v := s) hu hl (.inl rfl) rfl rfl rfl rfl h1 h256 rfl rfl rfl rfl
    hbus
  exact ⟨⟨hl, rfl, rfl, rfl, rfl, rfl, rfl, rfl⟩, k + 2, w, hw, he⟩

/-- A well-formed step begins its frame operation, by the kinds that have one (R167 to R170). -/
theorem exec_begins_operation {i : Instr} (hu : s.undisturbed) (hl : s.level = .symbol) (hwf : i.wf = true)
    (hop : stepOperation patience i s = some (some r, u)) :
    ∃ f, exec i s = .next f ∧ StepBegun r u s (advancePorts f) := by
  cases i with
  | wrc a len ptr d =>
    obtain ⟨-, h255, hrom⟩ := wrc_wf_iff.1 hwf
    have hsucc := len_succ_toNat h255
    have hlen := (commandFrame_length s.byteRom ptr len hrom).trans hsucc.symm
    exact ⟨_, exec_wrc hwf, .of_write (advancePorts_alike _) (undisturbed_advance hu) hl hlen (by omega) (by omega)
      (Option.some.inj hop)⟩
  | wrd a len d =>
    obtain ⟨-, h255⟩ := wrd_wf_iff.1 hwf
    have hsucc := len_succ_toNat h255
    have hlen := (patternFrame_length len).trans hsucc.symm
    exact ⟨_, exec_wrd hwf, .of_write (advancePorts_alike _) (undisturbed_advance hu) hl hlen (by omega) (by omega)
      (Option.some.inj hop)⟩
  | wrr a len ptr d =>
    obtain ⟨h1, h256, hrom⟩ := wrr_wf_iff.1 hwf
    have hlen := rawFrame_length s.byteRom ptr len hrom
    exact ⟨_, exec_wrr hwf, .of_write (advancePorts_alike _) (undisturbed_advance hu) hl hlen h1 h256
      (Option.some.inj hop)⟩
  | rdr a len d =>
    obtain ⟨h1, h256⟩ := rdr_wf_iff.1 hwf
    exact ⟨_, exec_rdr hwf, .of_read (advancePorts_alike _) (undisturbed_advance hu) hl h1 h256
      (Option.some.inj hop)⟩
  | endScript | write | read | ctrlCmd | ctrlData | go | reqWrite | reqRead => cases hop

end

/-- Settles O47: the fetch begins the frame operation, whose slots lead to the end of the step. -/
theorem scriptStepIsItsOperation : Obligations.ScriptStepIsItsOperation := by
  intro patience s i r u hu hl hq hi hwf hpc hop
  have hp : s.paramsOk := fun hline => absurd (hl.symm.trans hline) (by decide)
  obtain ⟨f, hexec, hbegun⟩ := exec_begins_operation hu hl hwf hop
  have hstep : step s = .next (advancePorts f) := by
    rw [stepRunsFetchedStep s i (undisturbed_calm hu) hp hq hi, hexec, mapNext]
  obtain ⟨k, w, hw, he⟩ := hbegun.slots
  obtain ⟨n, x, hx, hend⟩ := hw.followed (P := StepEnded r u s) fun t ha htu => hbegun.ends hpc he ha htu
  obtain ⟨t, hrun, ha, -⟩ := hx.run_after hstep
  obtain ⟨p, l, rfl⟩ := ha.elim
  exact ⟨k + n, _, hrun, hend.trace, hend.env, hend.rxbuf, hend.sel, hend.mft, hend.done, hend.result⟩

end Sys2Proof.Machine
end

section
/-! PROOFS. The statements of 42_display_script.md: a complete display run under `Present(0x3C)` and on ENV-DISP (R190
to R198, R219). A script of write steps is run step by step under a premise that has every frame acknowledged. -/

namespace Sys2Proof.Machine

open Sys2Proof

/-! ### Write steps (R92, R165, R172) -/

/-- A step of a script that sends a write frame: the data bytes of its frame and its post-delay. -/
structure WriteStep where
  bytes : List Byte
  delay : BitVec 4

/-- The event of a post-delay (R172). -/
def delayEvents (d : BitVec 4) : List Event := if d = 0#4 then [] else [.DLY d.toNat]

/-- The events of a write step to `a` whose bytes are all acknowledged. -/
def WriteStep.events (a : BusAddr) (x : WriteStep) : List Event := writeFrame a x.bytes ++ delayEvents x.delay

/-- The machine's steps in it at symbol level: the fetch, `S`, the address byte, the data bytes, `P`, and the delay if
there is one (R122, R171). -/
def WriteStep.cost (x : WriteStep) : Nat := x.bytes.length + 4 + (delayEvents x.delay).length

/-- The state after the fetch of a step that sends `bs` to `a` (R165). -/
def frameBegun (a : BusAddr) (bs : List Byte) (s : State) : State :=
  frameAccepted a .write (BitVec.ofNat 9 bs.length) (loadFrame bs { s with seqState := .xfer })

/-- The fetch of the step word `w` begins the frame of `x` to `a` (R165, R167, R168). -/
structure Sends (bytes : Vector Byte 37) (a : BusAddr) (w : StepWord) (x : WriteStep) : Prop where
  delay : stepDelay w = x.delay
  nonempty : x.bytes ≠ []
  short : x.bytes.length ≤ 256
  begins : ∃ i, decodeStep w = .ok i ∧ ∀ s : State, s.byteRom = bytes → exec i s = .next (frameBegun a x.bytes s)

section
variable {a : BusAddr} {w : StepWord} {len : Count} {ptr : Byte} {d : BitVec 4} {bytes : Vector Byte 37}

/-- A step that stores `bs` and has a frame of that length accepted sends `bs`. -/
theorem Sends.of_accepts {i : Instr} {n : Count} {bs : List Byte} (hw : decodeStep w = .ok i) (hd : stepDelay w = d)
    (hlen : bs.length = n.toNat) (h1 : 1 ≤ n.toNat) (h256 : n.toNat ≤ 256)
    (hexec : ∀ s : State, s.byteRom = bytes →
      exec i s = .next (frameAccepted a .write n (loadFrame bs { s with seqState := .xfer }))) :
    Sends bytes a w ⟨bs, d⟩ := by
  have hcount : BitVec.ofNat 9 bs.length = n := by rw [hlen, BitVec.ofNat_toNat, BitVec.setWidth_eq]
  refine ⟨hd, List.ne_nil_of_length_pos (hlen ▸ h1), hlen ▸ h256, i, hw, fun s hs => ?_⟩
  rw [hexec s hs, frameBegun, hcount]

theorem Sends.of_wrc (hw : decodeStep w = .ok (.wrc a len ptr d)) (hd : stepDelay w = d)
    (hwf : (Instr.wrc a len ptr d).wf = true) : Sends bytes a w ⟨commandFrame bytes ptr len, d⟩ := by
  obtain ⟨-, h255, hrom⟩ := wrc_wf_iff.1 hwf
  have hsucc := len_succ_toNat h255
  exact .of_accepts hw hd ((commandFrame_length bytes ptr len hrom).trans hsucc.symm) (by omega) (by omega)
    fun _ hs => hs ▸ exec_wrc hwf

theorem Sends.of_wrd (hw : decodeStep w = .ok (.wrd a len d)) (hd : stepDelay w = d)
    (hwf : (Instr.wrd a len d).wf = true) : Sends bytes a w ⟨patternFrame len, d⟩ := by
  obtain ⟨-, h255⟩ := wrd_wf_iff.1 hwf
  have hsucc := len_succ_toNat h255
  exact .of_accepts hw hd ((patternFrame_length len).trans hsucc.symm) (by omega) (by omega) fun _ _ => exec_wrd hwf

end

/-- The frame of `x` to `a` is begun by the coming step. -/
structure FrameBegins (a : BusAddr) (x : WriteStep) (s : State) : Prop where
  undisturbed : s.undisturbed
  level : s.level = .symbol
  nonempty : x.bytes ≠ []
  short : x.bytes.length ≤ 256
  step_eq : step s = .next (advancePorts (frameBegun a x.bytes s))

/-- All slots of the frame of `x` to `a`, begun in `s`, are acknowledged, and leave the environment `e`. -/
def FrameAcked (a : BusAddr) (x : WriteStep) (e : Env) (s : State) : Prop :=
  Reaches (2 + x.bytes.length) s
    (slotsDone (.S :: ackedBytes (addrByte a .write :: x.bytes)) s.fLen .stop s.rxbuf e s)

/-- `G` is a premise about the environment and the write steps to `a` that are left: it has the frame of the first one
acknowledged, and holds of the others after it. -/
def Supports (a : BusAddr) (G : List WriteStep → State → Prop) : Prop :=
  ∀ (x : WriteStep) (xs : List WriteStep) (s : State), FrameBegins a x s → G (x :: xs) s →
    ∃ e, FrameAcked a x e (advancePorts (frameBegun a x.bytes s)) ∧
      ∀ t, run x.cost s = .next t → t.env = e → G xs t

section
variable {a : BusAddr} {x : WriteStep} {xs : List WriteStep} {s t : State} {e : Env}
  {G : List WriteStep → State → Prop}

theorem FrameBegins.accepted (h : FrameBegins a x s) :
    Accepted a .write x.bytes.length (advancePorts (frameBegun a x.bytes s)) := by
  have hshort := h.short
  have hlen : (BitVec.ofNat 9 x.bytes.length).toNat = x.bytes.length := by simp; omega
  have hacc : Accepted a .write x.bytes.length (frameBegun a x.bytes s) :=
    ⟨⟨h.undisturbed, h.level, .inl rfl, rfl⟩, rfl, rfl, hlen, hshort, rfl, rfl⟩
  exact hacc.alike (advancePorts_alike _) (undisturbed_advance h.undisturbed)

/-- The data bytes of a begun frame stand in `txbuf` (R165). -/
theorem frameBegun_loaded (a : BusAddr) (bs : List Byte) (s : State) (j : Nat) (hj : j < bs.length) :
    Memory.read (advancePorts (frameBegun a bs s)).txbuf j = bs[j]? := by
  rw [advancePorts_txbuf]
  exact (read_writeFrom_zero s.txbuf bs j).trans (if_pos hj)

/-! ### From the fetch of a write step to the next fetch (R130, R171, R172) -/

/-- The step at `pc` is over, with the events `es` at its end, and the next one is about to be fetched. -/
def stepOver (es : List Event) (c : Ticks) (s : State) : State :=
  { s with trace := s.trace ++ es, mftState := .idle, pc := s.pc + 1#5, seqState := .fetch, dlyCnt := c }

/-- The stop condition without a pending error, and the delay if there is one, lead to the next fetch. -/
theorem InFrame.reaches_next_fetch {d : BitVec 4} (h : InFrame a s) (hq : s.seqState = .xfer) (hm : s.mftState = .stop)
    (hk : s.mErrKind = .none) (hpc : s.pc ≠ 31#5) (hd : stepDelay s.stepWordAt = d) :
    ∃ c, Reaches (1 + (delayEvents d).length) s (stepOver (.P :: delayEvents d) c s) := by
  obtain ⟨hfetch, hdelay, -⟩ := scriptFrameEnds s h.calm h.level hq hm
  rw [hd] at hfetch hdelay
  by_cases h0 : d = 0#4
  · rw [delayEvents, if_pos h0]
    exact ⟨_, .one h.busy h.undisturbed (hfetch hk hpc h0)⟩
  · rw [delayEvents, if_neg h0]
    exact ⟨_, (Reaches.one h.busy (by exact h.undisturbed) (hdelay hk hpc h0)).through_delay h.level rfl⟩

/-- The step of the script `sel` at `pc` is about to be fetched, undisturbed by the host, the tables being `rom` and
`bytes` and no error having arisen. -/
structure AtStep (rom : Vector StepWord 32) (bytes : Vector Byte 37) (p : Params) (sel : Script) (pc : StepIdx)
    (s : State) : Prop extends AtFetch rom p sel pc s where
  undisturbed : s.undisturbed
  bytes : s.byteRom = bytes

variable {rom : Vector StepWord 32} {bytes : Vector Byte 37} {p : Params} {sel : Script} {pc : StepIdx}

theorem AtStep.alike (h : AtStep rom bytes p sel pc s) (ha : Alike t s) (hu : t.undisturbed) :
    AtStep rom bytes p sel pc t := ⟨h.toAtFetch.alike ha, hu, by rw [ha]; exact h.bytes⟩

/-- The fetch of a write step begins its frame. -/
theorem AtStep.begins (h : AtStep rom bytes p sel pc s) (hx : Sends bytes a rom[pc.toNat] x) : FrameBegins a x s := by
  obtain ⟨i, hi, hexec⟩ := hx.begins
  have hp : s.paramsOk := fun hline => absurd (h.level.symm.trans hline) (by decide)
  refine ⟨h.undisturbed, h.level, hx.nonempty, hx.short, ?_⟩
  rw [stepRunsFetchedStep s i (undisturbed_calm h.undisturbed) hp h.fetch (h.stepWordAt ▸ hi), hexec s h.bytes, mapNext]

/-- A write step whose frame is acknowledged leads to the next fetch. -/
theorem AtStep.next_step (h : AtStep rom bytes p sel pc s) (hx : Sends bytes a rom[pc.toNat] x) (hpc : pc ≠ 31#5)
    (hack : FrameAcked a x e (advancePorts (frameBegun a x.bytes s))) :
    ∃ t, run x.cost s = .next t ∧ AtStep rom bytes p sel (pc + 1#5) t ∧ t.trace = s.trace ++ x.events a ∧
      t.env = e := by
  have hbegins := h.begins hx
  have hacc := hbegins.accepted
  obtain ⟨q, l, hf⟩ := (advancePorts_alike (frameBegun a x.bytes s)).elim
  have hword : stepDelay s.stepWordAt = x.delay := h.stepWordAt ▸ hx.delay
  obtain ⟨t, hrun, ha, hu, -⟩ := hack
  rw [hf] at hacc ha
  have hin := hacc.toInFrame.after_slots.alike ha hu
  obtain ⟨c, u, hrun', ha', hu', -⟩ := hin.reaches_next_fetch (d := x.delay) (by rw [ha]; rfl) (by rw [ha]; rfl)
    (by rw [ha]; rfl) (by rw [ha]; exact h.pc.symm ▸ hpc) (by rw [ha]; exact hword)
  have hall : run x.cost s = .next u := by
    rw [show x.cost = 2 + x.bytes.length + (1 + (delayEvents x.delay).length) + 1 by rw [WriteStep.cost]; omega,
      run_succ _ _ _ hbegins.step_eq, run_add hrun, hrun']
  refine ⟨u, hall, AtStep.alike (s := stepOver (.P :: delayEvents x.delay) c t) ?_ ha' hu', ?_, ?_⟩
  · rw [ha]
    exact ⟨⟨h.toInRun.congr rfl, rfl, congrArg (· + 1#5) h.pc⟩, hu, h.bytes⟩
  · rw [ha', ha]
    simp [stepOver, slotsDone, frameBegun, frameAccepted, loadFrame, WriteStep.events, writeFrame]
  · rw [ha', ha]
    rfl

theorem getElem_of_drop_eq_cons {n : Nat} {w : StepWord} {ws : List StepWord} (hn : n < 32)
    (h : rom.toList.drop n = w :: ws) : rom[n] = w := by
  have hhead : rom[n]? = some w := by
    rw [← Vector.getElem?_toList, ← List.head?_drop, h]
    rfl
  exact (Vector.getElem?_eq_some_iff.1 hhead).2

/-- Under a premise that supports it a script of write steps runs from its first fetch to the fetch of the step after
it. By induction on the steps. -/
theorem Supports.run_script (hG : Supports a G) {v : StepWord} {vs ws : List StepWord}
    (hx : List.Forall₂ (Sends bytes a) ws xs) :
    ∀ {pc : StepIdx} {s : State}, AtStep rom bytes p sel pc s → rom.toList.drop pc.toNat = ws ++ v :: vs → G xs s →
      ∃ t pc', run (xs.map WriteStep.cost).sum s = .next t ∧ AtStep rom bytes p sel pc' t ∧
        rom.toList.drop pc'.toNat = v :: vs ∧ t.trace = s.trace ++ xs.flatMap (WriteStep.events a) ∧ G [] t := by
  induction hx with
  | nil => exact fun {pc s} h hrom hg => ⟨s, pc, rfl, h, hrom, (List.append_nil _).symm, hg⟩
  | @cons w x ws xs hw _ ih =>
    intro pc s h hrom hg
    have hlen := congrArg List.length hrom
    simp only [List.length_drop, Vector.length_toList, List.length_append, List.length_cons] at hlen
    have hlt : pc.toNat < 31 := by omega
    have hword : rom[pc.toNat] = w := getElem_of_drop_eq_cons pc.isLt hrom
    have hpc : pc ≠ 31#5 := fun h31 => absurd hlt (by rw [h31]; decide)
    have hsucc : (pc + 1#5).toNat = pc.toNat + 1 := BitVec.toNat_add_of_lt (show pc.toNat + 1 < 32 by omega)
    have hrest : rom.toList.drop (pc + 1#5).toNat = ws ++ v :: vs := by
      rw [hsucc, ← List.tail_drop, hrom]
      rfl
    rw [← hword] at hw
    obtain ⟨e, hack, hafter⟩ := hG x xs s (h.begins hw) hg
    obtain ⟨t, hrun, ht, htr, he⟩ := h.next_step hw hpc hack
    obtain ⟨u, pc', hrun', hu, hrom', htr', hg'⟩ := ih ht hrest (hafter t hrun he)
    refine ⟨u, pc', ?_, hu, hrom', ?_, hg'⟩
    · rw [List.map_cons, List.sum_cons, run_add hrun, hrun']
    · rw [htr', htr, List.flatMap_cons, List.append_assoc]

end

/-! ### The display script (R190 to R197) -/

/-- The write steps of the display script: the initialization writes with their delays, the two window writes and the
pattern (R190 to R197). -/
def displaySteps (initRom : Fin 25 → Byte) : List WriteStep :=
  (List.finRange 25).map (fun k => ⟨[Config.ctrlCmdByte, initRom k], 10#4⟩)
    ++ [⟨Config.ctrlCmdByte :: Config.winCol, 0#4⟩, ⟨Config.ctrlCmdByte :: Config.winPage, 0#4⟩,
      ⟨patternFrame (BitVec.ofNat 9 Config.nContent), 0#4⟩]

theorem displaySteps_bytes (initRom : Fin 25 → Byte) :
    (displaySteps initRom).map WriteStep.bytes = displayFrames initRom := by
  simp [displaySteps, displayFrames]

theorem displaySteps_events (initRom : Fin 25 → Byte) :
    (displaySteps initRom).flatMap (WriteStep.events Config.displayAddr) = displayTrace initRom := by
  simp [displaySteps, displayTrace, WriteStep.events, delayEvents, List.flatMap_map, Config.settleMs]

/-- The 28 frames and 25 delays of the script are 322 steps of the machine. -/
theorem displaySteps_cost (initRom : Fin 25 → Byte) : ((displaySteps initRom).map WriteStep.cost).sum = 322 := by
  simp [displaySteps, WriteStep.cost, delayEvents, patternFrame_length, Function.comp_def, Config.winCol,
    Config.winPage, Config.nContent]

/-- The step words of the display script before its END (R40). -/
def displayWords : List StepWord :=
  (List.finRange 25).map (fun k => scriptRomReset[k.val]) ++ [0x17802190#32, 0x178021B0#32, 0x27880000#32]

theorem scriptRomReset_display :
    scriptRomReset.toList = displayWords ++ 0x00000000#32 :: [0x344081D0#32, 0x44408000#32, 0x00000000#32] := by decide

theorem scriptRomReset_init_delay : ∀ k : Fin 25, stepDelay scriptRomReset[k.val] = 10#4 := by decide

/-- Each of these words sends the frame of its step (R40, R41). -/
theorem displayWords_send (initRom : Fin 25 → Byte) :
    List.Forall₂ (Sends (byteRomOf initRom) Config.displayAddr) displayWords (displaySteps initRom) := by
  refine List.rel_append ?_ (.cons ?_ (.cons ?_ (.cons ?_ .nil)))
  · simp only [List.forall₂_map_left_iff, List.forall₂_map_right_iff, List.forall₂_same]
    intro k _
    have hwf : (Instr.wrc 0x3C#7 1#9 (BitVec.ofNat 8 k.val) 10#4).wf = true :=
      wf_of_wordOk (scriptRomReset_wordOk ⟨k.val, by omega⟩) (scriptRomReset_init k)
    have hsend := Sends.of_wrc (bytes := byteRomOf initRom) (scriptRomReset_init k) (scriptRomReset_init_delay k) hwf
    rwa [commandFrame_init] at hsend
  · exact .of_wrc (len := 2#9) (ptr := 25#8) (by decide) (by decide) (by decide)
  · exact .of_wrc (len := 2#9) (ptr := 27#8) (by decide) (by decide) (by decide)
  · exact .of_wrd (by decide) (by decide) (by decide)

/-- An undisturbed idle block at symbol level with the reset tables is given GO for the display script (R161). -/
structure GivenDisplayGo (initRom : Fin 25 → Byte) (s : State) : Prop where
  undisturbed : s.undisturbed
  level : s.level = .symbol
  idle : s.seqState = .idle
  go : s.ports.go = true
  display : s.ports.goSel = .display
  script : s.scriptRom = scriptRomReset
  bytes : s.byteRom = byteRomOf initRom
  displayBase : s.params.displayBase = 0#5
  loopBase : s.params.loopBase = 29#5

section
variable {initRom : Fin 25 → Byte} {s : State} {G : List WriteStep → State → Prop}

/-- The state after GO for the display script. -/
def displayStarted (s : State) : State := advancePorts (acceptGo .display (hostWrite s))

theorem GivenDisplayGo.step_eq (h : GivenDisplayGo initRom s) : step s = .next (displayStarted s) := by
  rw [step_of_go h.undisturbed h.level h.idle h.go (tableOk_of_reset h.script h.displayBase h.loopBase), h.display,
    displayStarted]

theorem GivenDisplayGo.first_step (h : GivenDisplayGo initRom s) :
    AtStep scriptRomReset (byteRomOf initRom) s.params .display 0#5 (displayStarted s) := by
  have hu : (acceptGo .display (hostWrite s)).undisturbed := by
    simpa [State.undisturbed, acceptGo] using h.undisturbed
  have hat : AtStep scriptRomReset (byteRomOf initRom) s.params .display 0#5 (acceptGo .display (hostWrite s)) :=
    ⟨⟨⟨by simpa [acceptGo] using h.level, rfl, by simpa [acceptGo] using h.script, by simp [acceptGo], rfl, rfl, rfl,
      rfl, rfl⟩, rfl, by simpa [acceptGo, scriptBase] using h.displayBase⟩, hu, by simpa [acceptGo] using h.bytes⟩
  exact hat.alike (advancePorts_alike _) (undisturbed_advance hu)

/-- Under a premise that supports it a display run makes the whole script and ends with success: one step for GO, the
write steps, and END. -/
theorem GivenDisplayGo.run_display (h : GivenDisplayGo initRom s) (hG : Supports Config.displayAddr G)
    (hg : G (displaySteps initRom) (displayStarted s)) :
    ∃ t u, run 324 s = .next t ∧ t.trace = s.trace ++ displayTrace initRom ∧ FinishedRun .display 28#5 t ∧
      G [] u ∧ t.env = u.env := by
  obtain ⟨u, pc, hrun, hu, hrom, htr, hg'⟩ :=
    hG.run_script (displayWords_send initRom) h.first_step scriptRomReset_display hg
  have hpc : pc = 28#5 := by
    have hlen := congrArg List.length hrom
    simp only [List.length_drop, Vector.length_toList, List.length_cons, List.length_nil] at hlen
    refine BitVec.eq_of_toNat_eq ?_
    change pc.toNat = 28
    omega
  subst hpc
  obtain ⟨⟨t, hend, ha, -⟩, hfin⟩ := hu.end_run hu.undisturbed (by decide)
  refine ⟨t, u, ?_, ?_, hfin.alike ha, hg', by rw [ha]; rfl⟩
  · rw [run_succ 323 s _ h.step_eq, show 323 = 322 + 1 from rfl, ← displaySteps_cost initRom, run_add hrun, hend]
  · rw [ha, runDone_trace, htr, displaySteps_events]
    simp [displayStarted, acceptGo]

end

/-! ### Under `Present(0x3C)` (R198) -/

/-- `Present(a)` along the write steps that are left supports them. -/
theorem supports_present (a : BusAddr) :
    Supports a fun xs => Along (xs.map WriteStep.cost).sum (State.Present a) := by
  intro x xs s h hp
  rw [List.map_cons, List.sum_cons] at hp
  have hframe : Along (x.bytes.length + 3 + 1) (State.Present a) s := hp.of_le (by rw [WriteStep.cost]; omega)
  obtain ⟨e, hack⟩ := h.accepted.write_reaches_stop h.nonempty (frameBegun_loaded a x.bytes s)
    ((hframe.tail h.step_eq).of_le (by omega))
  exact ⟨e, hack, fun t hrun _ => hp.after hrun⟩

/-! ### What the trace counts (R198) -/

theorem ite_one_eq_toNat (c : Bool) : (if c = true then 1 else 0) = c.toNat := by cases c <;> rfl

section
variable {f : Event → Bool} {q : Bool}

/-- A predicate that does not look at the bytes driven counts the same in every slot. -/
theorem ackedBytes_countP (hq : ∀ b, f (.TX b) = q) (bs : List Byte) :
    (ackedBytes bs).countP f = bs.length * (q.toNat + (f (.AI .ack)).toNat) := by
  induction bs with
  | nil => rw [List.length_nil, Nat.zero_mul]; rfl
  | cons b bs ih =>
    rw [ackedBytes, List.countP_cons, List.countP_cons, ih, hq, ite_one_eq_toNat, ite_one_eq_toNat,
      List.length_cons]
    ring

theorem writeFrame_countP (hq : ∀ b, f (.TX b) = q) (a : BusAddr) (bs : List Byte) :
    (writeFrame a bs).countP f =
      (f .S).toNat + (bs.length + 1) * (q.toNat + (f (.AI .ack)).toNat) + (f .P).toNat := by
  rw [writeFrame, List.countP_cons, List.countP_append, List.countP_singleton, ackedBytes_countP hq,
    ite_one_eq_toNat, ite_one_eq_toNat, List.length_cons]
  ring

/-- The display script's trace has 28 frames, 213 driven bytes and 25 delays (R198). -/
theorem displayTrace_countP (hq : ∀ b, f (.TX b) = q) (initRom : Fin 25 → Byte) :
    (displayTrace initRom).countP f =
      28 * (f .S).toNat + 28 * (f .P).toNat + 213 * (q.toNat + (f (.AI .ack)).toNat) + 25 * (f (.DLY 10)).toNat := by
  have hcontent : (BitVec.ofNat 9 Config.nContent).toNat = 128 := rfl
  simp only [displayTrace, List.countP_append, List.countP_flatMap, Function.comp_def, writeFrame_countP hq,
    patternFrame_length, hcontent, List.map_const', List.length_finRange, List.sum_replicate, List.countP_singleton,
    ite_one_eq_toNat, List.length_cons, List.length_nil, Config.settleMs, Config.winCol, Config.winPage, smul_eq_mul]
  omega

theorem displayTrace_count (x : Event) (hx : ∀ b, x ≠ .TX b) (initRom : Fin 25 → Byte) :
    (displayTrace initRom).count x =
      28 * (Event.S == x).toNat + 28 * (Event.P == x).toNat + 213 * (Event.AI .ack == x).toNat
        + 25 * (Event.DLY 10 == x).toNat := by
  have h := displayTrace_countP (f := (· == x)) (q := false) (fun b => beq_false_of_ne (hx b).symm) initRom
  rwa [Bool.toNat_false, Nat.zero_add] at h

theorem writeFrame_no_delay (a : BusAddr) (bs : List Byte) (n : Nat) : .DLY n ∉ writeFrame a bs := by
  have h := writeFrame_countP (f := (· == .DLY n)) (q := false) (fun _ => rfl) a bs
  exact List.count_eq_zero.1 h

/-- But for the delays the display script's trace is its 28 frames (R198). -/
theorem displayTrace_filter (initRom : Fin 25 → Byte) :
    (displayTrace initRom).filter (· ≠ .DLY 10) = (displayFrames initRom).flatMap (writeFrame Config.displayAddr) := by
  have hkept (bs : List Byte) : (writeFrame Config.displayAddr bs).filter (fun e => !decide (e = .DLY 10)) =
      writeFrame Config.displayAddr bs :=
    List.filter_eq_self.2 fun e he => by
      simpa using fun hd : e = .DLY 10 => writeFrame_no_delay _ _ _ (hd ▸ he)
  simp [displayTrace, displayFrames, List.filter_flatMap, List.flatMap_map, Config.settleMs, hkept]

end

/-- Settles O50: the premise supports the script's steps, and the trace is counted frame by frame. -/
theorem displayRun : Obligations.DisplayRun := by
  refine ⟨fun s initRom hu hl hq hgo hsel hrom hbytes hdisp hloop hp => ?_, fun initRom => ?_⟩
  · have h : GivenDisplayGo initRom s := ⟨hu, hl, hq, hgo, hsel, hrom, hbytes, hdisp, hloop⟩
    have hpresent : Along ((displaySteps initRom).map WriteStep.cost).sum (State.Present Config.displayAddr)
        (displayStarted s) := by
      rw [displaySteps_cost]
      exact (hp.tail h.step_eq).of_le (by omega)
    obtain ⟨t, -, hrun, htr, hf, -⟩ := h.run_display (supports_present _) hpresent
    exact ⟨t, hrun, htr, busy_eq_false.2 hf.idle, hf.done, hf.failed, hf.errKind, hf.pc, hf.script⟩
  · refine ⟨?length, displayTrace_count .S nofun initRom, displayTrace_count .P nofun initRom,
      displayTrace_count (.AI .ack) nofun initRom, displayTrace_count (.DLY 10) nofun initRom, rfl,
      displayTrace_countP (q := true) (fun _ => rfl) initRom, displayTrace_filter initRom, rfl, rfl⟩
    case length =>
      rw [← List.countP_true]
      exact displayTrace_countP (q := true) (fun _ => rfl) initRom

/-! ### Write frames whose answers are known (R125, R126) -/

/-- The environment `e` acknowledges the bytes `bs`, driven one after the other from the trace `tr` on, and is `f` after
them. -/
def Acks : Env → List Event → List Byte → Env → Prop
  | e, _, [], f => e = f
  | e, tr, b :: bs, f => (e.askWrite tr b).1 = .ack ∧ Acks (e.askWrite tr b).2 (tr ++ [Event.TX b, Event.AI .ack]) bs f

section
variable {a : BusAddr} {b : Byte} {bs : List Byte} {s t : State} {es fs : List Event} {i j : Count}
  {m k : MftState} {rx ry : Memory} {e f : Env}

/-- Slots followed by slots. -/
theorem Reaches.then_slots {n n' : Nat} (h : Reaches n s (slotsDone es i m rx e s))
    (hnext : ∀ t, Alike t (slotsDone es i m rx e s) → t.undisturbed → Reaches n' t (slotsDone fs j k ry f t)) :
    Reaches (n + n') s (slotsDone (es ++ fs) j k ry f s) := by
  have htwice : slotsDone fs j k ry f (slotsDone es i m rx e s) = slotsDone (es ++ fs) j k ry f s := by
    simp only [slotsDone, List.append_assoc]
  exact h.trans fun t ha hu => (hnext t ha hu).alike (htwice ▸ ha.after_slots)

/-- An acknowledged byte of a write frame is one step (R126). -/
theorem Sending.reaches_acked (h : Sending a (b :: bs) s) (hack : (s.env.askWrite s.trace b).1 = .ack) :
    Reaches 1 s (slotsDone [.TX b, .AI .ack] (s.byteIdx + 1#9) (if bs = [] then .stop else .tx) s.rxbuf
      (s.env.askWrite s.trace b).2 s) := by
  have hslot := slot_tx h.calm h.level h.running h.tx h.hand
  refine h.reaches_one ?_
  simpa only [SlotStep, hack, slotResult, dataAcked, h.last_iff, slotsDone] using hslot

/-- The bytes that are left are sent in as many steps, each acknowledged. -/
theorem Sending.reaches_stop_acked : ∀ {bs : List Byte} {s : State}, Sending a bs s → bs ≠ [] →
    Acks s.env s.trace bs f → Reaches bs.length s (slotsDone (ackedBytes bs) s.fLen .stop s.rxbuf f s)
  | [], _, _, hne, _ => absurd rfl hne
  | [b], s, h, _, hacks => by
    obtain ⟨hack, rfl⟩ := hacks
    rw [← h.last_index]
    exact h.reaches_acked hack
  | b :: c :: bs, s, h, _, hacks => by
    obtain ⟨hack, hrest⟩ := hacks
    have hr := h.reaches_acked hack
    rw [if_neg (List.cons_ne_nil c bs)] at hr
    rw [List.length_cons, Nat.add_comm]
    refine hr.then_slots fun t ha hu => ?_
    have hnext := h.next.alike ha hu
    obtain ⟨q, l, rfl⟩ := ha.elim
    exact hnext.reaches_stop_acked (List.cons_ne_nil c bs) hrest

/-- An acknowledged address byte of a write frame is one step (R125). -/
theorem InFrame.reaches_address_acked (h : InFrame a s) (hm : s.mftState = .addr) (hrw : s.fRw = .write)
    (hack : (s.env.askWrite s.trace (addrByte a .write)).1 = .ack) :
    Reaches 1 s (slotsDone [.TX (addrByte a .write), .AI .ack] s.byteIdx .tx s.rxbuf
      (s.env.askWrite s.trace (addrByte a .write)).2 s) := by
  obtain rfl := h.addr
  have hslot := slot_addr h.calm h.level h.running hm
  have hbyte : s.frameAddrByte = addrByte s.fAddr .write := by rw [State.frameAddrByte, hrw]
  refine h.reaches_one ?_
  simpa only [SlotStep, hbyte, hack, slotResult, hrw, if_true, slotsDone] using hslot

/-- The start condition and an acknowledged address byte are two steps (R123, R125). -/
theorem Accepted.reaches_data_acked {n : Nat} (h : Accepted a .write n s)
    (hack : (s.env.askWrite (s.trace ++ [Event.S]) (addrByte a .write)).1 = .ack) :
    Reaches 2 s (slotsDone [.S, .TX (addrByte a .write), .AI .ack] s.byteIdx .tx s.rxbuf
      (s.env.askWrite (s.trace ++ [Event.S]) (addrByte a .write)).2 s) := by
  have hstart := h.reaches_one (es := [.S]) (i := s.byteIdx) (m := .addr) (rx := s.rxbuf) (e := s.env)
    (step_start h.calm h.level h.running h.start)
  refine hstart.then_slots (n' := 1) (fs := [.TX (addrByte a .write), .AI .ack]) fun t ha hu => ?_
  have hin := h.toInFrame.after_slots.alike ha hu
  obtain ⟨q, l, rfl⟩ := ha.elim
  exact hin.reaches_address_acked rfl h.dir hack

/-- A write frame all of whose bytes are acknowledged comes to its stop condition (R92). -/
theorem Accepted.write_reaches_stop_acked (h : Accepted a .write bs.length s) (hne : bs ≠ [])
    (hmem : ∀ j, j < bs.length → Memory.read s.txbuf j = bs[j]?)
    (hacks : Acks s.env (s.trace ++ [Event.S]) (addrByte a .write :: bs) f) :
    Reaches (2 + bs.length) s (slotsDone (.S :: ackedBytes (addrByte a .write :: bs)) s.fLen .stop s.rxbuf f s) := by
  obtain ⟨hack, hrest⟩ := hacks
  refine (h.reaches_data_acked hack).then_slots (fs := ackedBytes bs) fun t ha hu => ?_
  have hin := h.toInFrame.after_slots.alike ha hu
  obtain ⟨q, l, rfl⟩ := ha.elim
  have hsend : Sending a bs _ :=
    ⟨⟨hin, by simp [slotsDone, h.first, h.len], h.len ▸ h.short⟩, rfl, by simpa [slotsDone, h.first] using hmem⟩
  exact hsend.reaches_stop_acked hne (by simpa [slotsDone] using hrest)

end

/-! ### ENV-DISP (R219) -/

/-- The environment is ENV-DISP in the state `d`, with no answer to be replaced. -/
structure OnDisplay (d : DispSim) (e : Env) : Prop where
  sim : e.sim = .envDisp d
  inject : e.inject = none

/-- A frame to the display is in progress, past its address byte. -/
structure InDisplayFrame (tr : List Event) : Prop where
  past : addressSlot tr = false
  address : frameAddress tr = some (addrByte Config.displayAddr .write)

section
variable {d : DispSim} {e : Env} {tr : List Event} {b : Byte} {log : List (List Byte)} {g : List Byte}

theorem OnDisplay.askWrite (h : OnDisplay d e) (tr : List Event) (b : Byte) :
    (e.askWrite tr b).1 = (d.onWrite tr b).1 ∧ OnDisplay (d.onWrite tr b).2 (e.askWrite tr b).2 := by
  have hnone : e.injected = none := by rw [Env.injected, h.inject]
  simp only [Env.askWrite, hnone, h.sim, Sim.onWrite]
  exact ⟨trivial, rfl, h.inject⟩

theorem appendLast_append (log : List (List Byte)) (g : List Byte) (b : Byte) :
    appendLast (log ++ [g]) b = log ++ [g ++ [b]] := by
  induction log with
  | nil => rfl
  | cons f log ih =>
    cases log with
    | nil => rfl
    | cons f' log => exact congrArg (f :: ·) ih

theorem frameSoFar_start (tr : List Event) : frameSoFar (tr ++ [Event.S]) = [] := by simp [frameSoFar]

theorem frameSoFar_slot (tr : List Event) (b : Byte) (x : AckBit) :
    frameSoFar (tr ++ [Event.TX b, Event.AI x]) = frameSoFar tr ++ [Event.TX b, Event.AI x] := by simp [frameSoFar]

theorem addressSlot_slot (tr : List Event) (b : Byte) (x : AckBit) :
    addressSlot (tr ++ [Event.TX b, Event.AI x]) = false := by
  simp [addressSlot]

theorem InDisplayFrame.first (tr : List Event) :
    InDisplayFrame (tr ++ [Event.S] ++ [Event.TX (addrByte Config.displayAddr .write), Event.AI .ack]) :=
  ⟨addressSlot_slot _ _ _, by rw [frameAddress, frameSoFar_slot, frameSoFar_start]; rfl⟩

theorem InDisplayFrame.next (h : InDisplayFrame tr) (b : Byte) :
    InDisplayFrame (tr ++ [Event.TX b, Event.AI .ack]) := by
  refine ⟨addressSlot_slot _ _ _, ?_⟩
  have haddr := h.address
  rw [frameAddress] at haddr
  split at haddr
  · next hf =>
    rw [frameAddress, frameSoFar_slot, hf]
    exact haddr
  · cases haddr

/-- The display acknowledges its address byte and opens an entry of its log. -/
theorem DispSim.onWrite_address (d : DispSim) (tr : List Event) :
    d.onWrite (tr ++ [Event.S]) (addrByte Config.displayAddr .write) = (.ack, ⟨d.log ++ [[]]⟩) := by
  simp [DispSim.onWrite, addressSlot]

/-- The display acknowledges a data byte and logs it. -/
theorem InDisplayFrame.onWrite (h : InDisplayFrame tr) (d : DispSim) (b : Byte) :
    d.onWrite tr b = (.ack, ⟨appendLast d.log b⟩) := by
  simp [DispSim.onWrite, h.past, h.address]

/-- The display acknowledges the data bytes of a frame and logs them. -/
theorem OnDisplay.acks_data : ∀ (bs : List Byte) {e : Env} {tr : List Event} {g : List Byte},
    OnDisplay ⟨log ++ [g]⟩ e → InDisplayFrame tr → ∃ f, Acks e tr bs f ∧ OnDisplay ⟨log ++ [g ++ bs]⟩ f
  | [], e, _, g, h, _ => ⟨e, rfl, by rwa [List.append_nil]⟩
  | b :: bs, e, tr, g, h, hin => by
    obtain ⟨hack, hnext⟩ := h.askWrite tr b
    rw [hin.onWrite] at hack hnext
    rw [appendLast_append] at hnext
    obtain ⟨f, hacks, hf⟩ := OnDisplay.acks_data bs hnext (hin.next b)
    exact ⟨f, ⟨hack, hacks⟩, by simpa using hf⟩

/-- The display acknowledges every byte of a write frame to it, and its log grows by the data bytes. -/
theorem OnDisplay.acks_frame (h : OnDisplay ⟨log⟩ e) (tr : List Event) (bs : List Byte) :
    ∃ f, Acks e (tr ++ [Event.S]) (addrByte Config.displayAddr .write :: bs) f ∧ OnDisplay ⟨log ++ [bs]⟩ f := by
  obtain ⟨hack, hnext⟩ := h.askWrite (tr ++ [Event.S]) (addrByte Config.displayAddr .write)
  rw [DispSim.onWrite_address] at hack hnext
  obtain ⟨f, hacks, hf⟩ := hnext.acks_data bs (.first tr)
  exact ⟨f, ⟨hack, hacks⟩, hf⟩

end

/-- ENV-DISP supports write steps to the display. -/
theorem supports_onDisplay (total : List (List Byte)) :
    Supports Config.displayAddr fun xs s =>
      ∃ log, OnDisplay ⟨log⟩ s.env ∧ log ++ xs.map WriteStep.bytes = total := by
  rintro x xs s h ⟨log, henv, htotal⟩
  obtain ⟨f, hacks, hf⟩ := henv.acks_frame s.trace x.bytes
  refine ⟨f, h.accepted.write_reaches_stop_acked h.nonempty (frameBegun_loaded _ x.bytes s) ?_, fun t _ ht =>
    ⟨log ++ [x.bytes], ht ▸ hf, by rw [← htotal]; simp⟩⟩
  rw [advancePorts_env, advancePorts_trace]
  exact hacks

/-- Settles O52: ENV-DISP supports the script's steps, and logs the data bytes of each frame. -/
theorem displayRunOnEnvDisp : Obligations.DisplayRunOnEnvDisp := by
  intro s initRom d hu hl hq hgo hsel hrom hbytes hdisp hloop hsim hinj
  have h : GivenDisplayGo initRom s := ⟨hu, hl, hq, hgo, hsel, hrom, hbytes, hdisp, hloop⟩
  have henv : OnDisplay d (displayStarted s).env := by
    rw [displayStarted, advancePorts_env]
    exact ⟨by simpa [acceptGo] using hsim, by simpa [acceptGo] using hinj⟩
  obtain ⟨t, u, hrun, htr, hf, ⟨log, hon, hlog⟩, ht⟩ :=
    h.run_display (supports_onDisplay (d.log ++ displayFrames initRom)) ⟨d.log, henv, by rw [displaySteps_bytes]⟩
  rw [List.map_nil, List.append_nil] at hlog
  exact ⟨t, hrun, htr, hf.done, hf.failed, by rw [ht, hon.sim, hlog]⟩

end Sys2Proof.Machine
end

section
/-! PROOFS. The statements of 43_loopback_script.md: a complete loopback run under `Echo(0x22, LOOP_PAYLOAD)` and on
ENV-LOOP (R210 to R218). The run is GO, a write frame, a read frame and END; what each frame needs of the environment is
its slots' answers, which the premise gives in the one statement and the simulator in the other. -/

namespace Sys2Proof.Machine

open Sys2Proof

/-! ### A step whose frame succeeds (R130, R165, R172) -/

/-- The state after the fetch of a step that has MFT perform `(a, rw, n)`, `txbuf` being `tx` (R165). -/
def stepFrame (a : BusAddr) (rw : Dir) (n : Count) (tx : Memory) (s : State) : State :=
  frameAccepted a rw n { s with txbuf := tx, seqState := .xfer }

section
variable {rom : Vector StepWord 32} {bytes : Vector Byte 37} {p : Params} {sel : Script} {pc : StepIdx}
  {a : BusAddr} {rw : Dir} {n i : Count} {d : BitVec 4} {tx rx : Memory} {k : Nat} {es : List Event} {e : Env}
  {s : State}

theorem stepFrame_accepted (hu : s.undisturbed) (hl : s.level = .symbol) (h256 : n.toNat ≤ 256) :
    Accepted a rw n.toNat (advancePorts (stepFrame a rw n tx s)) := by
  have hacc : Accepted a rw n.toNat (stepFrame a rw n tx s) := ⟨⟨hu, hl, .inl rfl, rfl⟩, rfl, rfl, rfl, h256, rfl, rfl⟩
  exact hacc.alike (advancePorts_alike _) (undisturbed_advance hu)

/-- A step without a delay whose frame's slots are done without an error leads to the next fetch. -/
theorem AtStep.next_step_of_slots (h : AtStep rom bytes p sel pc s) (hpc : pc ≠ 31#5)
    (hd : stepDelay rom[pc.toNat] = 0#4) (h256 : n.toNat ≤ 256)
    (hstep : step s = .next (advancePorts (stepFrame a rw n tx s)))
    (hslots : Reaches k (advancePorts (stepFrame a rw n tx s))
      (slotsDone es i .stop rx e (advancePorts (stepFrame a rw n tx s)))) :
    ∃ t, run (k + 2) s = .next t ∧ AtStep rom bytes p sel (pc + 1#5) t ∧ t.trace = s.trace ++ (es ++ [.P]) ∧
      t.env = e ∧ t.rxbuf = rx ∧ t.txbuf = tx := by
  have hacc := stepFrame_accepted (a := a) (rw := rw) (tx := tx) h.undisturbed h.level h256
  obtain ⟨t, hrun, ha, hu, -⟩ := hslots
  obtain ⟨q, l, hf⟩ := (advancePorts_alike (stepFrame a rw n tx s)).elim
  rw [hf] at hacc ha
  have hin := hacc.toInFrame.after_slots.alike ha hu
  have hword : stepDelay s.stepWordAt = 0#4 := h.stepWordAt ▸ hd
  obtain ⟨c, u, hrun', ha', hu', -⟩ := hin.reaches_next_fetch (d := 0#4) (by rw [ha]; rfl) (by rw [ha]; rfl)
    (by rw [ha]; rfl) (by rw [ha]; exact h.pc.symm ▸ hpc) (by rw [ha]; exact hword)
  refine ⟨u, ?_, AtStep.alike (s := stepOver [.P] c t) ?_ ha' hu', ?_⟩
  · rw [run_succ (k + 1) s _ hstep, run_add hrun]
    exact hrun'
  · rw [ha]
    exact ⟨⟨h.toInRun.congr rfl, rfl, congrArg (· + 1#5) h.pc⟩, hu, h.bytes⟩
  · rw [ha', ha]
    exact ⟨List.append_assoc _ _ _, rfl, rfl, rfl⟩

/-- GO leads to the fetch of the first step of its script (R161). -/
theorem atStep_of_go (hu : s.undisturbed) (hl : s.level = .symbol) :
    AtStep s.scriptRom s.byteRom s.params sel (scriptBase s.params sel)
      (advancePorts (acceptGo sel (hostWrite s))) := by
  have hu' : (acceptGo sel (hostWrite s)).undisturbed := by simpa [State.undisturbed, acceptGo] using hu
  have hat : AtStep s.scriptRom s.byteRom s.params sel (scriptBase s.params sel) (acceptGo sel (hostWrite s)) :=
    ⟨⟨⟨by simpa [acceptGo] using hl, rfl, by simp [acceptGo], by simp [acceptGo], rfl, rfl, rfl, rfl, rfl⟩, rfl,
      by simp [acceptGo]⟩, hu', by simp [acceptGo]⟩
  exact hat.alike (advancePorts_alike _) (undisturbed_advance hu')

end

/-! ### The loopback script (R210, R211) -/

/-- An undisturbed idle block at symbol level with the reset tables is given GO for the loopback script (R161). -/
structure GivenLoopbackGo (initRom : Fin 25 → Byte) (s : State) : Prop where
  undisturbed : s.undisturbed
  level : s.level = .symbol
  idle : s.seqState = .idle
  go : s.ports.go = true
  loopback : s.ports.goSel = .loopback
  script : s.scriptRom = scriptRomReset
  bytes : s.byteRom = byteRomOf initRom
  displayBase : s.params.displayBase = 0#5
  loopBase : s.params.loopBase = 29#5

/-- The state after GO for the loopback script. -/
def loopbackStarted (s : State) : State := advancePorts (acceptGo .loopback (hostWrite s))

/-- The state after the fetch of the write step. -/
def payloadWriteBegun (s : State) : State :=
  advancePorts (frameBegun Config.loopAddr Config.loopPayload (loopbackStarted s))

/-- The state after the fetch of the read step. -/
def payloadReadBegun (t : State) : State := advancePorts (stepFrame Config.loopAddr .read 8#9 t.txbuf t)

/-- All slots of a read frame to `a`, begun in `s`, are done with the bytes `bs` received, and leave the environment `f`. -/
def FrameReceived (a : BusAddr) (bs : List Byte) (f : Env) (s : State) : Prop :=
  Reaches (2 + bs.length) s (slotsDone (.S :: .TX (addrByte a .read) :: .AI .ack :: receivedBytes bs) s.fLen .stop
    (Memory.writeFrom s.rxbuf 0 bs) f s)

/-- In `t` the write step of a loopback run from `s` is over and the read step is about to be fetched, the environment
being `e`. -/
structure PayloadSent (initRom : Fin 25 → Byte) (s : State) (e : Env) (t : State) : Prop
    extends AtStep scriptRomReset (byteRomOf initRom) s.params .loopback 30#5 t where
  trace : t.trace = s.trace ++ writeFrame Config.loopAddr Config.loopPayload
  env : t.env = e
  loaded : ∀ j, j < 8 → Memory.read t.txbuf j = Config.loopPayload[j]?

/-- In `u` the loopback run from `s` is over with success, the environment being `f`. -/
structure PayloadExchanged (s : State) (f : Env) (u : State) : Prop extends FinishedRun .loopback 31#5 u where
  trace : u.trace = s.trace ++ loopbackTrace
  env : u.env = f
  received : ∀ j, j < 8 → Memory.read u.rxbuf j = Config.loopPayload[j]?
  sent : ∀ j, j < 8 → Memory.read u.txbuf j = Config.loopPayload[j]?

section
variable {initRom : Fin 25 → Byte} {s t u : State} {e f : Env}

theorem GivenLoopbackGo.step_eq (h : GivenLoopbackGo initRom s) : step s = .next (loopbackStarted s) := by
  rw [step_of_go h.undisturbed h.level h.idle h.go (tableOk_of_reset h.script h.displayBase h.loopBase), h.loopback,
    loopbackStarted]

theorem GivenLoopbackGo.first_step (h : GivenLoopbackGo initRom s) :
    AtStep scriptRomReset (byteRomOf initRom) s.params .loopback 29#5 (loopbackStarted s) := by
  have hat := atStep_of_go (sel := .loopback) h.undisturbed h.level
  rwa [h.script, h.bytes, scriptBase, h.loopBase] at hat

/-- The first step of the script sends the payload (R40, R41, R169). -/
theorem loopback_sends (initRom : Fin 25 → Byte) :
    Sends (byteRomOf initRom) Config.loopAddr scriptRomReset[(29#5 : StepIdx).toNat] ⟨Config.loopPayload, 0#4⟩ :=
  .of_accepts (i := .wrr Config.loopAddr 8#9 29#8 0#4) (n := 8#9) (by decide) (by decide) rfl (by decide) (by decide)
    fun s hs => by
      rw [exec_wrr (by decide), hs]
      rfl

theorem GivenLoopbackGo.write_begins (h : GivenLoopbackGo initRom s) :
    FrameBegins Config.loopAddr ⟨Config.loopPayload, 0#4⟩ (loopbackStarted s) :=
  h.first_step.begins (loopback_sends initRom)

/-- The write step of a loopback run, if its frame is acknowledged. -/
theorem GivenLoopbackGo.run_write (h : GivenLoopbackGo initRom s)
    (hack : FrameAcked Config.loopAddr ⟨Config.loopPayload, 0#4⟩ e (payloadWriteBegun s)) :
    ∃ t, run 13 s = .next t ∧ PayloadSent initRom s e t := by
  obtain ⟨t, hrun, hat, htr, henv, -, htx⟩ :=
    h.first_step.next_step_of_slots (n := 8#9) (by decide) (by decide) (by decide) h.write_begins.step_eq hack
  refine ⟨t, (run_succ 12 s _ h.step_eq).trans hrun, hat, ?_, henv, fun j hj => ?_⟩
  · rw [htr]
    simp [loopbackStarted, acceptGo, writeFrame]
  · rw [htx, read_writeFrom_zero]
    exact if_pos hj

theorem PayloadSent.read_step_eq (h : PayloadSent initRom s e t) : step t = .next (payloadReadBegun t) := by
  have hp : t.paramsOk := fun hline => absurd (h.level.symm.trans hline) (by decide)
  have hword : decodeStep t.stepWordAt = .ok (.rdr Config.loopAddr 8#9 0#4) := by
    rw [h.toAtFetch.stepWordAt]
    decide
  rw [stepRunsFetchedStep t _ (undisturbed_calm h.undisturbed) hp h.fetch hword, exec_rdr (by decide), mapNext]
  rfl

theorem PayloadSent.read_accepted (h : PayloadSent initRom s e t) :
    Accepted Config.loopAddr .read Config.loopPayload.length (payloadReadBegun t) :=
  stepFrame_accepted (n := 8#9) h.undisturbed h.level (by decide)

/-- The read step of a loopback run and END, if the payload is received. -/
theorem PayloadSent.run_read (h : PayloadSent initRom s e t)
    (hrecv : FrameReceived Config.loopAddr Config.loopPayload f (payloadReadBegun t)) :
    ∃ u, run 13 t = .next u ∧ PayloadExchanged s f u := by
  obtain ⟨v, hrun, hat, htr, henv, hrx, htx⟩ :=
    h.toAtStep.next_step_of_slots (n := 8#9) (by decide) (by decide) (by decide) h.read_step_eq hrecv
  obtain ⟨⟨u, hend, ha, -⟩, hfin⟩ := hat.end_run hat.undisturbed (by decide)
  refine ⟨u, (run_add hrun 1).trans hend, hfin.alike ha, ?_, ?_, fun j hj => ?_, fun j hj => ?_⟩
  · rw [ha, runDone_trace, htr, h.trace, List.append_assoc]
    rfl
  · rw [ha, runDone_env, henv]
  · rw [ha, runDone_rxbuf, hrx, read_writeFrom_zero]
    exact if_pos hj
  · rw [ha, runDone_txbuf, htx]
    exact h.loaded j hj

end

/-- Settles O51: the premise has the write frame acknowledged and the read frame answered with the payload. -/
theorem loopbackRun : Obligations.LoopbackRun := by
  refine ⟨fun s initRom hu hl hq hgo hsel hrom hbytes hdisp hloop hp => ?_, by decide, by decide, by decide⟩
  have h : GivenLoopbackGo initRom s := ⟨hu, hl, hq, hgo, hsel, hrom, hbytes, hdisp, hloop⟩
  have hecho : Along 26 (State.Echo Config.loopAddr Config.loopPayload) s := hp.imp fun _ ht => ht.1
  have hpresent : Along 10 (State.Present Config.loopAddr) (payloadWriteBegun s) :=
    (((hecho.tail h.step_eq).tail h.write_begins.step_eq).imp fun _ ht => ht.1).of_le (by decide)
  obtain ⟨e, hack⟩ := h.write_begins.accepted.write_reaches_stop h.write_begins.nonempty
    (frameBegun_loaded _ _ _) hpresent
  obtain ⟨t, hrun, ht⟩ := h.run_write hack
  have hrest : Along 10 (State.Echo Config.loopAddr Config.loopPayload) (payloadReadBegun t) :=
    ((hecho.after (m := 13) (n := 13) hrun).tail ht.read_step_eq).of_le (by decide)
  obtain ⟨f, hrecv⟩ := ht.read_accepted.read_reaches_stop (by decide) hrest
  obtain ⟨u, hrun', hx⟩ := ht.run_read hrecv
  exact ⟨u, (run_add hrun 13).trans hrun', hx.trace, busy_eq_false.2 hx.idle, hx.done, hx.failed, hx.errKind, hx.pc,
    hx.script, fun j hj => ⟨hx.received j hj, hx.sent j hj⟩⟩

/-! ### Read frames whose answers are known (R125, R133) -/

/-- The environment `e` answers the requests for the bytes `bs`, put one after the other from the trace `tr` on, with
these bytes, and is `f` after them. -/
def Gives : Env → List Event → List Byte → Env → Prop
  | e, _, [], f => e = f
  | e, tr, b :: bs, f => (e.askRead tr).1 = .byte b ∧
      Gives (e.askRead tr).2 (tr ++ [Event.RX b, Event.AO (if bs = [] then .nack else .ack)]) bs f

/-- The environment `e` acknowledges the address byte of a read frame to `a` begun after the trace `tr`, gives the bytes
`bs`, and is `f` after them. -/
def GivesFrame (a : BusAddr) (e : Env) (tr : List Event) (bs : List Byte) (f : Env) : Prop :=
  (e.askWrite (tr ++ [Event.S]) (addrByte a .read)).1 = .ack ∧
    Gives (e.askWrite (tr ++ [Event.S]) (addrByte a .read)).2
      (tr ++ [Event.S] ++ [Event.TX (addrByte a .read), Event.AI .ack]) bs f

section
variable {a : BusAddr} {b : Byte} {p bs : List Byte} {s : State} {f : Env}

/-- A byte that the environment gives is received in one step (R133, R135). -/
theorem Receiving.reaches_given (h : Receiving a p (b :: bs) s) (hgive : (s.env.askRead s.trace).1 = .byte b) :
    Reaches 1 s (slotsDone [.RX b, .AO (if bs = [] then .nack else .ack)] (s.byteIdx + 1#9)
      (if bs = [] then .stop else .rx) (Memory.write s.rxbuf s.byteIdx.toNat b) (s.env.askRead s.trace).2 s) := by
  have hslot := step_rx h.calm h.level h.running h.rx
  refine h.reaches_one ?_
  simpa only [hgive, readResult, receiveByte, emit, State.lastByte, decide_eq_true_eq, h.last_iff, slotsDone]
    using hslot

/-- The bytes that are left are received in as many steps, if the environment gives them. -/
theorem Receiving.reaches_stop_given : ∀ {bs : List Byte} {s : State}, Receiving a p bs s → bs ≠ [] →
    Gives s.env s.trace bs f → Reaches bs.length s
      (slotsDone (receivedBytes bs) s.fLen .stop (Memory.writeFrom s.rxbuf s.byteIdx.toNat bs) f s)
  | [], _, _, hne, _ => absurd rfl hne
  | [b], s, h, _, hgives => by
    obtain ⟨hgive, rfl⟩ := hgives
    rw [← h.last_index]
    exact h.reaches_given hgive
  | b :: c :: bs, s, h, _, hgives => by
    obtain ⟨hgive, hrest⟩ := hgives
    have hr := h.reaches_given hgive
    rw [if_neg (List.cons_ne_nil c bs), if_neg (List.cons_ne_nil c bs)] at hr
    rw [if_neg (List.cons_ne_nil c bs)] at hrest
    rw [List.length_cons, Nat.add_comm]
    refine hr.then_slots fun t ha hu => ?_
    have hnext := h.next.alike ha hu
    rw [Memory.writeFrom, ← h.index_succ]
    obtain ⟨q, l, rfl⟩ := ha.elim
    exact hnext.reaches_stop_given (List.cons_ne_nil c bs) hrest

/-- An acknowledged address byte of a read frame is one step (R125). -/
theorem InFrame.reaches_read_address (h : InFrame a s) (hm : s.mftState = .addr) (hrw : s.fRw = .read)
    (hack : (s.env.askWrite s.trace (addrByte a .read)).1 = .ack) :
    Reaches 1 s (slotsDone [.TX (addrByte a .read), .AI .ack] s.byteIdx .rx s.rxbuf
      (s.env.askWrite s.trace (addrByte a .read)).2 s) := by
  obtain rfl := h.addr
  have hslot := slot_addr h.calm h.level h.running hm
  have hbyte : s.frameAddrByte = addrByte s.fAddr .read := by rw [State.frameAddrByte, hrw]
  refine h.reaches_one ?_
  simpa [SlotStep, hbyte, hack, slotResult, hrw, slotsDone] using hslot

/-- A read frame whose bytes the environment gives comes to its stop condition with them received (R93). -/
theorem Accepted.read_reaches_stop_given (h : Accepted a .read p.length s) (hne : p ≠ [])
    (hgives : GivesFrame a s.env s.trace p f) : FrameReceived a p f s := by
  obtain ⟨hack, hrest⟩ := hgives
  have hstart := h.reaches_one (es := [.S]) (i := s.byteIdx) (m := .addr) (rx := s.rxbuf) (e := s.env)
    (step_start h.calm h.level h.running h.start)
  have haddr : Reaches 2 s (slotsDone [.S, .TX (addrByte a .read), .AI .ack] s.byteIdx .rx s.rxbuf
      (s.env.askWrite (s.trace ++ [Event.S]) (addrByte a .read)).2 s) := by
    refine hstart.then_slots (n' := 1) (fs := [.TX (addrByte a .read), .AI .ack]) fun t ha hu => ?_
    have hin := h.toInFrame.after_slots.alike ha hu
    obtain ⟨q, l, rfl⟩ := ha.elim
    exact hin.reaches_read_address rfl h.dir hack
  refine haddr.then_slots (fs := receivedBytes p) fun t ha hu => ?_
  have hin := h.toInFrame.after_slots.alike ha hu
  obtain ⟨q, l, rfl⟩ := ha.elim
  have hreceive : Receiving a p p _ :=
    ⟨⟨hin, by simp [slotsDone, h.first, h.len], h.len ▸ h.short⟩, rfl, by simp [slotsDone, h.first]⟩
  have hstop := hreceive.reaches_stop_given hne (f := f) (by simpa [slotsDone] using hrest)
  simpa [slotsDone, h.first] using hstop

end

/-! ### ENV-LOOP (R215) -/

/-- The environment is ENV-LOOP at the address of the loopback script with the queues `p_rx = rx` and `p_tx = tx`, and no
answer is to be replaced. -/
structure OnLoop (rx tx : List Byte) (e : Env) : Prop where
  sim : e.sim = .envLoop ⟨Config.loopAddr, rx, tx⟩
  inject : e.inject = none

section
variable {rx tx : List Byte} {b x : Byte} {e : Env} {tr es : List Event}

theorem OnLoop.askWrite_ack {rx' tx' : List Byte} (h : OnLoop rx tx e)
    (ha : LoopSim.onWrite ⟨Config.loopAddr, rx, tx⟩ tr b = (.ack, ⟨Config.loopAddr, rx', tx'⟩)) :
    (e.askWrite tr b).1 = .ack ∧ OnLoop rx' tx' (e.askWrite tr b).2 := by
  have hnone : e.injected = none := by rw [Env.injected, h.inject]
  simp only [Env.askWrite, hnone, h.sim, Sim.onWrite, ha, true_and]
  exact ⟨rfl, h.inject⟩

theorem OnLoop.askRead_byte {rx' tx' : List Byte} (h : OnLoop rx tx e)
    (ha : LoopSim.onRead ⟨Config.loopAddr, rx, tx⟩ tr = some (.byte b, ⟨Config.loopAddr, rx', tx'⟩)) :
    (e.askRead tr).1 = .byte b ∧ OnLoop rx' tx' (e.askRead tr).2 := by
  have hnone : e.injected = none := by rw [Env.injected, h.inject]
  simp only [Env.askRead, hnone, h.sim, Sim.onRead, ha, true_and]
  exact ⟨rfl, h.inject⟩

theorem frameSoFar_append (tr : List Event) (hes : .S ∉ es) : frameSoFar (tr ++ es) = frameSoFar tr ++ es := by
  induction es using List.reverseRecOn with
  | nil => simp
  | append_singleton es x ih =>
    simp only [List.mem_append, List.mem_singleton, not_or] at hes
    obtain ⟨hes, hx⟩ := hes
    rw [← List.append_assoc, frameSoFar, List.foldl_concat, ← frameSoFar, if_neg (Ne.symm hx), ih hes,
      List.append_assoc]

/-- The address byte of a frame stays what it is as the frame goes on. -/
theorem frameAddress_append (h : frameAddress tr = some x) (hes : .S ∉ es) : frameAddress (tr ++ es) = some x := by
  rw [frameAddress] at h
  split at h
  · next hf =>
    rw [frameAddress, frameSoFar_append tr hes, hf]
    exact h
  · cases h

theorem frameAddress_slot (tr : List Event) (x : Byte) (y : AckBit) :
    frameAddress (tr ++ [Event.S] ++ [Event.TX x, Event.AI y]) = some x := by
  rw [frameAddress, frameSoFar_slot, frameSoFar_start]
  rfl

/-- The peripheral acknowledges its address byte in both directions. -/
theorem OnLoop.acks_address (h : OnLoop rx tx e) (tr : List Event) (rw : Dir) :
    (e.askWrite (tr ++ [Event.S]) (addrByte Config.loopAddr rw)).1 = .ack ∧
      OnLoop rx tx (e.askWrite (tr ++ [Event.S]) (addrByte Config.loopAddr rw)).2 := by
  refine h.askWrite_ack ?_
  cases rw <;> simp [LoopSim.onWrite, addressSlot]

/-- The peripheral acknowledges the data bytes of a write frame to it and queues them, while its queue has room. -/
theorem OnLoop.acks_data : ∀ (bs : List Byte) {rx : List Byte} {e : Env} {tr : List Event}, OnLoop rx tx e →
    addressSlot tr = false → frameAddress tr = some (addrByte Config.loopAddr .write) → rx.length + bs.length ≤ 256 →
    ∃ f, Acks e tr bs f ∧ OnLoop (rx ++ bs) tx f
  | [], rx, e, _, h, _, _, _ => ⟨e, rfl, by rwa [List.append_nil]⟩
  | b :: bs, rx, e, tr, h, hpast, haddr, hroom => by
    rw [List.length_cons] at hroom
    have hfree : rx.length < 256 := by omega
    obtain ⟨hack, hnext⟩ := h.askWrite_ack (tr := tr) (b := b) (rx' := rx ++ [b]) (tx' := tx)
      (by simp [LoopSim.onWrite, hpast, haddr, hfree, Config.bufCap])
    obtain ⟨f, hacks, hf⟩ := OnLoop.acks_data bs hnext (addressSlot_slot tr b .ack)
      (frameAddress_append haddr (by simp)) (by rw [List.length_append, List.length_singleton]; omega)
    exact ⟨f, ⟨hack, hacks⟩, by simpa using hf⟩

/-- The peripheral acknowledges every byte of a write frame to it and queues the data bytes. -/
theorem OnLoop.acks_frame (h : OnLoop rx tx e) (tr : List Event) {bs : List Byte}
    (hroom : rx.length + bs.length ≤ 256) :
    ∃ f, Acks e (tr ++ [Event.S]) (addrByte Config.loopAddr .write :: bs) f ∧ OnLoop (rx ++ bs) tx f := by
  obtain ⟨hack, hnext⟩ := h.acks_address tr .write
  obtain ⟨f, hacks, hf⟩ := hnext.acks_data bs (addressSlot_slot _ _ _) (frameAddress_slot tr _ .ack) hroom
  exact ⟨f, ⟨hack, hacks⟩, hf⟩

/-- The peripheral gives the bytes it has queued, the oldest first. -/
theorem OnLoop.gives_data : ∀ (bs : List Byte) {e : Env} {tr : List Event}, OnLoop rx (bs ++ tx) e →
    frameAddress tr = some (addrByte Config.loopAddr .read) → ∃ f, Gives e tr bs f ∧ OnLoop rx tx f
  | [], e, _, h, _ => ⟨e, rfl, h⟩
  | b :: bs, e, tr, h, haddr => by
    obtain ⟨hgive, hnext⟩ := h.askRead_byte (tr := tr) (b := b) (rx' := rx) (tx' := bs ++ tx)
      (by simp [LoopSim.onRead, haddr])
    have hnone : Event.S ∉ [Event.RX b, Event.AO (if bs = [] then .nack else .ack)] := by simp
    obtain ⟨f, hgives, hf⟩ := OnLoop.gives_data bs hnext (frameAddress_append haddr hnone)
    exact ⟨f, ⟨hgive, hgives⟩, hf⟩

/-- The peripheral answers a read frame to it with the bytes it has queued. -/
theorem OnLoop.gives_frame {bs : List Byte} (h : OnLoop rx (bs ++ tx) e) (tr : List Event) :
    ∃ f, GivesFrame Config.loopAddr e tr bs f ∧ OnLoop rx tx f := by
  obtain ⟨hack, hnext⟩ := h.acks_address tr .read
  obtain ⟨f, hgives, hf⟩ := hnext.gives_data bs (frameAddress_slot tr _ .ack)
  exact ⟨f, ⟨hack, hgives⟩, hf⟩

end

/-- The peripheral with the payload queued (R218). -/
theorem pWrite_payload : LoopSim.fresh.pWrite Config.loopPayload = some ⟨Config.loopAddr, [], Config.loopPayload⟩ := by
  decide

/-- Settles O53: the peripheral queues the payload of the write frame and answers the read frame with the payload it had
queued before. -/
theorem loopbackOnEnvLoop : Obligations.LoopbackOnEnvLoop := by
  intro s initRom l hu hl hq hgo hsel hrom hbytes hdisp hloop hqueued hsim hinj
  have h : GivenLoopbackGo initRom s := ⟨hu, hl, hq, hgo, hsel, hrom, hbytes, hdisp, hloop⟩
  obtain rfl := Option.some.inj (pWrite_payload.symm.trans hqueued)
  have hbegun : OnLoop [] Config.loopPayload (payloadWriteBegun s).env := by
    simpa [payloadWriteBegun, frameBegun, frameAccepted, loopbackStarted, acceptGo] using
      (⟨hsim, hinj⟩ : OnLoop [] Config.loopPayload s.env)
  obtain ⟨e, hacks, he⟩ := hbegun.acks_frame (payloadWriteBegun s).trace (bs := Config.loopPayload) (by decide)
  obtain ⟨t, hrun, ht⟩ := h.run_write (h.write_begins.accepted.write_reaches_stop_acked h.write_begins.nonempty
    (frameBegun_loaded _ _ _) hacks)
  have hsent : OnLoop Config.loopPayload (Config.loopPayload ++ []) (payloadReadBegun t).env := by
    simpa [payloadReadBegun, stepFrame, frameAccepted, ht.env] using he
  obtain ⟨f, hgives, hf⟩ := hsent.gives_frame (payloadReadBegun t).trace
  obtain ⟨u, hrun', hx⟩ := ht.run_read (ht.read_accepted.read_reaches_stop_given (by decide) hgives)
  exact ⟨u, _, (run_add hrun 13).trans hrun', hx.trace, hx.done, hx.failed, hx.received, by rw [hx.env, hf.sim], rfl,
    rfl⟩

end Sys2Proof.Machine
end

section
/-! PROOFS. The statements of 60_exceptions.md: a request of an illegal length (R234), what an error does to the run
(R235 to R238, R240), and the cause of each kind of error (R230 to R234). The moves that raise an error are listed once,
by `ErrorMove`; what an error leaves alone and what caused it are read off the move. -/

namespace Sys2Proof.Machine

open Sys2Proof

section
variable {s t : State}

/-! ### The moves that raise an error (R230, R234, R235) -/

/-- The moves that raise an error, with their causes: a request of an illegal length, a pending NACK handed over at the
stop condition, a byte slot that is abandoned. -/
inductive ErrorMove (s : State) : State → Prop where
  | illegalRequest : s.seqState = .idle → s.ports.reqValid = true →
      s.ports.reqLen.toNat = 0 ∨ 256 < s.ports.reqLen.toNat →
      ErrorMove s (abortRun .capacity 0#9 { clearStatus (hostWrite s) with seqState := .direct })
  | refused (tm q k) : s.seqState = .xfer ∨ s.seqState = .direct → s.mftState = .stop → s.mErrKind ≠ .none →
      CountersOk s tm q k →
      ErrorMove s
        (abortRun s.mErrKind s.mErrPos { emit [.P] (withLine s.bitCnt s.shreg tm q k s) with mftState := .idle })
  | abandoned (e : ErrKind) (tm q k) (env : Env) : s.seqState = .xfer ∨ s.seqState = .direct → AbandonCause s e →
      CountersOk s tm q k →
      ErrorMove s (abandon e s.slotPos { withLine s.bitCnt s.shreg tm q k s with env := env })

/-- A step that sets `failed` makes one of them: the other moves keep or clear it, and so does a reset. -/
theorem errorMove_of_step (h : step s = .next t) (hs : s.failed = false) (ht : t.failed = true) :
    ∃ u, ErrorMove s u ∧ t = advancePorts u := by
  rcases step_status h with ⟨-, rfl⟩ | ⟨-, u, hu, rfl⟩
  · simp [State.reset] at ht
  · refine ⟨u, ?_, rfl⟩
    rw [advancePorts_failed] at ht
    have hw (hq : (hostWrite s).seqState = .xfer ∨ (hostWrite s).seqState = .direct) : hostWrite s = s :=
      hostWrite_of_busy (by simpa using busy_of_running hq)
    cases hu with
    | same _ hf => simp [hf, hs] at ht
    | accept _ _ _ hf => simp [hf] at ht
    | success _ _ hf => simp [hf, hs] at ht
    | capacity hq _ hv hlen hu =>
      simp only [hostWrite_seqState, hostWrite_ports] at hq hv hlen
      exact hu ▸ .illegalRequest hq hv hlen
    | stopErr tm q k hq hm he hc hu =>
      rw [hw hq] at hm he hc hu
      rw [hostWrite_seqState] at hq
      exact hu ▸ .refused tm q k hq hm he hc
    | abandoned e tm q k env hq hcause hc hu =>
      rw [hw hq] at hcause hc hu
      rw [hostWrite_seqState] at hq
      exact hu ▸ .abandoned e tm q k env hq hcause hc

/-! ### What an error does to the run (R235 to R238, R240) -/

/-- The step an error of a running frame names, by the kind of the run (R237). -/
theorem failStepOf_running (hq : s.seqState = .xfer ∨ s.seqState = .direct) :
    s.seqState = .direct ∧ failStepOf s = 0#5 ∨
      s.seqState = .xfer ∧ failStepOf s = s.pc - scriptBase s.params s.sel := by
  rcases hq with hq | hq
  · exact .inr ⟨hq, by simp only [failStepOf, hq, State.localStep]⟩
  · exact .inl ⟨hq, by simp only [failStepOf, hq]⟩

end

/-- Settles O42: each move that raises an error is written out whole; while a frame runs the invariant has `done` = 0 and
the host's write is ignored. -/
theorem everyErrorEndsTheRun : Obligations.EveryErrorEndsTheRun := by
  intro s t hi h hs ht
  obtain ⟨u, hu, rfl⟩ := errorMove_of_step h hs ht
  obtain ⟨p, l, hp⟩ : ∃ p l, advancePorts u = { u with ports := p, schedule := l } := ⟨_, _, advancePorts_eq u⟩
  rw [hp]
  cases hu with
  | illegalRequest hq _ _ =>
    rw [hostWrite_eq s]
    exact ⟨rfl, fun _ => ⟨rfl, rfl, rfl⟩, by simp, .inl ⟨hq, rfl, rfl, rfl, rfl⟩⟩
  | refused tm q k hq hm he hc =>
    have hw : hostWrite s = s := hostWrite_of_busy (busy_of_running hq)
    obtain ⟨hd, -⟩ := hi.status.busyClear (busy_of_running hq)
    exact ⟨by rw [hw, ← hd]; rfl, hc, he, .inr ⟨failStepOf_running hq, .inl rfl⟩⟩
  | abandoned e tm q k env hq hcause hc =>
    have hw : hostWrite s = s := hostWrite_of_busy (busy_of_running hq)
    obtain ⟨hd, -⟩ := hi.status.busyClear (busy_of_running hq)
    have he : e ≠ .none := by rintro rfl; exact hcause
    exact ⟨by rw [hw, ← hd]; rfl, hc, he, .inr ⟨failStepOf_running hq, .inr rfl⟩⟩

/-! ### The cause of each kind of error (R230 to R234, R236) -/

/-- Settles O43: the invariant lets only an AddressingError be pending at the stop condition, and at symbol level it rules
out the acknowledge bits as states of their own. -/
theorem errorsHaveTheirCause : Obligations.ErrorsHaveTheirCause := by
  intro s t hi h hs ht
  obtain ⟨u, hu, rfl⟩ := errorMove_of_step h hs ht
  rw [advancePorts_errKind, advancePorts_errPos]
  cases hu with
  | illegalRequest hq hv hlen => simp [hq, hv, hlen]
  | refused tm q k hq hm he hc =>
    have hk : s.mErrKind = .addressing := (hi.frame.pending (by simp [hm])).resolve_left he
    simp [hm, hk]
  | abandoned e tm q k env hq hcause hc =>
    cases e with
    | timeout =>
      obtain ⟨hto, hsymbol, hline⟩ := hcause
      simpa [hto] using ⟨fun hl => hsymbol hl (hi.frame.symbolOnly hl), hline⟩
    | arbitration =>
      obtain ⟨hsymbol, hline⟩ := hcause
      simpa using ⟨fun hl => hsymbol hl (hi.frame.symbolOnly hl), hline⟩
    | none | addressing | capacity => exact hcause.elim

/-! ### A request of an illegal length (R234) -/

section
variable {s t : State}

/-- A request of an illegal length ends in the step that accepts it, with the status cleared before (R121, R163). -/
theorem acceptReq_illegal (rw : Dir) (a : BusAddr) {len : Count} (hlen : len.toNat = 0 ∨ 256 < len.toNat) :
    acceptReq rw a len s = abortRun .capacity 0#9 { clearStatus s with seqState := .direct } := by
  rcases startMft_cases a rw len { clearStatus s with seqState := .direct } with ⟨h1, h256, -⟩ | ⟨-, ht⟩
  · omega
  · exact ht

/-- A step from `Q_FETCH` without reset raises no error: it ends the run with success or starts a frame (R98, R165,
R166). -/
theorem step_fetch_keeps_error (hr : s.ports.rst = false) (hq : s.seqState = .fetch) (h : step s = .next t) :
    t.errKind = s.errKind ∧ t.failed = s.failed := by
  rcases step_status h with ⟨hr', -⟩ | ⟨-, u, hu, rfl⟩
  · simp [hr] at hr'
  · rw [advancePorts_errKind, advancePorts_failed]
    cases hu with
    | same _ hf hk => exact ⟨by rw [hk, hostWrite_errKind], by rw [hf, hostWrite_failed]⟩
    | success _ _ hf hk => exact ⟨by rw [hk, hostWrite_errKind], by rw [hf, hostWrite_failed]⟩
    | accept hi => simp [hq] at hi
    | capacity hi => simp [hq] at hi
    | stopErr _ _ _ hi => simp [hq] at hi
    | abandoned _ _ _ _ _ hi => simp [hq] at hi

end

/-- Settles O21: an idle block accepts the request and ends it in one step, and a fetched step starts no illegal frame. -/
theorem illegalLengthIsCapacityError : Obligations.IllegalLengthIsCapacityError := by
  refine ⟨fun s a len hb hlen => ⟨?_, ?_⟩, fun s t i hc _ hq _ h => step_fetch_keeps_error hc.1 hq h⟩
  · rw [exec_reqWrite_idle hb, acceptReq_illegal .write a hlen]
    rfl
  · rw [exec_reqRead_idle hb, acceptReq_illegal .read a hlen]
    rfl

end Sys2Proof.Machine
end

section
/-! PROOFS. The statement of 70_reset_and_hazards.md about a reset edge: its priority, the bus event of a frame it cuts
off, and the lines it releases (R28, R35, R270). -/

namespace Sys2Proof.Machine

open Sys2Proof

/-- A reset has priority over host access, command and run (R270). -/
theorem step_of_rst {s : State} (hr : s.ports.rst = true) : step s = .next (advancePorts (resetEdge s)) := by
  show mapNext advancePorts (if s.ports.rst then .next (resetEdge s) else runStep s) = _
  rw [if_pos hr]
  rfl

/-- No frame is open exactly while MFT is idle or its start condition is still to be driven (R68; log entry 9). -/
theorem frameOpen_eq_false_iff {s : State} : s.frameOpen = false ↔ s.mftState = .idle ∨ s.mftState = .start := by
  rw [State.frameOpen, decide_eq_false_iff_not, not_and_or, not_not, not_not]

/-- The bus sees `X` at a reset edge if the edge cuts a frame off (R270; log entries 9, 25 and 33). -/
theorem resetEdge_trace_eq (s : State) :
    (resetEdge s).trace = if s.mftState = .idle ∨ s.mftState = .start then s.trace else s.trace ++ [.X] := by
  show (if s.frameOpen then s.trace ++ [.X] else s.trace) = _
  by_cases hm : s.mftState = .idle ∨ s.mftState = .start
  · rw [if_pos hm, frameOpen_eq_false_iff.2 hm, if_neg Bool.false_ne_true]
  · have hopen : s.frameOpen = true := Bool.eq_true_of_not_eq_false (mt frameOpen_eq_false_iff.1 hm)
    rw [if_neg hm, if_pos hopen]

/-- A reset leaves MFT idle, and an idle MFT releases both lines (R35, R150). -/
@[simp] theorem resetEdge_lineLevels (s : State) : (resetEdge s).lineLevels = (true, true) := rfl

/-- Settles O32: the step is the reset edge, which `resetEdge` writes out but for the name it gives to an open frame. -/
theorem resetEdge_spec : Obligations.ResetEdge := by
  intro s hr
  refine ⟨resetEdge s, step_of_rst hr, resetEdge_lineLevels s, ?_⟩
  rw [← resetEdge_trace_eq s]
  rfl

end Sys2Proof.Machine
end
